-- ==== Sys2Proof/Word.lean ====
section
/-! DEFINITION. The widths of the words of the block (00_scope.md R16, 10_state.md R31 to R33, 30_encoding.md R101, R105). -/

namespace Sys2Proof

/-- A byte (R16: "A byte is 8 bits"). -/
abbrev Byte := BitVec 8

/-- A progress register (R33) and the address of a frame (30_encoding.md R115): 16 bits. -/
abbrev Half := BitVec 16

/-- An `addr` or `len` field and its latch. `ADDR_W` and `LEN_W` are parameters from 16 to 32 (R10);
the widest is used and the configured width is a bound (`Instr.wellFormed`). -/
abbrev ReqNum := BitVec 32

/-- A request word of at most 3 + 8 + 32 + 32 bits (30_encoding.md R100, R101). -/
abbrev ReqWord := BitVec 75

/-- A result word (30_encoding.md R105): 42 bits. -/
abbrev RspWord := BitVec 42

end Sys2Proof
end

