-- ==== Sys2Proof/Config.lean ====
section
/-! DEFINITION. The implementation parameters (00_scope.md R8 to R14) and the free values. -/

namespace Sys2Proof

/-- The parameters the spec marks ARG (00_scope.md R9, R10, R12, R14). No transition writes one
(10_state.md R39). They travel in `State.cfg` (assumption log 1). -/
structure Config where
  /-- `MAX_CHUNK` (R9). -/
  maxChunk : Nat
  /-- `ADDR_W` (R10). -/
  addrW : Nat
  /-- `LEN_W` (R10). -/
  lenW : Nat
  /-- `MODE_SHIFT` (R12). -/
  modeShift : Nat
  /-- `MODE_BYTE` (R12). -/
  modeByte : BitVec 2
  /-- `MODE_PAGE` (R12). -/
  modePage : BitVec 2
  /-- `MODE_SEQ` (R12). -/
  modeSeq : BitVec 2
  /-- `DUMMY` (R14). -/
  dummy : Byte
  deriving DecidableEq, Repr

/-- The defaults of R9, R10, R12, R14. -/
def Config.default : Config where
  maxChunk := 128
  addrW := 16
  lenW := 16
  modeShift := 6
  modeByte := 0b00#2
  modePage := 0b10#2
  modeSeq := 0b01#2
  dummy := 0x00#8

/-- `CHIP_SIZE` (R8), FIXED. -/
def Config.chipSize : Nat := 32768

/-- The free values of the model: a draw "under no law" (00_scope.md, glossary). Draw number `n` of a
run is `freeWord n`; nothing can evaluate it. Used for the answer bytes the chip does not drive
(20_memory.md R88 to R91), the chip's pointer after a failed WRITE (assumption log 12) and the registers
that a reset edge leaves unspecified (10_state.md R55, assumption log 6). -/
opaque Config.freeWord : Nat → BitVec 32

end Sys2Proof
end

