-- ==== Sys2Proof/Syntax.lean ====
section
/-! DEFINITION. The instructions: one constructor per row of spec/opcode_table.json. -/

namespace Sys2Proof

/-- The fields of a request word beside `op` (30_encoding.md R101). Every operation carries all three,
because T_ACCEPT latches the ignored ones too (R103, 42_sequencer_data_ops.md R171; assumption log 21). -/
structure ReqFields where
  data : Byte
  len  : ReqNum
  addr : ReqNum
  deriving DecidableEq, Repr

/-- The six caller operations (30_encoding.md R102) and the four bus frames (R111 to R114). -/
inductive Instr
  /-- READ, `op` = 0b000 (R183). -/
  | read (r : ReqFields)
  /-- WRITE, `op` = 0b001 (R184). -/
  | write (r : ReqFields)
  /-- GETSTATUS, `op` = 0b010 (R212). -/
  | getStatus (r : ReqFields)
  /-- SETSTATUS, `op` = 0b011 (R213). -/
  | setStatus (r : ReqFields)
  /-- GETMODE, `op` = 0b100 (R214). -/
  | getMode (r : ReqFields)
  /-- SETMODE, `op` = 0b101 (R215). -/
  | setMode (r : ReqFields)
  /-- FRAME_READ: `[0x03, ah, al] ++ filler` (R111, R133). -/
  | frameRead (addr : Half) (filler : List Byte)
  /-- FRAME_WRITE: `[0x02, ah, al] ++ payload` (R112, R134). -/
  | frameWrite (addr : Half) (payload : List Byte)
  /-- FRAME_RDSR: `[0x05, filler]` (R113, R135). -/
  | frameRdsr (filler : Byte)
  /-- FRAME_WRSR: `[0x01, value]` (R114, R136). -/
  | frameWrsr (value : Byte)
  deriving DecidableEq, Repr

/-- The bits of an instruction: a request word (format REQ) or the bytes of a frame (formats HDR3 and
HDR1), byte 0 first (30_encoding.md R100, R110). -/
inductive Code
  | request (w : ReqWord)
  | frame (out : List Byte)
  deriving DecidableEq, Repr

/-- `Command`, the closed set of chip commands (40_codec.md R130). -/
inductive Command
  | read
  | write
  | readStatus
  | writeStatus
  deriving DecidableEq, Repr

/-- `Mode`, the closed set of chip modes (10_state.md R51). -/
inductive Mode
  | byte
  | page
  | sequential
  deriving DecidableEq, Repr

/-- Why a bit pattern is no instruction. -/
inductive DecodeError
  /-- `op` is 0b110 or 0b111 (30_encoding.md R118). -/
  | reservedOperation
  /-- SETMODE with a code that names no mode (R119). -/
  | reservedMode
  /-- A request word with a bit above the configured width set (R101). -/
  | requestTooWide
  /-- A byte sequence that is no frame of this block (40_codec.md R139). -/
  | notAFrame
  deriving DecidableEq, Repr

end Sys2Proof
end

