-- ==== Sys2Proof/WellFormed.lean ====
section
/-! DEFINITION. Which configurations are legal and which instructions are well formed under one. -/

namespace Sys2Proof

/-- The reserved mode code: "the value 0b11 names no mode" (00_scope.md R12, 30_encoding.md R104, R119). -/
def modeReserved (m : BitVec 2) : Bool := m == 0b11#2

/-- The legal configurations: the ranges of 00_scope.md R9 and R10, a mode field that lies in the byte
and three distinct mode codes (R12, decision D3), none of them the reserved one (R12; assumption log 32). An
illegal one is refused (R9, 41_chunk_planner.md R151). -/
def Config.legal (c : Config) : Bool := decide (
  1 ≤ c.maxChunk ∧ c.maxChunk ≤ 65535 ∧ 16 ≤ c.addrW ∧ c.addrW ≤ 32 ∧ 16 ≤ c.lenW ∧ c.lenW ≤ 32 ∧ c.modeShift ≤ 6 ∧
  c.modeByte ≠ c.modePage ∧ c.modeByte ≠ c.modeSeq ∧ c.modePage ≠ c.modeSeq ∧
  modeReserved c.modeByte = false ∧ modeReserved c.modePage = false ∧ modeReserved c.modeSeq = false)

/-- The code of a mode (R12). -/
def Mode.code (c : Config) : Mode → BitVec 2
  | .byte => c.modeByte
  | .page => c.modePage
  | .sequential => c.modeSeq

/-- The fields fit the configured widths (R101). -/
def ReqFields.fit (c : Config) (r : ReqFields) : Bool :=
  decide (r.len.toNat < 2 ^ c.lenW) && decide (r.addr.toNat < 2 ^ c.addrW)

/-- Well-formed instructions: the fields fit the request word, SETMODE names a mode (R119), and a data
frame has 1 to `MAX_CHUNK` payload bytes (30_encoding.md R100, R111, R112, R120). -/
def Instr.wellFormed (c : Config) : Instr → Bool
  | .read r => r.fit c
  | .write r => r.fit c
  | .getStatus r => r.fit c
  | .setStatus r => r.fit c
  | .getMode r => r.fit c
  | .setMode r => r.fit c && !modeReserved (r.data.setWidth 2)
  | .frameRead _ p => decide (1 ≤ p.length) && decide (p.length ≤ c.maxChunk)
  | .frameWrite _ p => decide (1 ≤ p.length) && decide (p.length ≤ c.maxChunk)
  | .frameRdsr _ => true
  | .frameWrsr _ => true

end Sys2Proof
end

