-- ==== Sys2Proof/Decode.lean ====
section
/-! DEFINITION. The decoder, total on any bits, and after it the encoder (30_encoding.md R100 to R122, 40_codec.md R130 to R139). -/

namespace Sys2Proof

/-- The field of `v` that is `width` bits wide from bit `lo` up (00_scope.md R16). -/
def bitField (v lo width : Nat) : Nat := v / 2 ^ lo % 2 ^ width

/-- The width of a request word: `3 + 8 + LEN_W + ADDR_W` (30_encoding.md R100). -/
def reqBits (c : Config) : Nat := 3 + 8 + c.lenW + c.addrW

/-- The request word of an `op` and its fields, most significant field first (R101). -/
def packRequest (c : Config) (op : BitVec 3) (r : ReqFields) : ReqWord :=
  BitVec.ofNat 75
    (((op.toNat * 2 ^ 8 + r.data.toNat) * 2 ^ c.lenW + r.len.toNat) * 2 ^ c.addrW + r.addr.toNat)

/-- The `op` field of a request word (R101). -/
def requestOp (c : Config) (w : ReqWord) : BitVec 3 :=
  BitVec.ofNat 3 (bitField w.toNat (c.addrW + c.lenW + 8) 3)

/-- The other fields of a request word (R101). -/
def requestFields (c : Config) (w : ReqWord) : ReqFields where
  data := BitVec.ofNat 8 (bitField w.toNat (c.addrW + c.lenW) 8)
  len := BitVec.ofNat 32 (bitField w.toNat c.addrW c.lenW)
  addr := BitVec.ofNat 32 (bitField w.toNat 0 c.addrW)

/-- The operation an `op` code names (R102); the reserved codes (R118) and a SETMODE whose operand
`data[1:0]` names no mode (R104, R119) are rejected by name. -/
def decodeFields (op : BitVec 3) (r : ReqFields) : Except DecodeError Instr :=
  match op.toNat with
  | 0 => .ok (.read r)
  | 1 => .ok (.write r)
  | 2 => .ok (.getStatus r)
  | 3 => .ok (.setStatus r)
  | 4 => .ok (.getMode r)
  | 5 => if modeReserved (r.data.setWidth 2) then .error .reservedMode else .ok (.setMode r)
  | _ => .error .reservedOperation

/-- A request word (R101). A word with a bit above the configured width has no meaning (assumption log 18). -/
def decodeRequest (c : Config) (w : ReqWord) : Except DecodeError Instr :=
  if w.toNat < 2 ^ reqBits c then decodeFields (requestOp c w) (requestFields c w)
  else .error .requestTooWide

/-- The opcode of a chip command (40_codec.md R130, 00_scope.md R11). -/
def Command.opcode : Command → Byte
  | .read => 0x03#8
  | .write => 0x02#8
  | .readStatus => 0x05#8
  | .writeStatus => 0x01#8

/-- The command a first byte names; there is no fifth (R130). -/
def commandOf (b : Byte) : Option Command :=
  if b = Command.opcode .read then some .read
  else if b = Command.opcode .write then some .write
  else if b = Command.opcode .readStatus then some .readStatus
  else if b = Command.opcode .writeStatus then some .writeStatus
  else none

/-- A frame from its bytes (40_codec.md R139): a data frame has at least four bytes, a status frame
exactly two, and the address is high byte first (00_scope.md R13). -/
def decodeFrame : List Byte → Except DecodeError Instr
  | [] => .error .notAFrame
  | op :: rest =>
    match commandOf op, rest with
    | some .read, ah :: al :: d :: ds => .ok (.frameRead (ah ++ al) (d :: ds))
    | some .write, ah :: al :: d :: ds => .ok (.frameWrite (ah ++ al) (d :: ds))
    | some .readStatus, [d] => .ok (.frameRdsr d)
    | some .writeStatus, [v] => .ok (.frameWrsr v)
    | _, _ => .error .notAFrame

/-- The decoder. -/
def decode (c : Config) : Code → Except DecodeError Instr
  | .request w => decodeRequest c w
  | .frame out => decodeFrame out

/-- `ENCODE(c, a)`: the header of a data frame, high byte first, bit 15 passed through (40_codec.md R131). -/
def encodeHeader (cmd : Command) (a : Half) : List Byte :=
  [cmd.opcode, a.extractLsb' 8 8, a.extractLsb' 0 8]

/-- `ENCODE_S(c)`: the header of a status frame (R132). -/
def encodeStatusHeader (cmd : Command) : List Byte := [cmd.opcode]

/-- The encoder (30_encoding.md R102, R111 to R114). -/
def encode (c : Config) : Instr → Code
  | .read r => .request (packRequest c 0b000#3 r)
  | .write r => .request (packRequest c 0b001#3 r)
  | .getStatus r => .request (packRequest c 0b010#3 r)
  | .setStatus r => .request (packRequest c 0b011#3 r)
  | .getMode r => .request (packRequest c 0b100#3 r)
  | .setMode r => .request (packRequest c 0b101#3 r)
  | .frameRead a p => .frame (encodeHeader .read a ++ p)
  | .frameWrite a p => .frame (encodeHeader .write a ++ p)
  | .frameRdsr d => .frame (encodeStatusHeader .readStatus ++ [d])
  | .frameWrsr v => .frame (encodeStatusHeader .writeStatus ++ [v])

/-- Byte `k` of a number, byte 0 least significant. -/
def byteOf (w k : Nat) : Byte := BitVec.ofNat 8 (bitField w (8 * k) 8)

/-- The bits of a row of spec/opcode_table.json as the hardware takes them. HDR1 rows (16 bits) and
HDR3 rows (24 bits) are headers, "most significant byte sent first"; a HDR3 header is followed by one
payload byte of zeros, the shortest frame there is (R120). REQ rows are request words at the default
widths (assumption log 19). -/
def tableCode (nbits w : Nat) : Code :=
  if nbits ≤ 16 then .frame [byteOf w 1, byteOf w 0]
  else if nbits ≤ 24 then .frame [byteOf w 2, byteOf w 1, byteOf w 0, 0x00#8]
  else .request (BitVec.ofNat 75 w)

/-- What the decoder reads from the bits of a table row, at the default configuration. -/
def decodeTableWord (nbits w : Nat) : Option Instr :=
  match decode Config.default (tableCode nbits w) with
  | .ok i => some i
  | .error _ => none

end Sys2Proof
end

