-- ==== Sys2Proof/Machine/State.lean ====
section
/-! DEFINITION. The state of the machine, its reset, and the reasons a step can stop. -/

namespace Sys2Proof.Machine

/-- `st` (10_state.md R32). -/
inductive SeqState
  | idle
  | planning
  | issuing
  | waiting
  | complete
  | failed
  deriving DecidableEq, Repr

/-- `phase` (R34). -/
inductive Phase
  | rdsr
  | wrsr
  | data
  deriving DecidableEq, Repr

/-- `err_kind` (R36) with the kinds of 60_exceptions.md R230. -/
inductive ErrKind
  | ok
  | addressRange
  | transport
  | invalidLength
  deriving DecidableEq, Repr

/-- `XferRsp` (10_state.md R44). -/
inductive Answer
  | ok (inb : List Byte)
  | err
  deriving DecidableEq, Repr

/-- The XFER channel (R44, R54 (d)): no transfer, a frame sent and not answered, or an answer that the
block has not consumed. -/
inductive Xfer
  | idle
  | sent (out : List Byte)
  | answered (a : Answer)
  deriving DecidableEq, Repr

/-- Bytes by address: addresses strictly rising, no entry equal to 0x00, which is what an unlisted
address reads as (assumption log 8 and 16). -/
abbrev Memory := List Host.Cell

/-- The chip (20_memory.md R70, R71, R87; the pointer: 10_state.md R53). -/
structure Chip where
  mem : Memory
  sr  : Byte
  ptr : BitVec 15
  deriving DecidableEq, Repr

/-- The caller's buffer on the BUF port (20_memory.md R72): `size` bytes, indexed from 0. -/
structure Buffer where
  size  : Nat
  bytes : Memory
  deriving DecidableEq, Repr

/-- A request offered on REQ (10_state.md R41), with the buffer the caller attaches for it, if it
attaches another one (30_encoding.md R101: the buffer is no field of the word). -/
structure Request where
  word   : ReqWord
  attach : Option Buffer
  deriving DecidableEq, Repr

/-- What an agent other than the reference chip's own rules does to the chip: a new status byte, bytes
written, a new pointer. -/
structure ChipChange where
  sr    : Option Byte
  bytes : List (BitVec 15 × Byte)
  ptr   : Option (BitVec 15)
  deriving DecidableEq, Repr

/-- An edge of the output `own_req` (10_state.md R43). -/
inductive OwnEdge
  | rise
  | fall
  deriving DecidableEq, Repr

/-- What becomes of an outstanding transfer at one edge (10_state.md R44, R56): the Transport is still
busy; the reference chip carries the frame out and the Transport completes it (20_memory.md R88 to R91);
it fails after that chip has received so many bytes (R92); or the answer is any `Ok(in)` or `Err`, and what
the chip behind it has become is any `ChipChange` (R56; a chip other than the reference chip, assumption log 9). -/
inductive Fate
  | busy
  | complete
  | fail (received : Nat)
  | reply (a : Answer) (did : ChipChange)
  deriving DecidableEq, Repr

/-- An input of the machine, edge by edge: the values still to come, then one for ever after. The
block looks at an input only where a rule says so (60_exceptions.md R242) and consumes one value each
time it looks (assumption log 4). -/
structure Feed (α : Type) where
  coming : List α
  after  : α
  deriving DecidableEq, Repr

/-- The machine: the block (10_state.md R30 to R38), its channels, and the agents on their far side. -/
structure State where
  /-- The configuration (00_scope.md R8 to R14), constant. -/
  cfg       : Config
  /-- `st` (10_state.md R32). -/
  st        : SeqState
  /-- `owner` (R38). -/
  owner     : Bool
  /-- `op_l` (R31). -/
  opL       : BitVec 3
  /-- `addr_l` (R31). -/
  addrL     : ReqNum
  /-- `len_l` (R31). -/
  lenL      : ReqNum
  /-- `data_l` (R31). -/
  dataL     : Byte
  /-- `cur_addr` (R33). -/
  curAddr   : Half
  /-- `remaining` (R33). -/
  remaining : Half
  /-- `done` (R33). -/
  done      : Half
  /-- `phase` (R34). -/
  phase     : Phase
  /-- `sr_tmp` (R35). -/
  srTmp     : Byte
  /-- `err_kind` (R36). -/
  errKind   : ErrKind
  /-- The XFER channel (R44). -/
  xfer      : Xfer
  /-- The chip behind the Transport. -/
  chip      : Chip
  /-- The caller's buffer on the BUF port (R45). -/
  buf       : Buffer
  /-- REQ (R41): what the caller offers. -/
  requests  : Feed (Option Request)
  /-- RSP (R42): `rsp_ready`. -/
  takes     : Feed Bool
  /-- OWN (R43): `own_gnt`. -/
  grants    : Feed Bool
  /-- XFER (R44): the Transport's part. -/
  fates     : Feed Fate
  /-- The pin `rst` (R46). -/
  rst       : Feed Bool
  /-- What another master that can reach the chip does to it, edge by edge while the block does not own the
  bus (70_reset_and_hazards.md R268, assumption log 23). -/
  others    : Feed (Option ChipChange)
  /-- OWN (R43): the edges the output `own_req` has made, oldest first. In T_OK of a data frame after which
  another chunk is due it falls (42_sequencer_data_ops.md R181) and is raised again for the next window (R173,
  10_state.md R38), both in the one atomic transition (R47, assumption log 33). -/
  ownEdges  : List OwnEdge
  /-- The result words the caller has taken (R42), oldest first. -/
  delivered : List RspWord
  /-- The model's own: how many free values have been drawn (assumption log 6, 10). -/
  draws     : Nat
  deriving DecidableEq, Repr

/-- Why the machine stops with a fault. -/
inductive Fault
  /-- Raised by T_ISSUE of a WRITE data frame and T_OK of a READ data frame: an access outside the
  caller's buffer, "outside this spec" (70_reset_and_hazards.md R266). Safe; no run from an accepted
  request reaches it. -/
  | bufferIndexOutside
  deriving DecidableEq, Repr

/-- Why an input has no meaning. All are safe. -/
inductive Refusal
  /-- Raised by an arm of `exec` whose instruction has no meaning yet. -/
  | notModelled (mnemonic : String)
  /-- Raised by `step`: MAX_CHUNK = 0 and the like (41_chunk_planner.md R151, 93 U6). -/
  | illegalConfig
  /-- Raised by `step` on a request with `op` 0b110 or 0b111 (30_encoding.md R118, 93 U1). -/
  | reservedOperation
  /-- Raised by `step` and by SETMODE on the reserved mode code (R119, 93 U2). -/
  | reservedMode
  /-- Raised by `step` on a request word wider than the configuration (R101, assumption log 18). -/
  | requestTooWide
  /-- Raised by the chip on a byte sequence that is no frame (20_memory.md R93, 93 U3). -/
  | notAFrame
  /-- Raised by the chip on a data frame it receives, whole or in part, while its MODE is not SEQUENTIAL (R93,
  93 U3, assumption log 13). -/
  | dataFrameNotSequential
  /-- Raised by READ and WRITE on a request whose buffer is shorter than `len` (70_reset_and_hazards.md
  R266, 93 U5). -/
  | bufferTooShort
  /-- Raised by T_OK on an answer whose length is not the frame's (10_state.md R44, 93 U7). -/
  | transportContract
  /-- Raised by a status operation in a phase that 43_status_ops.md R216 has no row for ("never
  occurs"). -/
  | phaseWithoutRule
  deriving DecidableEq, Repr

/-- The outcome of a step of this machine. -/
abbrev Result := Host.Outcome State Fault Refusal

/-- What the machine does next: run an instruction, take a transition that belongs to no instruction
(a reset edge, an idle wait), or turn the input away. -/
inductive Action
  | run (i : Instr) (s : State)
  | settle (s : State)
  | reject (r : Refusal)
  deriving DecidableEq, Repr

/-- The machine at power-up with the block just reset (10_state.md R55). The spec gives `st`, `owner`
and the idle XFER channel; the registers it leaves unspecified are 0 (assumption log 5), the chip is
blank (log 8), the buffer is 65536 bytes of 0 (log 16) and the environment never delays and never fails
(log 4); no edge of `own_req` and no result lies behind it (log 25, 33). -/
def State.reset : State where
  cfg := Config.default
  st := .idle
  owner := false
  opL := 0#3
  addrL := 0#32
  lenL := 0#32
  dataL := 0#8
  curAddr := 0#16
  remaining := 0#16
  done := 0#16
  phase := .rdsr
  srTmp := 0#8
  errKind := .ok
  xfer := .idle
  chip := { mem := [], sr := 0#8, ptr := 0#15 }
  buf := { size := 65536, bytes := [] }
  requests := { coming := [], after := none }
  takes := { coming := [], after := true }
  grants := { coming := [], after := true }
  fates := { coming := [], after := .complete }
  rst := { coming := [], after := false }
  others := { coming := [], after := none }
  ownEdges := []
  delivered := []
  draws := 0

end Sys2Proof.Machine
end

