-- ==== Sys2Proof/Machine/Ops.lean ====
section
/-! DEFINITION. The named operations over memory, the inputs and the registers; raising an error kind and the return from it. -/

namespace Sys2Proof.Machine

/-! ### Memory -/

/-- The byte at an address; an unlisted address reads 0x00 (assumption log 8, 16). -/
def Memory.read : Memory → Nat → Byte
  | [], _ => 0#8
  | (k, v) :: m, a => if a = k then v else Memory.read m a

/-- `m` with `v` at address `a`, in canonical form. -/
def Memory.write : Memory → Nat → Byte → Memory
  | [], a, v => if v = 0#8 then [] else [(a, v)]
  | (k, u) :: m, a, v =>
    if a < k then (if v = 0#8 then (k, u) :: m else (a, v) :: (k, u) :: m)
    else if a = k then (if v = 0#8 then m else (a, v) :: m)
    else (k, u) :: Memory.write m a v

/-- Every address listed is above `a`. -/
def Memory.above (a : Nat) (m : Memory) : Bool := m.all fun c => decide (a < c.1)

/-- The canonical form: addresses strictly rising, no entry equal to 0x00. -/
def Memory.wf : Memory → Bool
  | [] => true
  | (k, v) :: m => v != 0#8 && Memory.above k m && Memory.wf m

/-- Every address listed is below `n`. -/
def Memory.below (n : Nat) (m : Memory) : Bool := m.all fun c => decide (c.1 < n)

/-- `n` bytes, byte `j` at `loc j`, in ascending order of `j` (20_memory.md R74). -/
def Memory.readBytes (m : Memory) (loc : Nat → Nat) (n : Nat) : List Byte :=
  (List.range n).map fun j => m.read (loc j)

/-- Bytes `j`, `j + 1`, … written in order, byte `i` at `loc i` (R74, R89). -/
def Memory.writeBytes (m : Memory) (loc : Nat → Nat) (j : Nat) : List Byte → Memory
  | [] => m
  | v :: vs => Memory.writeBytes (m.write (loc j) v) loc (j + 1) vs

/-- Buffer index of payload byte `j` of a chunk that starts at offset `d` (20_memory.md R75). -/
def bufLoc (d j : Nat) : Nat := d + j

/-- Chip address of payload byte `j` of a frame at address `a`: address bit 15 ignored, modulo 32768
(20_memory.md R88, R89). -/
def chipLoc (a : Half) (j : Nat) : Nat := ((a.setWidth 15).toNat + j) % Config.chipSize

/-! ### Inputs -/

/-- The value an input has now. -/
def Feed.head {α : Type} (f : Feed α) : α := f.coming.headD f.after

/-- The input after one value of it has been consumed. -/
def Feed.pop {α : Type} (f : Feed α) : Feed α := { f with coming := f.coming.tail }

/-- The input with one value put before all others. -/
def Feed.push {α : Type} (f : Feed α) (x : α) : Feed α := { f with coming := x :: f.coming }

/-- A chip after what another agent has done to it. -/
def Chip.change (c : ChipChange) (k : Chip) : Chip :=
  { mem := c.bytes.foldl (fun m w => m.write w.1.toNat w.2) k.mem, sr := c.sr.getD k.sr, ptr := c.ptr.getD k.ptr }

/-- The chip as this edge finds it: while the block does not own the bus another master may have changed
it, inside an ownership window nobody can (70_reset_and_hazards.md R268, 20_memory.md R79). -/
def State.edgeChip (s : State) : Chip :=
  if s.owner then s.chip
  else match s.others.head with
    | none => s.chip
    | some c => s.chip.change c

/-- One edge: one value of `rst` is consumed and, while the block does not own the bus, one of `others`. -/
def State.tick (s : State) : State :=
  { s with rst := s.rst.pop, others := if s.owner then s.others else s.others.pop, chip := s.edgeChip }

/-- Consume one value of `own_gnt`. -/
def State.popGrant (s : State) : State := { s with grants := s.grants.pop }

/-- Consume one value of `rsp_ready`. -/
def State.popTake (s : State) : State := { s with takes := s.takes.pop }

/-- The reference chip receives the frame, or part of it (20_memory.md R88 to R93): not if the transfer fails
before its first byte ("or none", R92). -/
def Fate.byChip : Fate → Bool
  | .complete => true
  | .fail received => received != 0
  | .busy | .reply _ _ => false

/-- The answer is the environment's own (10_state.md R56). -/
def Fate.isReply : Fate → Bool
  | .reply _ _ => true
  | .busy | .complete | .fail _ => false

/-- An answer to a frame of `n` bytes: `Ok(in)` has as many bytes as were sent (10_state.md R44,
93_implementation_defined.md U7, assumption log 30). -/
def Answer.fit (n : Nat) : Answer → Answer
  | .ok inb => .ok ((List.range n).map fun j => inb.getD j 0x00#8)
  | .err => .err

/-- Consume one value of the Transport's input. -/
def State.popFate (s : State) : State := { s with fates := s.fates.pop }

/-- Consume what REQ offers at this edge. -/
def State.popRequest (s : State) : State := { s with requests := s.requests.pop }

/-- The caller's buffer for the request it offers. -/
def State.attach (b : Option Buffer) (s : State) : State := { s with buf := b.getD s.buf }

/-! ### Registers -/

/-- T_ACCEPT (42_sequencer_data_ops.md R171): the four latches and `err_kind`, together. -/
def State.accept (op : BitVec 3) (r : ReqFields) (s : State) : State :=
  { s with opL := op, addrL := r.addr, lenL := r.len, dataL := r.data, errKind := .ok, st := .planning }

/-- `done <- d` (R172, 43_status_ops.md R211, R216). -/
def State.setDone (d : Half) (s : State) : State := { s with done := d }

/-- The progress registers of an accepted plan (R172). -/
def State.loadProgress (s : State) : State :=
  { s with curAddr := s.addrL.setWidth 16, remaining := s.lenL.setWidth 16 }

/-- The progress registers after a chunk of `l` bytes (R180). -/
def State.advance (l : Nat) (s : State) : State :=
  { s with curAddr := s.curAddr + BitVec.ofNat 16 l, remaining := s.remaining - BitVec.ofNat 16 l,
           done := s.done + BitVec.ofNat 16 l }

/-- `phase <- p; st <- ISSUING`: the next frame is that of phase `p`. -/
def State.toPhase (p : Phase) (s : State) : State := { s with phase := p, st := .issuing }

/-- `sr_tmp <- b`. -/
def State.setSrTmp (b : Byte) (s : State) : State := { s with srTmp := b }

/-- T_ACQUIRE (R173): `owner <- 1`. -/
def State.acquire (s : State) : State := { s with owner := true }

/-- The block asks for the bus: `own_req` rises (R173, 10_state.md R43). -/
def State.request (s : State) : State := { s with ownEdges := s.ownEdges ++ [.rise] }

/-- The release of the bus (R181): `owner <- 0`, and so `own_req` falls. -/
def State.release (s : State) : State := { s with owner := false, ownEdges := s.ownEdges ++ [.fall] }

/-- T_ISSUE (R174): `XferReq(out)` is produced, `st <- WAITING`. -/
def State.send (out : List Byte) (s : State) : State := { s with xfer := .sent out, st := .waiting }

/-- The block consumes the Transport's answer. -/
def State.endTransfer (s : State) : State := { s with xfer := .idle }

/-- The Transport answers the transfer (10_state.md R44). -/
def State.answer (a : Answer) (s : State) : State := { s with xfer := .answered a }

/-- The success of the Operation: `st <- COMPLETE`. -/
def State.finish (s : State) : State := { s with st := .complete }

/-- The caller's buffer bytes after a store. -/
def State.setBufBytes (m : Memory) (s : State) : State := { s with buf := { s.buf with bytes := m } }

/-- The chip after a frame. -/
def State.setChip (c : Chip) (s : State) : State := { s with chip := c }

/-- `n` more free values have been drawn. -/
def State.draw (n : Nat) (s : State) : State := { s with draws := s.draws + n }

/-! ### Errors -/

/-- `raise K`, the whole of exception entry: `err_kind <- K; st <- FAILED` (60_exceptions.md R237,
00_scope.md R17). Nothing else is saved; the caller is told `err_kind` and `done`. -/
def State.raise (k : ErrKind) (s : State) : State := { s with errKind := k, st := .failed }

/-- The return, for errors and successes alike: T_REPORT delivers the result and sets `st <- IDLE`; "no
register other than `st` changes" (R239, 42_sequencer_data_ops.md R182). -/
def State.deliver (w : RspWord) (s : State) : State :=
  { s with delivered := s.delivered ++ [w], st := .idle }

/-! ### Free values -/

/-- Free bytes number `n` to `n + k - 1`. -/
def freeBytes (n k : Nat) : List Byte := (List.range k).map fun j => (Config.freeWord (n + j)).setWidth 8

/-- A phase from a free value. -/
def phaseOf (w : BitVec 32) : Phase :=
  if w.setWidth 2 = 0#2 then .rdsr else if w.setWidth 2 = 1#2 then .wrsr else .data

/-- An error kind from a free value. -/
def errKindOf (w : BitVec 32) : ErrKind :=
  if w.setWidth 2 = 0#2 then .ok else if w.setWidth 2 = 1#2 then .addressRange
  else if w.setWidth 2 = 2#2 then .transport else .invalidLength

/-- The registers a reset edge leaves unspecified (10_state.md R55, 70_reset_and_hazards.md R260): each
holds a free value of its width (assumption log 6). -/
def State.scramble (s : State) : State :=
  { s with
    opL := (Config.freeWord s.draws).setWidth 3
    addrL := BitVec.ofNat 32 ((Config.freeWord (s.draws + 1)).toNat % 2 ^ s.cfg.addrW)
    lenL := BitVec.ofNat 32 ((Config.freeWord (s.draws + 2)).toNat % 2 ^ s.cfg.lenW)
    dataL := (Config.freeWord (s.draws + 3)).setWidth 8
    curAddr := (Config.freeWord (s.draws + 4)).setWidth 16
    remaining := (Config.freeWord (s.draws + 5)).setWidth 16
    done := (Config.freeWord (s.draws + 6)).setWidth 16
    phase := phaseOf (Config.freeWord (s.draws + 7))
    srTmp := (Config.freeWord (s.draws + 8)).setWidth 8
    errKind := errKindOf (Config.freeWord (s.draws + 9))
    draws := s.draws + 10 }

/-- `own_req`, by R38's formula (10_state.md R38, R43). -/
def State.ownReq (s : State) : Bool := (s.st == .issuing && !s.owner) || s.owner

/-- The state of the block after a reset edge: IDLE, no bus owned, no transfer (R55, R260); `own_req` falls at
once if it was high (R262). -/
def State.quiesce (s : State) : State :=
  { s with st := .idle, owner := false, xfer := .idle,
           ownEdges := if s.ownReq then s.ownEdges ++ [.fall] else s.ownEdges }

end Sys2Proof.Machine
end

