-- ==== Sys2Proof/Machine/Flags.lean ====
section
/-! DEFINITION. The status byte's MODE field, the error kind's codes and the result word. -/

namespace Sys2Proof.Machine

/-- `MODE_MASK` = 0b11 << `MODE_SHIFT` (00_scope.md R12). -/
def modeMask (c : Config) : Byte := 0b11#8 <<< c.modeShift

/-- `mode_of(s)` (30_encoding.md R116). -/
def modeOf (c : Config) (s : Byte) : BitVec 2 := ((s &&& modeMask c) >>> c.modeShift).setWidth 2

/-- `with_mode(s, m)` (R116). -/
def withMode (c : Config) (s : Byte) (m : BitVec 2) : Byte :=
  (s &&& ~~~(modeMask c)) ||| (m.setWidth 8 <<< c.modeShift)

/-- `mode_of(s) == MODE_SEQ` (R178). -/
def isSequential (c : Config) (s : Byte) : Bool := modeOf c s == Mode.code c .sequential

/-- The code of an error kind (30_encoding.md R106, 60_exceptions.md R230). -/
def ErrKind.code : ErrKind → BitVec 2
  | .ok => 0b00#2
  | .addressRange => 0b01#2
  | .transport => 0b10#2
  | .invalidLength => 0b11#2

/-- The result word, most significant field first (R105). -/
def packResult (kind : BitVec 2) (offset completed : Half) (data : Byte) : RspWord :=
  kind ++ offset ++ completed ++ data

/-- The result word of the Operation, `data` being the success data (42_sequencer_data_ops.md R182). -/
def resultWord (data : Byte) (s : State) : RspWord :=
  match s.st with
  | .failed => packResult s.errKind.code s.done s.done 0x00#8
  | _ => packResult (ErrKind.code .ok) 0#16 s.done data

end Sys2Proof.Machine
end

