-- ==== Sys2Proof/Machine/Planner.lean ====
section
/-! DEFINITION. The chunk_planner (41_chunk_planner.md): a function of the request and of MAX_CHUNK. -/

namespace Sys2Proof.Machine

/-- The verdict of the three checks, in the order of R150 and 60_exceptions.md R235. -/
inductive Verdict
  | invalidLength
  | nothing
  | addressRange
  | chunks
  deriving DecidableEq, Repr

/-- The three checks of PLAN (R152, R153, R154); the sum is exact. -/
def planCheck (a n : Nat) : Verdict :=
  if 65536 ≤ n then .invalidLength
  else if n = 0 then .nothing
  else if Config.chipSize < a + n then .addressRange
  else .chunks

/-- The loop of R155, at most `fuel` chunks. -/
def planLoop (m : Nat) : Nat → Nat → Nat → List (Nat × Nat)
  | 0, _, _ => []
  | fuel + 1, c, r =>
    if r = 0 then [] else (c, min r m) :: planLoop m fuel (c + min r m) (r - min r m)

/-- `PLAN(command, A, N, M)` (R150). The command does not matter (R159). Every chunk has a byte at least,
so `N` chunks are enough. -/
def plan (_cmd : Command) (a n m : Nat) : Except ErrKind (List (Nat × Nat)) :=
  match planCheck a n with
  | .invalidLength => .error .invalidLength
  | .nothing => .ok []
  | .addressRange => .error .addressRange
  | .chunks => .ok (planLoop m n a n)

/-- `chunk_len = min(remaining, MAX_CHUNK)`, recomputed wherever it is used (10_state.md R37). -/
def State.chunkLen (s : State) : Nat := min s.remaining.toNat s.cfg.maxChunk

end Sys2Proof.Machine
end

