-- ==== Sys2Proof/Machine/Codec.lean ====
section
/-! DEFINITION. The address_command_codec's frame builders and extractors (40_codec.md R133 to R136). -/

namespace Sys2Proof.Machine

/-- `read_frame(a, n) = ENCODE(READ, a) ++ rep(DUMMY, n)` (R133). -/
def readFrame (c : Config) (a : Half) (n : Nat) : List Byte :=
  encodeHeader .read a ++ List.replicate n c.dummy

/-- `read_data(in, n)`: bytes 3 to n + 2 of the answer (R133); bytes 0 to 2 are ignored. -/
def readData (inb : List Byte) (n : Nat) : List Byte := (inb.drop 3).take n

/-- `write_frame(a, v) = ENCODE(WRITE, a) ++ v` (R134). -/
def writeFrame (a : Half) (v : List Byte) : List Byte := encodeHeader .write a ++ v

/-- `rdsr_frame() = ENCODE_S(RDSR) ++ [DUMMY]` (R135). -/
def rdsrFrame (c : Config) : List Byte := encodeStatusHeader .readStatus ++ [c.dummy]

/-- `rdsr_data(in) = in[1]` (R135); called on answers of two bytes. -/
def rdsrData (inb : List Byte) : Byte := inb.getD 1 0#8

/-- `wrsr_frame(s) = ENCODE_S(WRSR) ++ [s]` (R136). -/
def wrsrFrame (v : Byte) : List Byte := encodeStatusHeader .writeStatus ++ [v]

end Sys2Proof.Machine
end

