-- ==== Sys2Proof/Machine/Operands.lean ====
section
/-! DEFINITION. What the operations take from the request, the buffer and the answer: the mode operand, admission, the chunk's bytes, the length of the frame in flight. -/

namespace Sys2Proof.Machine

/-- The mode operand `data[1:0]` (30_encoding.md R104). -/
def modeOperand (d : Byte) : BitVec 2 := d.setWidth 2

/-- A READ or WRITE is admitted only with a buffer at every index 0 to `len − 1`, whatever its plan is
(70_reset_and_hazards.md R266, 93_implementation_defined.md U5). -/
def admitData (r : ReqFields) (s : State) : Option Refusal :=
  if s.buf.size < r.len.toNat then some .bufferTooShort else none

/-- SETMODE is refused for the code that names no mode (30_encoding.md R119, 93_implementation_defined.md U2). -/
def admitMode (r : ReqFields) (_s : State) : Option Refusal :=
  if modeReserved (modeOperand r.data) then some .reservedMode else none

/-- The other status operations take any operand (43_status_ops.md R210, R213). -/
def admitAny (_r : ReqFields) (_s : State) : Option Refusal := none

/-- The indices `done` to `done + chunk_len - 1` lie in the caller's buffer (20_memory.md R72). -/
def State.chunkInBuffer (s : State) : Bool := decide (s.done.toNat + s.chunkLen ≤ s.buf.size)

/-- `Buf[done]` to `Buf[done + chunk_len - 1]` (20_memory.md R75, R85). -/
def State.chunkBytes (s : State) : List Byte := s.buf.bytes.readBytes (bufLoc s.done.toNat) s.chunkLen

/-- The buffer after the bytes of a READ chunk are stored at `done` (42_sequencer_data_ops.md R180). -/
def State.storeChunk (inb : List Byte) (s : State) : State :=
  s.setBufBytes (s.buf.bytes.writeBytes (bufLoc s.done.toNat) 0 (readData inb s.chunkLen))

/-- The length of the frame the block has issued: 2 for HDR1, `3 + chunk_len` for HDR3 (30_encoding.md R117). -/
def State.frameLen (s : State) : Nat :=
  match s.phase with
  | .data => 3 + s.chunkLen
  | _ => 2

end Sys2Proof.Machine
end

