-- ==== Sys2Proof/Machine/Sequencer.lean ====
section
/-! DEFINITION. The transitions the six operations share (42_sequencer_data_ops.md R170 to R182). -/

namespace Sys2Proof.Machine

/-- T_ACCEPT (R171) of an admitted request. -/
def tAccept (op : BitVec 3) (admission : ReqFields → State → Option Refusal) (r : ReqFields) (s : State) : Result :=
  match admission r s with
  | some why => .refused why
  | none => .next (s.accept op r)

/-- T_PLAN for READ and WRITE (R172). -/
def tPlanData (s : State) : State :=
  match planCheck s.addrL.toNat s.lenL.toNat with
  | .invalidLength => (s.setDone 0#16).raise .invalidLength
  | .addressRange => (s.setDone 0#16).raise .addressRange
  | .nothing => (s.setDone 0#16).finish
  | .chunks => (s.setDone 0#16).loadProgress.request.toPhase .rdsr

/-- T_PLAN for GETSTATUS, GETMODE, SETMODE (43_status_ops.md R211). -/
def tPlanRead (s : State) : State := (s.setDone 0#16).request.toPhase .rdsr

/-- T_PLAN for SETSTATUS (43_status_ops.md R211). -/
def tPlanWrite (s : State) : State := ((s.setDone 0#16).setSrTmp s.dataL).request.toPhase .wrsr

/-- T_ACQUIRE (R173) where the arbiter grants; else the block waits with `own_req` = 1. -/
def tAcquire (s : State) : State := if s.grants.head then s.popGrant.acquire else s.popGrant

/-- T_ERR (R177), the same for every operation and every phase. -/
def tErr (s : State) : State := s.endTransfer.release.raise .transport

/-- T_REPORT (R182) where the caller takes the result; else the block holds it
(70_reset_and_hazards.md R272). -/
def tReport (data : State → Byte) (s : State) : State :=
  if s.takes.head then s.popTake.deliver (resultWord (data s) s) else s.popTake

/-- T_ISSUE (R174) with the frame selection of R175; `body` issues the data frame. -/
def issueData (body : State → Result) (s : State) : Result :=
  match s.phase with
  | .rdsr => .next (s.send (rdsrFrame s.cfg))
  | .wrsr => .next (s.send (wrsrFrame s.srTmp))
  | .data => body s

/-- The data frame of a READ chunk (R175). -/
def issueReadChunk (s : State) : Result := .next (s.send (readFrame s.cfg s.curAddr s.chunkLen))

/-- The data frame of a WRITE chunk, its bytes read from the buffer in this step (R174, R175). -/
def issueWriteChunk (s : State) : Result :=
  if s.chunkInBuffer then .next (s.send (writeFrame s.curAddr s.chunkBytes))
  else .fault .bufferIndexOutside

/-- T_ISSUE with the frame selection of 43_status_ops.md R216. -/
def issueStatus (s : State) : Result :=
  issueData (fun _ => .refused .phaseWithoutRule) s

/-- The end of a chunk that has succeeded (R180): the registers advance, the bus is released, and the
Operation is over when nothing remains; else it asks for the bus again (R181, R173). -/
def chunkDone (s : State) : State :=
  let t := (s.advance s.chunkLen).release
  if t.remaining = 0#16 then t.finish else t.request.toPhase .rdsr

/-- T_OK of a data frame of READ: the bytes are stored in this step (R180, 20_memory.md R85). -/
def okReadChunk (inb : List Byte) (s : State) : Result :=
  if s.chunkInBuffer then .next (chunkDone (s.storeChunk inb)) else .fault .bufferIndexOutside

/-- T_OK of a data frame of WRITE: the answer is ignored (R180). -/
def okWriteChunk (_inb : List Byte) (s : State) : Result := .next (chunkDone s)

/-- T_OK of the RDSR frame of the ensure step (R178). -/
def okEnsure (inb : List Byte) (s : State) : State :=
  (s.setSrTmp (withMode s.cfg (rdsrData inb) (Mode.code s.cfg .sequential))).toPhase
    (bif isSequential s.cfg (rdsrData inb) then .data else .wrsr)

/-- T_OK for READ and WRITE (R178, R179, R180). -/
def okData (chunk : List Byte → State → Result) (inb : List Byte) (s : State) : Result :=
  match s.phase with
  | .rdsr => .next (okEnsure inb s)
  | .wrsr => .next (s.toPhase .data)
  | .data => chunk inb s

/-- The last frame of a status operation has succeeded (43_status_ops.md R216). -/
def statusDone (s : State) : State := (s.setDone 1#16).release.finish

/-- T_OK for GETSTATUS and GETMODE (43_status_ops.md R216). -/
def okGet (inb : List Byte) (s : State) : Result :=
  match s.phase with
  | .rdsr => .next (statusDone (s.setSrTmp (rdsrData inb)))
  | _ => .refused .phaseWithoutRule

/-- T_OK for SETSTATUS (43_status_ops.md R216). -/
def okSetStatus (_inb : List Byte) (s : State) : Result :=
  match s.phase with
  | .wrsr => .next (statusDone s)
  | _ => .refused .phaseWithoutRule

/-- T_OK for SETMODE (43_status_ops.md R216). -/
def okSetMode (inb : List Byte) (s : State) : Result :=
  match s.phase with
  | .rdsr => .next ((s.setSrTmp (withMode s.cfg (rdsrData inb) (modeOperand s.dataL))).toPhase .wrsr)
  | .wrsr => .next (statusDone s)
  | .data => .refused .phaseWithoutRule

/-- WAITING: T_OK (R176), T_ERR (R177), or no answer yet. The answer is as long as the frame
(10_state.md R44). -/
def tAnswer (onOk : List Byte → State → Result) (s : State) : Result :=
  match s.xfer with
  | .answered (.ok inb) =>
    if inb.length = s.frameLen then onOk inb s.endTransfer else .refused .transportContract
  | .answered .err => .next (tErr s)
  | .sent _ => .next s
  | .idle => .next s

/-- The transition of an operation that is enabled in the state (R170): the request is looked at in IDLE
only (10_state.md R41), afterwards the latches stand for it. -/
def operation (op : BitVec 3) (admission : ReqFields → State → Option Refusal) (planned : State → State)
    (issue : State → Result) (onOk : List Byte → State → Result) (data : State → Byte)
    (r : ReqFields) (s : State) : Result :=
  match s.st with
  | .idle => tAccept op admission r s
  | .planning => .next (planned s)
  | .issuing => if s.owner then issue s else .next (tAcquire s)
  | .waiting => tAnswer onOk s
  | .complete => .next (tReport data s)
  | .failed => .next (tReport data s)

end Sys2Proof.Machine
end

