-- ==== Sys2Proof/Machine/DataOps.lean ====
section
/-! DEFINITION. The data operations READ and WRITE (42_sequencer_data_ops.md R183, R184). -/

namespace Sys2Proof.Machine

/-- The `data` field of a READ or WRITE result (R182). -/
def noData (_s : State) : Byte := 0x00#8

/-- READ (R183). -/
def execRead (r : ReqFields) (s : State) : Result :=
  operation 0b000#3 admitData tPlanData (issueData issueReadChunk) (okData okReadChunk) noData r s

/-- WRITE (R184). -/
def execWrite (r : ReqFields) (s : State) : Result :=
  operation 0b001#3 admitData tPlanData (issueData issueWriteChunk) (okData okWriteChunk) noData r s

end Sys2Proof.Machine
end

