-- ==== Sys2Proof/Machine/Frames.lean ====
section
/-! DEFINITION. The four frames: the Transport carries one out with the chip (20_memory.md R87 to R93, 10_state.md R44). -/

namespace Sys2Proof.Machine

/-- The chip's MODE is SEQUENTIAL (R88, R89). -/
def chipSequential (c : Config) (k : Chip) : Bool := isSequential c k.sr

/-- The chip's pointer after `n` payload bytes from address `a` (10_state.md R53, assumption log 12). -/
def ptrAfter (a : Half) (n : Nat) : BitVec 15 := BitVec.ofNat 15 (chipLoc a n)

/-- The chip after a READ frame: only its pointer has moved (20_memory.md R80, R88). -/
def chipAfterRead (a : Half) (n : Nat) (k : Chip) : Chip := { k with ptr := ptrAfter a n }

/-- The chip after a WRITE frame (R89). -/
def chipAfterWrite (a : Half) (p : List Byte) (k : Chip) : Chip :=
  { k with mem := k.mem.writeBytes (chipLoc a) 0 p, ptr := ptrAfter a p.length }

/-- The chip after a WRITE frame of which it received `got` bytes: the payload bytes among them are
written, a leading part of the range (R92); the pointer is a free value (assumption log 12). -/
def chipCutWrite (a : Half) (p : List Byte) (got draw : Nat) (k : Chip) : Chip :=
  { k with mem := k.mem.writeBytes (chipLoc a) 0 (p.take (got - 3)),
           ptr := (Config.freeWord draw).setWidth 15 }

/-- The chip after a WRSR frame (R91). -/
def chipAfterWrsr (v : Byte) (k : Chip) : Chip := { k with sr := v }

/-- The chip after a WRSR frame of which it received `got` bytes: the old byte or the new one (R92). -/
def chipCutWrsr (v : Byte) (got : Nat) (k : Chip) : Chip := if 2 ≤ got then chipAfterWrsr v k else k

/-- How many bytes of a frame of length `len` the chip receives in a transfer that fails with the
Transport's count `received`. -/
def receivedOf (len received : Nat) : Nat := min received len

/-- One step of the Transport: still busy; or the frame is completed with the answer `inb`; or it fails and
the answer is `Err`, both leaving the chip and the count of draws as given; or the environment gives the
answer and the change in the chip (10_state.md R56). -/
def transfer (len : Nat) (inb : List Byte) (drawn : Nat) (after : Chip) (cut : Nat → Chip) (cutDrawn : Nat)
    (s : State) : State :=
  match s.fates.head with
  | .busy => s.popFate
  | .complete => ((s.popFate.setChip after).draw drawn).answer (.ok inb)
  | .fail n => ((s.popFate.setChip (cut (receivedOf len n))).draw cutDrawn).answer .err
  | .reply a did => (s.popFate.setChip (s.chip.change did)).answer (a.fit len)

/-- A data frame has one payload byte at least, and where the reference chip receives it, MODE is SEQUENTIAL
(R93). R92 names no mode for a data frame that fails. One of which the chip has received nothing runs in every mode;
that one of which it has received a part is refused in another mode, as R93 says of a frame received, is a
DESIGN CHOICE (assumption log 13). -/
def dataFrameRefusal (p : List Byte) (s : State) : Option Refusal :=
  if p = [] then some .notAFrame
  else if s.fates.head.byChip && !chipSequential s.cfg s.chip then some .dataFrameNotSequential
  else none

/-- FRAME_READ (R88): three bytes the chip does not drive, then the bytes of the array; the filler is
ignored. -/
def execFrameRead (a : Half) (p : List Byte) (s : State) : Result :=
  match dataFrameRefusal p s with
  | some why => .refused why
  | none => .next (transfer (3 + p.length)
      (freeBytes s.draws 3 ++ s.chip.mem.readBytes (chipLoc a) p.length) 3
      (chipAfterRead a p.length s.chip) (fun _ => s.chip) 0 s)

/-- FRAME_WRITE (R89): every byte of the answer is free. -/
def execFrameWrite (a : Half) (p : List Byte) (s : State) : Result :=
  match dataFrameRefusal p s with
  | some why => .refused why
  | none => .next (transfer (3 + p.length) (freeBytes s.draws (3 + p.length)) (3 + p.length)
      (chipAfterWrite a p s.chip) (fun got => chipCutWrite a p got s.draws s.chip) 1 s)

/-- FRAME_RDSR (R90): one free byte, then the status byte; nothing changes. -/
def execFrameRdsr (_d : Byte) (s : State) : Result :=
  .next (transfer 2 (freeBytes s.draws 1 ++ [s.chip.sr]) 1 s.chip (fun _ => s.chip) 0 s)

/-- FRAME_WRSR (R91): all eight bits are stored; every byte of the answer is free. -/
def execFrameWrsr (v : Byte) (s : State) : Result :=
  .next (transfer 2 (freeBytes s.draws 2) 2 (chipAfterWrsr v s.chip) (fun got => chipCutWrsr v got s.chip) 0 s)

end Sys2Proof.Machine
end

