-- ==== Sys2Proof/Machine/StatusOps.lean ====
section
/-! DEFINITION. The status operations (43_status_ops.md R210 to R217). -/

namespace Sys2Proof.Machine

/-- The byte read or written (R217). -/
def statusData (s : State) : Byte := s.srTmp

/-- The two-bit field, zero extended (R217, R214). -/
def modeData (s : State) : Byte := (modeOf s.cfg s.srTmp).setWidth 8

/-- GETSTATUS (R212). -/
def execGetStatus (r : ReqFields) (s : State) : Result :=
  operation 0b010#3 admitAny tPlanRead issueStatus okGet statusData r s

/-- SETSTATUS (R213). -/
def execSetStatus (r : ReqFields) (s : State) : Result :=
  operation 0b011#3 admitAny tPlanWrite issueStatus okSetStatus statusData r s

/-- GETMODE (R214). -/
def execGetMode (r : ReqFields) (s : State) : Result :=
  operation 0b100#3 admitAny tPlanRead issueStatus okGet modeData r s

/-- SETMODE (R215). -/
def execSetMode (r : ReqFields) (s : State) : Result :=
  operation 0b101#3 admitMode tPlanRead issueStatus okSetMode statusData r s

end Sys2Proof.Machine
end

