-- ==== Sys2Proof/Machine/Dispatch.lean ====
section
/-! DEFINITION. The dispatch: one arm per instruction. -/

namespace Sys2Proof.Machine

def exec (i : Instr) (s : State) : Host.Outcome State Fault Refusal :=
  match i with
  | .read r => Sys2Proof.Machine.execRead r s
  | .write r => Sys2Proof.Machine.execWrite r s
  | .getStatus r => Sys2Proof.Machine.execGetStatus r s
  | .setStatus r => Sys2Proof.Machine.execSetStatus r s
  | .getMode r => Sys2Proof.Machine.execGetMode r s
  | .setMode r => Sys2Proof.Machine.execSetMode r s
  | .frameRead a p => Sys2Proof.Machine.execFrameRead a p s
  | .frameWrite a p => Sys2Proof.Machine.execFrameWrite a p s
  | .frameRdsr d => Sys2Proof.Machine.execFrameRdsr d s
  | .frameWrsr v => Sys2Proof.Machine.execFrameWrsr v s

end Sys2Proof.Machine
end

