-- ==== Sys2Proof/Machine/Fetch.lean ====
section
/-! DEFINITION. What the machine does next: the reset edge, the frame on the bus, the offered request, the latched Operation; and how a word is placed where the machine fetches it. -/

namespace Sys2Proof.Machine

/-- The refusal of a bit pattern that is no instruction. -/
def refusalOf : DecodeError → Refusal
  | .reservedOperation => .reservedOperation
  | .reservedMode => .reservedMode
  | .requestTooWide => .requestTooWide
  | .notAFrame => .notAFrame

/-- Run what was decoded, or turn it away by name. -/
def runDecoded (d : Except DecodeError Instr) (s : State) : Action :=
  match d with
  | .ok i => .run i s
  | .error e => .reject (refusalOf e)

/-- The latches as the fields of the Operation they hold (10_state.md R31). -/
def State.latched (s : State) : ReqFields := { data := s.dataL, len := s.lenL, addr := s.addrL }

/-- The state in which an offered request is accepted: REQ has been looked at and the caller's buffer for
it is attached. -/
def State.offer (q : Request) (s : State) : State := s.popRequest.attach q.attach

/-- The instruction whose transition is next (42_sequencer_data_ops.md R170, 10_state.md R41): the frame
in flight if the Transport has not answered, else in IDLE the request the caller offers, else the
Operation in the latches. With nothing offered the block does nothing (60_exceptions.md R247). -/
def fetch (s : State) : Action :=
  match s.st with
  | .idle =>
    match s.requests.head with
    | none => .settle s.popRequest
    | some q => runDecoded (decodeRequest s.cfg q.word) (s.offer q)
  | .waiting =>
    match s.xfer with
    | .sent out => runDecoded (decodeFrame out) s
    | _ => runDecoded (decodeFields s.opL s.latched) s
  | _ => runDecoded (decodeFields s.opL s.latched) s

/-- A transfer that a reset edge finds outstanding is cut off: a Transport that is still busy at that
edge has passed nothing of the frame to the chip (70_reset_and_hazards.md R262, assumption log 7), which is
`Err` with nothing done. -/
def State.cutBusy (s : State) : State :=
  match s.fates.head with
  | .busy => { s with fates := s.fates.pop.push (.reply .err { sr := none, bytes := [], ptr := none }) }
  | _ => s

/-- The chip's side of the frame that a reset edge finds outstanding (R262, 20_memory.md R92). -/
def cutFrame (i : Instr) (s : State) : Result :=
  match i with
  | .frameRead a p => execFrameRead a p s.cutBusy
  | .frameWrite a p => execFrameWrite a p s.cutBusy
  | .frameRdsr d => execFrameRdsr d s.cutBusy
  | .frameWrsr v => execFrameWrsr v s.cutBusy
  | .read _ | .write _ | .getStatus _ | .setStatus _ | .getMode _ | .setMode _ => .refused .notAFrame

/-- The block after a reset edge (R55, R260): IDLE, no bus, no transfer, every other register
unspecified. The caller, its buffer and the chip are not touched (R263). -/
def resetBlock (s : State) : State := s.quiesce.scramble

/-- A reset edge (R260, R262): it wins over every transition, and an outstanding frame is cut off. -/
def resetEdge (s : State) : Action :=
  match s.st, s.xfer with
  | .waiting, .sent out =>
    match decodeFrame out with
    | .error e => .reject (refusalOf e)
    | .ok i =>
      match cutFrame i s with
      | .next t => .settle (resetBlock t)
      | .refused why => .reject why
      | .fault _ => .reject .notAFrame
  | _, _ => .settle (resetBlock s)

/-- What the machine does at this edge. An illegal configuration is refused (41_chunk_planner.md R151). -/
def nextAction (s : State) : Action :=
  if s.cfg.legal then
    if s.rst.head then resetEdge s.tick else fetch s.tick
  else .reject .illegalConfig

/-- A request word of the table's layout (the default widths), laid out for the configured widths. -/
def layoutFor (c : Config) (w : ReqWord) : ReqWord :=
  if w.toNat < 2 ^ reqBits Config.default then
    packRequest c (requestOp Config.default w) (requestFields Config.default w)
  else w

/-- The chip in SEQUENTIAL mode if the frame is a data frame: the block issues one in no other state
(42_sequencer_data_ops.md R178, assumption log 20). -/
def readyFor (out : List Byte) (s : State) : State :=
  match decodeFrame out with
  | .ok (.frameRead _ _) | .ok (.frameWrite _ _) =>
    s.setChip { s.chip with sr := withMode s.cfg s.chip.sr (Mode.code s.cfg .sequential) }
  | _ => s

/-- A request word offered on REQ, or a frame handed to the Transport, so that the very next step runs
it (assumption log 20). -/
def placeCode (c : Code) (s : State) : State :=
  match c with
  | .request w =>
    { s with st := .idle, rst := s.rst.push false, others := s.others.push none,
             requests := s.requests.push (some { word := layoutFor s.cfg w, attach := none }) }
  | .frame out =>
    readyFor out { s with st := .waiting, owner := true, rst := s.rst.push false, fates := s.fates.push .complete,
                          xfer := .sent out }

/-- `placeCode` of the bits of a table row. -/
def placeWord (nbits w : Nat) (s : State) : State := placeCode (tableCode nbits w) s

end Sys2Proof.Machine
end

