-- ==== Sys2Proof/Machine/Ports.lean ====
section
/-! DEFINITION. The outputs of the block toward the caller, functions of its state (10_state.md R41, R42, R55); `own_req` stands in Machine/Ops.lean. -/

namespace Sys2Proof.Machine

/-- `req_ready` (R41). -/
def State.reqReady (s : State) : Bool := s.st == .idle

/-- `rsp_valid` (R42). -/
def State.rspValid (s : State) : Bool := s.st == .complete || s.st == .failed

end Sys2Proof.Machine
end

