-- ==== Sys2Proof/Safety.lean ====
section
/-! DEFINITION. What holds of every state a run reaches (10_state.md R33, 42_sequencer_data_ops.md R189), and what a well-behaved environment is (R190, 70_reset_and_hazards.md R271). -/

namespace Sys2Proof.Machine

/-- The Operation in the latches is READ or WRITE. -/
abbrev State.isData (s : State) : Prop := s.opL = 0b000#3 ∨ s.opL = 0b001#3

/-- The Operation is between T_PLAN and its last answer. -/
abbrev State.inBus (s : State) : Prop := s.st = .issuing ∨ s.st = .waiting

/-- The phase an ownership window starts in (42_sequencer_data_ops.md R172, 43_status_ops.md R211). -/
def State.firstPhase (s : State) : Phase := bif s.opL == 0b011#3 then .wrsr else .rdsr

/-- The frame of the current phase (42_sequencer_data_ops.md R175, 43_status_ops.md R216). -/
def State.frameOut (s : State) : List Byte :=
  match s.phase with
  | .rdsr => rdsrFrame s.cfg
  | .wrsr => wrsrFrame s.srTmp
  | .data => bif s.opL == 0b000#3 then readFrame s.cfg s.curAddr s.chunkLen else writeFrame s.curAddr s.chunkBytes

/-- A buffer in canonical form. -/
def Buffer.wf (b : Buffer) : Bool := b.bytes.wf && b.bytes.below b.size

/-- A chip in canonical form: nothing is listed at 32768 or above (20_memory.md R81). -/
def Chip.wf (k : Chip) : Bool := k.mem.wf && k.mem.below Config.chipSize

/-- Everything the caller will offer carries a buffer in canonical form. -/
def offersWf (f : Feed (Option Request)) : Prop :=
  ∀ q, (some q ∈ f.coming ∨ f.after = some q) → ∀ b, q.attach = some b → b.wf = true

/-- The registers of an accepted READ or WRITE between its chunks (10_state.md R33,
42_sequencer_data_ops.md R189). -/
structure State.Progress (s : State) : Prop where
  /-- The plan has passed: `addr_l + len_l ≤ 32768`, `1 ≤ len_l`. -/
  planned : planCheck s.addrL.toNat s.lenL.toNat = .chunks
  curAddr : s.curAddr.toNat = s.addrL.toNat + s.done.toNat
  remaining : s.done.toNat + s.remaining.toNat = s.lenL.toNat
  some_left : 1 ≤ s.remaining.toNat
  whole_chunks : s.cfg.maxChunk ∣ s.done.toNat

/-- What a transfer in flight looks like: the frame of the current phase, or an answer of its length
(10_state.md R44), whatever it holds (R56). -/
def State.InFlight (s : State) : Prop :=
  s.xfer = .sent s.frameOut ∨ s.xfer = .answered .err ∨
    ∃ inb, s.xfer = .answered (.ok inb) ∧ inb.length = s.frameLen

/-- A status operation on the bus: nothing transferred yet, and a phase that 43_status_ops.md R216 has a
row for. -/
structure State.StatusPhase (s : State) : Prop where
  done : s.done = 0#16
  phase : match s.opL.toNat with
    | 3 => s.phase = .wrsr
    | 5 => s.phase ≠ .data
    | _ => s.phase = .rdsr

/-- The invariant of the block, its buffer and the form of the chip, under every environment: whatever the
Transport answers (10_state.md R56) and whatever other masters do to the chip (70_reset_and_hazards.md R268). -/
structure State.Inv (s : State) : Prop where
  legal : s.cfg.legal = true
  fits : s.latched.fit s.cfg = true
  chipWf : s.chip.wf = true
  bufWf : s.buf.wf = true
  offers : offersWf s.requests
  /-- The latches hold one of the six operations (30_encoding.md R118, R119). -/
  current : s.st ≠ .idle → ∃ i, decodeFields s.opL s.latched = .ok i
  /-- An accepted data operation has a buffer for every byte (70_reset_and_hazards.md R266). -/
  room : s.st ≠ .idle → s.isData → s.lenL.toNat ≤ s.buf.size
  /-- The bus is owned only on the bus, and always while a transfer is outstanding (R38, R189). -/
  owned : s.owner = true → s.inBus
  window : s.st = .waiting → s.owner = true
  /-- `own_req` is high exactly if the last edge it has made is a rise (R38, R43). -/
  edges : s.ownEdges.getLast? = some .rise ↔ s.ownReq = true
  /-- `phase` is the window's first whenever the bus is not owned (R189). -/
  windowStart : s.st = .issuing → s.owner = false → s.phase = s.firstPhase
  progress : s.inBus → s.isData → s.Progress
  /-- The byte the ensure step is about to write has MODE SEQUENTIAL (42_sequencer_data_ops.md R178). -/
  ensured : s.inBus → s.isData → s.phase = .wrsr → isSequential s.cfg s.srTmp = true
  status : s.inBus → ¬ s.isData → s.StatusPhase
  /-- A success has transferred everything (42_sequencer_data_ops.md R182, 43_status_ops.md R216). -/
  completeData : s.st = .complete → s.isData → s.done.toNat = s.lenL.toNat
  completeStatus : s.st = .complete → ¬ s.isData → s.done = 1#16
  /-- A failure has transferred whole chunks (60_exceptions.md R238). -/
  failedData : s.st = .failed → s.isData → s.done.toNat ≤ s.lenL.toNat ∧ s.cfg.maxChunk ∣ s.done.toNat
  failedStatus : s.st = .failed → ¬ s.isData → s.done = 0#16
  /-- `err_kind` is set exactly in FAILED (10_state.md R36). -/
  failed : s.st = .failed → s.errKind ≠ .ok
  clean : s.st ≠ .idle → s.st ≠ .failed → s.errKind = .ok
  flight : s.st = .waiting → s.InFlight
  quiet : s.st ≠ .waiting → s.xfer = .idle

/-- The chip agrees with what the block has been told of it: it is in SEQUENTIAL mode when the data frame is
due (42_sequencer_data_ops.md R178, R191), and an answer that the block has not consumed is its own. -/
structure State.ChipAgrees (s : State) : Prop where
  data : s.inBus → s.isData → s.phase = .data → chipSequential s.cfg s.chip = true
  told : s.st = .waiting → ∀ inb, s.xfer = .answered (.ok inb) → s.phase = .rdsr → rdsrData inb = s.chip.sr
  stored : s.st = .waiting → ∀ inb, s.xfer = .answered (.ok inb) → s.phase = .wrsr → s.chip.sr = s.srTmp

/-- The sole-user assumption of 70_reset_and_hazards.md R268, by name: no agent but this block sends frames to
this chip. (Inside an ownership window none can; this is about the time between windows.) -/
def State.SoleUser (s : State) : Prop := s.others = { coming := [], after := none }

/-- The chip behind the Transport is the reference chip of 20_memory.md R87 to R93 (assumption log 9). -/
def State.ReferenceChip (s : State) : Prop :=
  (∀ f ∈ s.fates.coming, f.isReply = false) ∧ s.fates.after.isReply = false

/-- Every answer is the environment's own (10_state.md R56): no premise on the chip at all. -/
def State.FreeAnswers (s : State) : Prop :=
  (∀ f ∈ s.fates.coming, f.byChip = false) ∧ s.fates.after.byChip = false

/-- The environment keeps its promises promptly from here on: no reset, every grant, result and transfer
at once, no failure (the three fairness assumptions of 42_sequencer_data_ops.md R190, with no delay). -/
structure State.Prompt (s : State) : Prop where
  rst : s.rst = { coming := [], after := false }
  grants : s.grants = { coming := [], after := true }
  takes : s.takes = { coming := [], after := true }
  fates : s.fates = { coming := [], after := .complete }

/-- The environment is fair from here on (R190, 70_reset_and_hazards.md R271): no reset, and after
finitely many delays every grant is given, every transfer answered and every result taken. -/
structure State.Fair (s : State) : Prop where
  rst : (∀ b ∈ s.rst.coming, b = false) ∧ s.rst.after = false
  grants : s.grants.after = true
  takes : s.takes.after = true
  fates : s.fates.after ≠ .busy

/-- `i` is the operation with code `op` and the fields `r` (30_encoding.md R102). -/
def IsOperation (i : Instr) (op : BitVec 3) (r : ReqFields) : Prop :=
  (i = .read r ∧ op = 0b000#3) ∨ (i = .write r ∧ op = 0b001#3) ∨ (i = .getStatus r ∧ op = 0b010#3) ∨
  (i = .setStatus r ∧ op = 0b011#3) ∨ (i = .getMode r ∧ op = 0b100#3) ∨ (i = .setMode r ∧ op = 0b101#3)

/-- READ or WRITE. -/
def IsDataOp (i : Instr) (r : ReqFields) : Prop := i = .read r ∨ i = .write r

/-- The outcome of `k` steps. -/
def runSteps (k : Nat) (s : State) : Result := Host.Core.run Sys2Proof.core k s

end Sys2Proof.Machine
end

