-- ==== Sys2Proof/Certificates/Slice0/Obligations.lean ====
section
/-! DEFINITION. The statements for the provers. -/

open Sys2Proof Sys2Proof.Machine

/-! ### Encodings -/

/-- Every well-formed instruction survives encoding and decoding, under every legal configuration
(30_encoding.md R101, R102, R111 to R114; 40_codec.md R139). -/
def Obligations.EncodeThenDecodeIsIdentity : Prop :=
  ∀ (c : Config) (i : Instr), c.legal = true → i.wellFormed c = true → decode c (encode c i) = .ok i

/-- Every bit pattern that decodes is the encoding of what it decodes to: no bit is dropped. -/
def Obligations.DecodeThenEncodeIsIdentity : Prop :=
  ∀ (c : Config) (k : Code) (i : Instr), c.legal = true → decode c k = .ok i → encode c i = k

/-- What is decoded is well formed; a data frame as long as the block issues them (R111, R112). -/
def Obligations.DecodedInstructionIsWellFormed : Prop :=
  ∀ (c : Config), c.legal = true →
    (∀ (w : ReqWord) (i : Instr), decodeRequest c w = .ok i → i.wellFormed c = true) ∧
    (∀ (out : List Byte) (i : Instr), out.length ≤ 3 + c.maxChunk → decodeFrame out = .ok i → i.wellFormed c = true)

/-- The words of 95_test_vectors.md RQ1, RQ10, RQ3, RQ5, RQ6, RQ8, RQ12 and CO3, CO2, CO15, CO17. How a word of the
table is numbered, and the payload byte 0x00 after an HDR3 header, are the model's (assumption log 19). -/
def Obligations.TableWordsDecodeAsWritten : Prop :=
  decodeTableWord 48 0x00000030102 = some (.read { data := 0x00#8, len := 3#32, addr := 0x0102#32 }) ∧
  decodeTableWord 48 0x100012C0200 = some (.write { data := 0x00#8, len := 300#32, addr := 0x0200#32 }) ∧
  decodeTableWord 48 0x20000000000 = some (.getStatus { data := 0x00#8, len := 0#32, addr := 0#32 }) ∧
  decodeTableWord 48 0x34100000000 = some (.setStatus { data := 0x41#8, len := 0#32, addr := 0#32 }) ∧
  decodeTableWord 48 0x40000000000 = some (.getMode { data := 0x00#8, len := 0#32, addr := 0#32 }) ∧
  decodeTableWord 48 0x50200000000 = some (.setMode { data := 0x02#8, len := 0#32, addr := 0#32 }) ∧
  decodeTableWord 48 0x60000000000 = none ∧
  decodeTableWord 24 0x031234 = some (.frameRead 0x1234#16 [0x00#8]) ∧
  decodeTableWord 24 0x027FFF = some (.frameWrite 0x7FFF#16 [0x00#8]) ∧
  decodeTableWord 16 0x0500 = some (.frameRdsr 0x00#8) ∧
  decodeTableWord 16 0x0140 = some (.frameWrsr 0x40#8)

/-- 30_encoding.md R101: each field of a request word lies where the table puts it, for all widths. -/
def Obligations.RequestFieldsLieWhereTheLayoutSays : Prop :=
  ∀ (c : Config) (w : ReqWord), c.legal = true →
    requestOp c w = w.extractLsb' (c.addrW + c.lenW + 8) 3 ∧
    (requestFields c w).data = w.extractLsb' (c.addrW + c.lenW) 8 ∧
    (requestFields c w).len = (w.extractLsb' c.addrW c.lenW).setWidth 32 ∧
    (requestFields c w).addr = (w.extractLsb' 0 c.addrW).setWidth 32

/-- 30_encoding.md R102, R118: an operation code in range names its operation, the other two none; and
R104, R119: SETMODE with `data[1:0]` = 0b11 decodes to nothing. Under a legal configuration every other code names a
mode (00_scope.md R12; assumption log 32). That the reserved requests are refused where they are decoded is the
model's reading (assumption log 14). -/
def Obligations.OperationCodesNameTheirOperations : Prop :=
  (∀ (op : BitVec 3) (r : ReqFields) (i : Instr),
    decodeFields op r = .ok i ↔ IsOperation i op r ∧ (op = 0b101#3 → r.data.setWidth 2 ≠ 0b11#2)) ∧
  (∀ (c : Config) (m : BitVec 2), c.legal = true → (m ≠ 0b11#2 ↔ m = c.modeByte ∨ m = c.modePage ∨ m = c.modeSeq))

/-- 40_codec.md R139: a byte sequence is a frame exactly if it has the shape of one of the four. -/
def Obligations.FrameDecodingIsExact : Prop :=
  ∀ (out : List Byte),
    (∀ i, decodeFrame out = .ok i ↔
      (∃ (a : Half) (p : List Byte), 1 ≤ p.length ∧ out = [0x03#8, a.extractLsb' 8 8, a.extractLsb' 0 8] ++ p ∧ i = .frameRead a p) ∨
      (∃ (a : Half) (p : List Byte), 1 ≤ p.length ∧ out = [0x02#8, a.extractLsb' 8 8, a.extractLsb' 0 8] ++ p ∧ i = .frameWrite a p) ∨
      (∃ d : Byte, out = [0x05#8, d] ∧ i = .frameRdsr d) ∨ (∃ v : Byte, out = [0x01#8, v] ∧ i = .frameWrsr v)) ∧
    ((∀ i, decodeFrame out ≠ .ok i) → decodeFrame out = .error .notAFrame)

/-- 40_codec.md R131 to R136: the frames, byte by byte, and the bytes taken from an answer. -/
def Obligations.CodecBuildsAndReadsFrames : Prop :=
  ∀ (c : Config) (a : Half) (n : Nat) (v : List Byte) (b : Byte) (inb : List Byte),
    readFrame c a n = [0x03#8, a.extractLsb' 8 8, a.extractLsb' 0 8] ++ List.replicate n c.dummy ∧
    writeFrame a v = [0x02#8, a.extractLsb' 8 8, a.extractLsb' 0 8] ++ v ∧
    rdsrFrame c = [0x05#8, c.dummy] ∧ wrsrFrame b = [0x01#8, b] ∧
    (inb.length = 3 + n → (readData inb n).length = n ∧ ∀ j, j < n → (readData inb n)[j]? = inb[3 + j]?) ∧
    (inb.length = 2 → inb[1]? = some (rdsrData inb))

/-- 30_encoding.md R116: the two helpers; the MODE field is read back as written and the OTHER bits stay;
at the default layout the field is bits 7:6. -/
def Obligations.ModeFieldIsReplacedAlone : Prop :=
  ∀ (c : Config) (s : Byte) (m : BitVec 2), c.legal = true →
    modeOf c s = ((s &&& (0b11#8 <<< c.modeShift)) >>> c.modeShift).setWidth 2 ∧
    withMode c s m = (s &&& ~~~(0b11#8 <<< c.modeShift)) ||| (m.setWidth 8 <<< c.modeShift) ∧
    modeOf c (withMode c s m) = m ∧
    withMode c s m &&& ~~~(0b11#8 <<< c.modeShift) = s &&& ~~~(0b11#8 <<< c.modeShift) ∧
    modeOf Config.default s = s.extractLsb' 6 2 ∧ withMode Config.default s m = m ++ s.extractLsb' 0 6

/-! ### The planner -/

/-- 41_chunk_planner.md R150, R152 to R156: the checks in their order, and the chunks in closed form. -/
def Obligations.PlanIsTheClosedForm : Prop :=
  ∀ (cmd : Command) (a n m : Nat), 1 ≤ m →
    plan cmd a n m =
      if 65536 ≤ n then .error .invalidLength
      else if n = 0 then .ok []
      else if 32768 < a + n then .error .addressRange
      else .ok ((List.range ((n + m - 1) / m)).map fun k => (a + k * m, min m (n - k * m)))

/-- 41_chunk_planner.md R157, R158: the chunks are contiguous from the start address to the end of the
request, do not overlap, sum to the length, are none empty and none too long, and end inside the chip. -/
def Obligations.PlanChunksTileTheRange : Prop :=
  ∀ (cmd : Command) (a n m : Nat) (cs : List (Nat × Nat)), 1 ≤ m → plan cmd a n m = .ok cs →
    (cs.map (·.2)).sum = n ∧
    (∀ p ∈ cs, 1 ≤ p.2 ∧ p.2 ≤ m ∧ p.1 + p.2 ≤ 32768) ∧
    (∀ p, cs.head? = some p → p.1 = a) ∧
    (∀ p, cs.getLast? = some p → p.1 + p.2 = a + n) ∧
    (∀ k p p', cs[k]? = some p → cs[k + 1]? = some p' → p'.1 = p.1 + p.2) ∧
    (∀ (j k : Nat) (p p' : Nat × Nat), j < k → cs[j]? = some p → cs[k]? = some p' → p.1 + p.2 ≤ p'.1)

/-- 41_chunk_planner.md R161, the step of its induction: the chunk whose data frame succeeds is the head
of the plan of what remains, and what the registers then hold is the plan's tail. -/
def Obligations.SequencerConsumesThePlan : Prop :=
  ∀ (i : Instr) (r : ReqFields) (s t : State) (cmd : Command) (inb : List Byte), IsDataOp i r →
    s.cfg.legal = true → s.Progress → s.st = .waiting → s.phase = .data → s.xfer = .answered (.ok inb) →
    exec i s = .next t →
    ∃ rest, plan cmd s.curAddr.toNat s.remaining.toNat s.cfg.maxChunk = .ok ((s.curAddr.toNat, s.chunkLen) :: rest) ∧
      ((t.st = .complete ∧ rest = []) ∨
       (t.st = .issuing ∧ t.phase = .rdsr ∧
         plan cmd t.curAddr.toNat t.remaining.toNat t.cfg.maxChunk = .ok rest))

/-! ### The transitions of the sequencer -/

/-- 42_sequencer_data_ops.md R171: T_ACCEPT of an admitted request, for each of the six operations. Admitted are
a READ or WRITE with a buffer at every index below `len` (70_reset_and_hazards.md R266, 93 U5) and a SETMODE whose
code names a mode (30_encoding.md R119). -/
def Obligations.AcceptLatchesTheRequest : Prop :=
  ∀ (i : Instr) (op : BitVec 3) (r : ReqFields) (s : State), IsOperation i op r → s.st = .idle →
    (IsDataOp i r → r.len.toNat ≤ s.buf.size) →
    (i = .setMode r → r.data.setWidth 2 ≠ 0b11#2) →
    exec i s = .next { s with opL := op, addrL := r.addr, lenL := r.len, dataL := r.data, errKind := .ok,
                              st := .planning }

/-- 42_sequencer_data_ops.md R172: T_PLAN of READ and WRITE, its four outcomes. -/
def Obligations.PlanOfDataOperations : Prop :=
  ∀ (i : Instr) (r : ReqFields) (s : State), IsDataOp i r → s.st = .planning →
    (65536 ≤ s.lenL.toNat →
      exec i s = .next { s with done := 0#16, errKind := .invalidLength, st := .failed }) ∧
    (s.lenL.toNat = 0 → exec i s = .next { s with done := 0#16, st := .complete }) ∧
    (1 ≤ s.lenL.toNat → s.lenL.toNat < 65536 → 32768 < s.addrL.toNat + s.lenL.toNat →
      exec i s = .next { s with done := 0#16, errKind := .addressRange, st := .failed }) ∧
    (1 ≤ s.lenL.toNat → s.addrL.toNat + s.lenL.toNat ≤ 32768 →
      exec i s = .next { s with done := 0#16, curAddr := s.addrL.setWidth 16, remaining := s.lenL.setWidth 16,
                                phase := .rdsr, st := .issuing, ownEdges := s.ownEdges ++ [.rise] })

/-- 43_status_ops.md R211: T_PLAN of the status operations. -/
def Obligations.PlanOfStatusOperations : Prop :=
  ∀ (r : ReqFields) (s : State), s.st = .planning →
    (let t : State := { s with done := 0#16, st := .issuing, ownEdges := s.ownEdges ++ [.rise] }
     exec (.getStatus r) s = .next { t with phase := .rdsr } ∧
     exec (.getMode r) s = .next { t with phase := .rdsr } ∧
     exec (.setMode r) s = .next { t with phase := .rdsr } ∧
     exec (.setStatus r) s = .next { t with srTmp := s.dataL, phase := .wrsr })

/-- 42_sequencer_data_ops.md R173: the block asks for the bus, and T_ACQUIRE or the wait for the grant. -/
def Obligations.AcquireOnGrantElseWait : Prop :=
  ∀ (i : Instr) (op : BitVec 3) (r : ReqFields) (s : State), IsOperation i op r → s.st = .issuing → s.owner = false →
    s.ownReq = true ∧
    (s.grants.head = true → exec i s = .next { s with owner := true, grants := s.grants.pop }) ∧
    (s.grants.head = false → exec i s = .next { s with grants := s.grants.pop })

/-- 42_sequencer_data_ops.md R174, R175: T_ISSUE of READ and WRITE; the bytes of a WRITE chunk are read
from the buffer in this step. -/
def Obligations.IssueOfDataOperations : Prop :=
  ∀ (i : Instr) (r : ReqFields) (s : State), IsDataOp i r → s.st = .issuing → s.owner = true →
    (s.phase = .rdsr → exec i s = .next { s with xfer := .sent [0x05#8, s.cfg.dummy], st := .waiting }) ∧
    (s.phase = .wrsr → exec i s = .next { s with xfer := .sent [0x01#8, s.srTmp], st := .waiting }) ∧
    (s.phase = .data → i = .read r →
      exec i s = .next { s with
        xfer := .sent ([0x03#8, s.curAddr.extractLsb' 8 8, s.curAddr.extractLsb' 0 8] ++
          List.replicate (min s.remaining.toNat s.cfg.maxChunk) s.cfg.dummy), st := .waiting }) ∧
    (s.phase = .data → i = .write r → s.done.toNat + min s.remaining.toNat s.cfg.maxChunk ≤ s.buf.size →
      exec i s = .next { s with
        xfer := .sent ([0x02#8, s.curAddr.extractLsb' 8 8, s.curAddr.extractLsb' 0 8] ++
          (List.range (min s.remaining.toNat s.cfg.maxChunk)).map fun j => s.buf.bytes.read (s.done.toNat + j)),
        st := .waiting })

/-- 43_status_ops.md R216, the frame selection: T_ISSUE of the status operations. -/
def Obligations.IssueOfStatusOperations : Prop :=
  ∀ (i : Instr) (op : BitVec 3) (r : ReqFields) (s : State), IsOperation i op r → ¬ IsDataOp i r → s.st = .issuing →
    s.owner = true →
    (s.phase = .rdsr → exec i s = .next { s with xfer := .sent [0x05#8, s.cfg.dummy], st := .waiting }) ∧
    (s.phase = .wrsr → exec i s = .next { s with xfer := .sent [0x01#8, s.srTmp], st := .waiting })

/-- 42_sequencer_data_ops.md R178: T_OK of the RDSR frame of the ensure step. -/
def Obligations.EnsureStepReadsTheMode : Prop :=
  ∀ (i : Instr) (r : ReqFields) (s : State) (x b : Byte), IsDataOp i r → s.st = .waiting → s.phase = .rdsr →
    s.xfer = .answered (.ok [x, b]) →
    (modeOf s.cfg b = s.cfg.modeSeq →
      exec i s = .next { s with xfer := .idle, srTmp := withMode s.cfg b s.cfg.modeSeq, phase := .data, st := .issuing }) ∧
    (modeOf s.cfg b ≠ s.cfg.modeSeq →
      exec i s = .next { s with xfer := .idle, srTmp := withMode s.cfg b s.cfg.modeSeq, phase := .wrsr, st := .issuing })

/-- 42_sequencer_data_ops.md R179: T_OK of the WRSR frame of the ensure step, whatever the answer holds. -/
def Obligations.EnsureStepWritesTheMode : Prop :=
  ∀ (i : Instr) (r : ReqFields) (s : State) (x y : Byte), IsDataOp i r → s.st = .waiting → s.phase = .wrsr →
    s.xfer = .answered (.ok [x, y]) →
    exec i s = .next { s with xfer := .idle, phase := .data, st := .issuing }

/-- 42_sequencer_data_ops.md R180, R181: T_OK of a data frame. The registers advance by the chunk and the bus is
released, and so `own_req` falls; the Operation completes or asks for the bus for its next chunk (R173; that both
edges fall into this transition: assumption log 33). A READ has stored byte `3 + j` of the answer at `done + j` and
nothing else, a WRITE has stored nothing. -/
def Obligations.DataChunkSuccess : Prop :=
  ∀ (i : Instr) (r : ReqFields) (s : State) (inb : List Byte), IsDataOp i r → s.st = .waiting → s.phase = .data →
    s.xfer = .answered (.ok inb) → inb.length = 3 + min s.remaining.toNat s.cfg.maxChunk →
    s.done.toNat + min s.remaining.toNat s.cfg.maxChunk ≤ s.buf.size → s.buf.bytes.wf = true →
    ∃ m : Memory,
      (let l := min s.remaining.toNat s.cfg.maxChunk
       let t : State := { s with
         xfer := .idle, curAddr := s.curAddr + BitVec.ofNat 16 l, remaining := s.remaining - BitVec.ofNat 16 l,
         done := s.done + BitVec.ofNat 16 l, owner := false, ownEdges := s.ownEdges ++ [.fall],
         buf := { s.buf with bytes := m } }
       (s.remaining.toNat = l → exec i s = .next { t with st := .complete }) ∧
       (s.remaining.toNat ≠ l →
         exec i s = .next { t with phase := .rdsr, st := .issuing, ownEdges := t.ownEdges ++ [.rise] })) ∧
      m.wf = true ∧
      (i = .write r → m = s.buf.bytes) ∧
      (i = .read r →
        (∀ j, j < min s.remaining.toNat s.cfg.maxChunk → some (m.read (s.done.toNat + j)) = inb[3 + j]?) ∧
        (∀ k, (k < s.done.toNat ∨ s.done.toNat + min s.remaining.toNat s.cfg.maxChunk ≤ k) →
          m.read k = s.buf.bytes.read k))

/-- 43_status_ops.md R216, the table of T_OK. -/
def Obligations.StatusAnswersAreTaken : Prop :=
  ∀ (r : ReqFields) (s : State) (x b : Byte), s.st = .waiting → s.xfer = .answered (.ok [x, b]) →
    let t : State := { s with xfer := .idle, done := 1#16, owner := false, ownEdges := s.ownEdges ++ [.fall], st := .complete }
    (s.phase = .rdsr →
      exec (.getStatus r) s = .next { t with srTmp := b } ∧
      exec (.getMode r) s = .next { t with srTmp := b } ∧
      exec (.setMode r) s = .next { s with xfer := .idle, srTmp := withMode s.cfg b (s.dataL.setWidth 2), phase := .wrsr,
                                           st := .issuing }) ∧
    (s.phase = .wrsr →
      exec (.setStatus r) s = .next t ∧ exec (.setMode r) s = .next t)

/-- 42_sequencer_data_ops.md R177, 60_exceptions.md R237: T_ERR, the same for every operation and phase. -/
def Obligations.TransportErrorIsRaised : Prop :=
  ∀ (i : Instr) (op : BitVec 3) (r : ReqFields) (s : State), IsOperation i op r → s.st = .waiting →
    s.xfer = .answered .err →
    exec i s = .next { s with xfer := .idle, owner := false, ownEdges := s.ownEdges ++ [.fall],
                              errKind := .transport, st := .failed }

/-- 42_sequencer_data_ops.md R182, 43_status_ops.md R217: T_REPORT delivers the result word and changes
no register but `st`. -/
def Obligations.ReportDeliversTheResult : Prop :=
  ∀ (i : Instr) (op : BitVec 3) (r : ReqFields) (s : State), IsOperation i op r → s.takes.head = true →
    (s.st = .failed → exec i s = .next { s with st := .idle, takes := s.takes.pop, delivered := s.delivered ++
        [(match s.errKind with | .ok => 0b00#2 | .addressRange => 0b01#2 | .transport => 0b10#2 | .invalidLength => 0b11#2)
          ++ s.done ++ s.done ++ 0x00#8] }) ∧
    (s.st = .complete → exec i s = .next { s with st := .idle, takes := s.takes.pop, delivered := s.delivered ++
        [0b00#2 ++ 0#16 ++ s.done ++
          (match i with
           | .getStatus _ => s.srTmp
           | .setStatus _ => s.srTmp
           | .setMode _ => s.srTmp
           | .getMode _ => (modeOf s.cfg s.srTmp).setWidth 8
           | _ => 0x00#8)] })

/-- 70_reset_and_hazards.md R272: a result that is not taken is held. -/
def Obligations.ResultIsHeldUntilTaken : Prop :=
  ∀ (i : Instr) (op : BitVec 3) (r : ReqFields) (s : State), IsOperation i op r → (s.st = .complete ∨ s.st = .failed) →
    s.takes.head = false → exec i s = .next { s with takes := s.takes.pop }

/-- While a transfer is not answered the block waits, whatever the operation (70_reset_and_hazards.md R271 (b)). -/
def Obligations.BlockWaitsForTheAnswer : Prop :=
  ∀ (i : Instr) (op : BitVec 3) (r : ReqFields) (s : State) (out : List Byte), IsOperation i op r → s.st = .waiting →
    s.xfer = .sent out → exec i s = .next s

/-! ### The frames (the spec's reference chip, R87 to R93: general knowledge in the spec, assumption log 9) -/

/-- 20_memory.md R88 (reference chip, assumption log 9): a READ frame that completes. The answer is three bytes the
chip does not drive, then the bytes of the array; nothing in the chip changes but its pointer. -/
def Obligations.ReadFrameAnswersTheArray : Prop :=
  ∀ (a : Half) (p : List Byte) (s : State), 1 ≤ p.length → modeOf s.cfg s.chip.sr = s.cfg.modeSeq →
    s.fates.head = .complete →
    ∃ (x0 x1 x2 : Byte) (n : Nat) (ptr : BitVec 15),
      exec (.frameRead a p) s = .next { s with
        fates := s.fates.pop, draws := n, chip := { s.chip with ptr := ptr },
        xfer := .answered (.ok ([x0, x1, x2] ++
          (List.range p.length).map fun j => s.chip.mem.read ((a.toNat % 32768 + j) % 32768))) }

/-- 20_memory.md R89 (reference chip, assumption log 9): a WRITE frame that completes stores its payload and nothing
else; every answer byte is free. -/
def Obligations.WriteFrameStoresThePayload : Prop :=
  ∀ (a : Half) (p : List Byte) (s : State), 1 ≤ p.length → p.length ≤ 32768 → modeOf s.cfg s.chip.sr = s.cfg.modeSeq →
    s.fates.head = .complete → s.chip.mem.wf = true →
    ∃ (inb : List Byte) (n : Nat) (ptr : BitVec 15) (m : Memory),
      exec (.frameWrite a p) s = .next { s with
        fates := s.fates.pop, draws := n, chip := { s.chip with mem := m, ptr := ptr }, xfer := .answered (.ok inb) } ∧
      inb.length = 3 + p.length ∧ m.wf = true ∧
      (∀ j, j < p.length → some (m.read ((a.toNat % 32768 + j) % 32768)) = p[j]?) ∧
      (∀ b, (∀ j, j < p.length → b ≠ (a.toNat % 32768 + j) % 32768) → m.read b = s.chip.mem.read b)

/-- 20_memory.md R90, R91 (reference chip, assumption log 9): RDSR answers the status byte and changes nothing; WRSR
stores all eight bits. -/
def Obligations.StatusFramesReadAndWriteTheRegister : Prop :=
  ∀ (d v : Byte) (s : State), s.fates.head = .complete →
    (∃ (x0 : Byte) (n : Nat), exec (.frameRdsr d) s = .next { s with
        fates := s.fates.pop, draws := n, xfer := .answered (.ok [x0, s.chip.sr]) }) ∧
    (∃ (x0 x1 : Byte) (n : Nat), exec (.frameWrsr v) s = .next { s with
        fates := s.fates.pop, draws := n, chip := { s.chip with sr := v }, xfer := .answered (.ok [x0, x1]) })

/-- 20_memory.md R92 (reference chip, assumption log 9): a transfer that fails. Reads change nothing; of a WRITE a
leading part of the payload is stored; a WRSR leaves the old byte or the new one; the answer is `Err`. In another
mode than SEQUENTIAL a data frame of which the chip has received nothing fails in the same way (assumption log 13).
-/
def Obligations.FailedFrameLeavesALeadingPart : Prop :=
  ∀ (a : Half) (p : List Byte) (d v : Byte) (n : Nat) (s : State), s.fates.head = .fail n →
    exec (.frameRdsr d) s = .next { s with fates := s.fates.pop, xfer := .answered .err } ∧
    (exec (.frameWrsr v) s = .next { s with fates := s.fates.pop, xfer := .answered .err } ∨
     exec (.frameWrsr v) s = .next { s with fates := s.fates.pop, chip := { s.chip with sr := v }, xfer := .answered .err }) ∧
    (1 ≤ p.length → p.length ≤ 32768 → (modeOf s.cfg s.chip.sr = s.cfg.modeSeq ∨ n = 0) → s.chip.mem.wf = true →
      exec (.frameRead a p) s = .next { s with fates := s.fates.pop, xfer := .answered .err } ∧
      ∃ (k dr : Nat) (ptr : BitVec 15) (m : Memory), k = min (n - 3) p.length ∧
        exec (.frameWrite a p) s = .next { s with
          fates := s.fates.pop, draws := dr, chip := { s.chip with mem := m, ptr := ptr }, xfer := .answered .err } ∧
        m.wf = true ∧
        (∀ j, j < k → some (m.read ((a.toNat % 32768 + j) % 32768)) = p[j]?) ∧
        (∀ b, (∀ j, j < k → b ≠ (a.toNat % 32768 + j) % 32768) → m.read b = s.chip.mem.read b))

/-- A Transport that is still busy changes nothing (10_state.md R44): the frame stays in flight. -/
def Obligations.BusyTransportChangesNothing : Prop :=
  ∀ (a : Half) (p : List Byte) (d v : Byte) (s : State), s.fates.head = .busy →
    exec (.frameRdsr d) s = .next { s with fates := s.fates.pop } ∧
    exec (.frameWrsr v) s = .next { s with fates := s.fates.pop } ∧
    (1 ≤ p.length →
      exec (.frameRead a p) s = .next { s with fates := s.fates.pop } ∧
      exec (.frameWrite a p) s = .next { s with fates := s.fates.pop })

/-- 10_state.md R56, R44: the Transport's answer is a free input. Whatever the frame and the chip, any `Ok(in)` as
long as the frame, and `Err`, can be what the block is given; what becomes of the chip is the environment's too. -/
def Obligations.TransportMayAnswerAnything : Prop :=
  ∀ (out : List Byte) (i : Instr) (s : State) (a : Answer) (did : ChipChange), decodeFrame out = .ok i →
    s.fates.head = .reply a did → (∀ inb, a = .ok inb → inb.length = out.length) →
    exec i s = .next { s with fates := s.fates.pop, chip := s.chip.change did, xfer := .answered a }

/-- 20_memory.md R93: what the reference chip (assumption log 9) gives no meaning is refused, by name; that a
single-byte data frame in another mode is refused too, and one of which the chip has received a part before it fails,
is the model's choice (assumption log 13). -/
def Obligations.ChipRefusesWhatHasNoMeaning : Prop :=
  ∀ (a : Half) (p : List Byte) (s : State),
    (1 ≤ p.length → modeOf s.cfg s.chip.sr ≠ s.cfg.modeSeq → (s.fates.head = .complete ∨ ∃ n, s.fates.head = .fail (n + 1)) →
      exec (.frameRead a p) s = .refused .dataFrameNotSequential ∧
      exec (.frameWrite a p) s = .refused .dataFrameNotSequential) ∧
    (exec (.frameRead a []) s = .refused .notAFrame ∧ exec (.frameWrite a []) s = .refused .notAFrame) ∧
    (∀ out, s.cfg.legal = true → s.rst.head = false → s.st = .waiting → s.xfer = .sent out →
      (∀ i, decodeFrame out ≠ .ok i) → step s = .refused .notAFrame)

/-! ### One step -/

/-- A step runs the decoded instruction: in IDLE the offered request (with the buffer attached and the
offer consumed), in WAITING with a frame not answered that frame, else the Operation in the latches
(10_state.md R41, 42_sequencer_data_ops.md R170; the order of the agents is the model's, assumption log 2, 3).
Before it, outside an ownership window, another master's frames may have reached the chip
(70_reset_and_hazards.md R268). -/
def Obligations.StepRunsTheDecodedInstruction : Prop :=
  ∀ (s : State) (i : Instr), s.cfg.legal = true → s.rst.head = false →
    (∀ q, s.st = .idle → s.requests.head = some q → decode s.cfg (.request q.word) = .ok i →
      step s = exec i { s with rst := s.rst.pop, chip := s.edgeChip, others := if s.owner then s.others else s.others.pop,
                               requests := s.requests.pop, buf := q.attach.getD s.buf }) ∧
    (∀ out, s.st = .waiting → s.xfer = .sent out → decode s.cfg (.frame out) = .ok i →
      step s = exec i { s with rst := s.rst.pop, chip := s.edgeChip,
                               others := if s.owner then s.others else s.others.pop }) ∧
    (s.st ≠ .idle → (s.st = .waiting → ∀ out, s.xfer ≠ .sent out) →
      decodeFields s.opL { data := s.dataL, len := s.lenL, addr := s.addrL } = .ok i →
      step s = exec i { s with rst := s.rst.pop, chip := s.edgeChip,
                               others := if s.owner then s.others else s.others.pop })

/-- 30_encoding.md R118, R119: a request with a reserved operation code, or a SETMODE with `data[1:0]` = 0b11, is
refused (how: assumption log 14). -/
def Obligations.ReservedRequestsAreRefused : Prop :=
  ∀ (s : State) (q : Request), s.cfg.legal = true → s.rst.head = false → s.st = .idle → s.requests.head = some q →
    q.word.toNat < 2 ^ reqBits s.cfg →
    ((requestOp s.cfg q.word = 0b110#3 ∨ requestOp s.cfg q.word = 0b111#3) → step s = .refused .reservedOperation) ∧
    (requestOp s.cfg q.word = 0b101#3 →
      (requestFields s.cfg q.word).data.setWidth 2 = 0b11#2 → step s = .refused .reservedMode)

/-- 70_reset_and_hazards.md R266, 93_implementation_defined.md U5: READ and WRITE are refused exactly when the
buffer is shorter than `len`, whatever the plan. -/
def Obligations.ShortBufferIsRefused : Prop :=
  ∀ (i : Instr) (r : ReqFields) (s : State), IsDataOp i r → s.st = .idle →
    (exec i s = .refused .bufferTooShort ↔ s.buf.size < r.len.toNat)

/-- 41_chunk_planner.md R151, 00_scope.md R9: a configuration with MAX_CHUNK = 0 is refused (in `step`, not in
`exec`: assumption log 26). -/
def Obligations.ZeroMaxChunkIsRefused : Prop :=
  ∀ (s : State), s.cfg.maxChunk = 0 → step s = .refused .illegalConfig

/-- IDLE with nothing offered: the block does nothing (60_exceptions.md R247); only the inputs move (and, outside a
window, what another master has done to the chip: 70_reset_and_hazards.md R268). -/
def Obligations.IdleBlockDoesNothing : Prop :=
  ∀ (s : State), s.cfg.legal = true → s.rst.head = false → s.st = .idle → s.requests.head = none →
    step s = .next { s with rst := s.rst.pop, requests := s.requests.pop, chip := s.edgeChip,
                            others := if s.owner then s.others else s.others.pop }

/-- 70_reset_and_hazards.md R260, R262, R263: a reset edge with no frame in flight (assumption log 6, 7). The block
is IDLE, owns no bus, has no transfer; `own_req` falls if it was high; the buffer, the chip and the results
delivered are untouched. Nothing is said of the registers it leaves unspecified. -/
def Obligations.ResetEdgeResetsTheBlock : Prop :=
  ∀ (s : State), s.cfg.legal = true → s.rst.head = true → (s.st ≠ .waiting ∨ ∀ out, s.xfer ≠ .sent out) →
    ∃ t, step s = .next t ∧ t.st = .idle ∧ t.owner = false ∧ t.xfer = .idle ∧
      t.reqReady = true ∧ t.rspValid = false ∧ t.ownReq = false ∧
      t.cfg = s.cfg ∧ (s.owner = true ∨ s.others.head = none → t.chip = s.chip) ∧ t.buf = s.buf ∧
      t.delivered = s.delivered ∧ t.requests = s.requests ∧ t.takes = s.takes ∧ t.grants = s.grants ∧
      t.ownEdges = (if s.st = .issuing ∨ s.owner = true then s.ownEdges ++ [.fall] else s.ownEdges) ∧
      t.fates = s.fates ∧ t.rst = s.rst.pop ∧ t.others = (if s.owner then s.others else s.others.pop) ∧
      t.addrL.toNat < 2 ^ s.cfg.addrW ∧ t.lenL.toNat < 2 ^ s.cfg.lenW

/-- 70_reset_and_hazards.md R262 with 20_memory.md R92: a reset edge with a frame in flight, any of the four. No
result is produced and the bus is dropped, `own_req` with it. Where the reference chip stands behind the Transport
(assumption log 9), RDSR and READ have changed neither array nor status byte, WRSR leaves the old status byte or the
new one and of a WRITE a leading part of the payload is stored. That the Transport is reset with the block and the
frame is cut is the model's reading (assumption log 7). -/
def Obligations.ResetCutsTheFrameInFlight : Prop :=
  ∀ (s : State) (out : List Byte) (i : Instr), s.cfg.legal = true → s.rst.head = true → s.st = .waiting →
    s.owner = true → s.xfer = .sent out → decodeFrame out = .ok i →
    ((∃ a p, i = .frameRead a p ∨ i = .frameWrite a p) →
      modeOf s.cfg s.chip.sr = s.cfg.modeSeq ∨ s.fates.head.byChip = false) →
    ∃ t, step s = .next t ∧ t.st = .idle ∧ t.owner = false ∧ t.xfer = .idle ∧ t.cfg = s.cfg ∧
      t.ownEdges = s.ownEdges ++ [.fall] ∧ t.delivered = s.delivered ∧ t.buf = s.buf ∧
      (∀ a did, s.fates.head = .reply a did → t.chip = s.chip.change did) ∧
      (s.fates.head.isReply = false →
        (∀ d, i = .frameRdsr d → t.chip = s.chip) ∧
        (∀ a p, i = .frameRead a p → t.chip.mem = s.chip.mem ∧ t.chip.sr = s.chip.sr) ∧
        (∀ v, i = .frameWrsr v → t.chip.mem = s.chip.mem ∧ (t.chip.sr = s.chip.sr ∨ t.chip.sr = v)) ∧
        (∀ a p, i = .frameWrite a p → p.length ≤ 32768 → s.chip.mem.wf = true →
          t.chip.sr = s.chip.sr ∧
          ∃ k, k ≤ p.length ∧
            (∀ j, j < k → some (t.chip.mem.read ((a.toNat % 32768 + j) % 32768)) = p[j]?) ∧
            (∀ b, (∀ j, j < k → b ≠ (a.toNat % 32768 + j) % 32768) → t.chip.mem.read b = s.chip.mem.read b)))

/-- 10_state.md R55: the values the spec gives for reset. -/
def Obligations.ResetStateIsIdle : Prop :=
  State.reset.st = .idle ∧ State.reset.owner = false ∧ State.reset.xfer = .idle ∧
  State.reset.reqReady = true ∧ State.reset.rspValid = false ∧ State.reset.ownReq = false ∧
  State.reset.cfg.maxChunk = 128 ∧ State.reset.cfg.addrW = 16 ∧ State.reset.cfg.lenW = 16

/-! ### Frames of the meanings: what stays -/

/-- What an operation's transition leaves alone: the configuration, the chip, the inputs it does not look
at, the latches outside T_ACCEPT, the progress registers, the bus and `err_kind` in the states whose
transitions do not write them, the buffer but for the chunk a READ stores. -/
def Obligations.OperationsLeaveTheRestAlone : Prop :=
  ∀ (i : Instr) (op : BitVec 3) (r : ReqFields) (s t : State), IsOperation i op r → exec i s = .next t →
    t.cfg = s.cfg ∧ t.chip = s.chip ∧ t.requests = s.requests ∧ t.fates = s.fates ∧ t.rst = s.rst ∧ t.draws = s.draws ∧
    t.others = s.others ∧
    (s.st ≠ .idle → t.opL = s.opL ∧ t.addrL = s.addrL ∧ t.lenL = s.lenL ∧ t.dataL = s.dataL) ∧
    (¬ IsDataOp i r → t.curAddr = s.curAddr ∧ t.remaining = s.remaining ∧ t.buf = s.buf) ∧
    (s.st ≠ .planning → s.st ≠ .waiting →
      t.curAddr = s.curAddr ∧ t.remaining = s.remaining ∧ t.done = s.done ∧ t.phase = s.phase ∧ t.srTmp = s.srTmp ∧
      t.ownEdges = s.ownEdges) ∧
    (s.st ≠ .issuing → s.st ≠ .waiting → t.owner = s.owner ∧ t.xfer = s.xfer) ∧
    (s.st ≠ .idle → s.st ≠ .planning → s.st ≠ .waiting → t.errKind = s.errKind) ∧
    (s.st ≠ .complete → s.st ≠ .failed → t.delivered = s.delivered ∧ t.takes = s.takes) ∧
    (s.st ≠ .issuing → t.grants = s.grants) ∧
    t.buf.size = s.buf.size ∧
    (i ≠ .read r ∨ s.st ≠ .waiting ∨ s.phase ≠ .data → t.buf = s.buf) ∧
    (s.buf.bytes.wf = true → ∀ k, (k < s.done.toNat ∨ s.done.toNat + min s.remaining.toNat s.cfg.maxChunk ≤ k) →
      t.buf.bytes.read k = s.buf.bytes.read k)

/-- What a frame leaves alone: every register of the block, the caller's buffer and, in the reference chip
(assumption log 9), every byte but those at the addresses the payload is stored to and the status byte but for
WRSR; where the environment gives the answer, it gives the change in the chip as well. -/
def Obligations.FramesLeaveTheRestAlone : Prop :=
  ∀ (i : Instr) (s t : State), (∀ op r, ¬ IsOperation i op r) → exec i s = .next t →
    t.cfg = s.cfg ∧ t.st = s.st ∧ t.owner = s.owner ∧ t.opL = s.opL ∧ t.addrL = s.addrL ∧ t.lenL = s.lenL ∧
    t.dataL = s.dataL ∧ t.curAddr = s.curAddr ∧ t.remaining = s.remaining ∧ t.done = s.done ∧ t.phase = s.phase ∧
    t.srTmp = s.srTmp ∧ t.errKind = s.errKind ∧ t.buf = s.buf ∧ t.delivered = s.delivered ∧
    t.ownEdges = s.ownEdges ∧ t.requests = s.requests ∧ t.takes = s.takes ∧ t.grants = s.grants ∧ t.rst = s.rst ∧ t.others = s.others ∧
    t.fates = s.fates.pop ∧
    (∀ a did, s.fates.head = .reply a did → t.chip = s.chip.change did) ∧
    (s.fates.head.isReply = false →
      ((∀ v, i ≠ .frameWrsr v) → t.chip.sr = s.chip.sr) ∧
      (∀ a p, i = .frameWrite a p → s.chip.mem.wf = true →
        ∀ b, (∀ j, j < p.length → b ≠ chipLoc a j) → t.chip.mem.read b = s.chip.mem.read b) ∧
      ((∀ a p, i ≠ .frameWrite a p) → t.chip.mem = s.chip.mem))

/-! ### Rules about the whole machine -/

/-- 10_state.md R39: no transition writes a configuration parameter. -/
def Obligations.ConfigurationIsNeverWritten : Prop :=
  ∀ (s t : State), step s = .next t → t.cfg = s.cfg

/-- 00_scope.md R17: the block never touches the chip except through a transfer; and 70_reset_and_hazards.md
R268: another master that can reach the chip changes it between ownership windows only, "same window: impossible".
Where none does, the chip is as before (the sole-user assumption, `State.SoleUser`). -/
def Obligations.ChipChangesOnlyThroughTransfers : Prop :=
  ∀ (s t : State), step s = .next t → (s.st ≠ .waiting ∨ ∀ out, s.xfer ≠ .sent out) →
    (s.owner = true ∨ s.others.head = none → t.chip = s.chip) ∧
    (∀ c, s.owner = false → s.others.head = some c → t.chip = s.chip.change c) ∧
    (s.SoleUser → t.SoleUser ∧ t.chip = s.chip)

/-- 10_state.md R45, 20_memory.md R85: the buffer's bytes change only in T_OK of a READ data frame; in IDLE
the caller may attach another buffer with its request. -/
def Obligations.BufferChangesOnlyWhereAReadChunkLands : Prop :=
  ∀ (s t : State), step s = .next t → t.buf ≠ s.buf →
    (s.st = .idle ∧ ∃ q b, s.requests.head = some q ∧ q.attach = some b ∧ t.buf = b) ∨
    (s.st = .waiting ∧ s.opL = 0b000#3 ∧ s.phase = .data ∧ ∃ inb, s.xfer = .answered (.ok inb))

/-- 42_sequencer_data_ops.md R174: a frame is never issued with `owner = 0`. -/
def Obligations.FramesAreIssuedInsideAWindow : Prop :=
  ∀ (s t : State) (out : List Byte), step s = .next t → t.xfer = .sent out → s.xfer ≠ .sent out →
    s.st = .issuing ∧ s.owner = true ∧ t.st = .waiting ∧ t.owner = true ∧ t.ownReq = true

/-- 42_sequencer_data_ops.md R181: without a reset, `owner` is cleared, and so `own_req` falls, at exactly three
places: T_OK of a data frame, T_OK of the last frame of a status operation, T_ERR. That the fall at a data frame after
which another chunk is due is an edge inside that transition is the model's reading (assumption log 33). -/
def Obligations.BusIsReleasedAtThreePlaces : Prop :=
  ∀ (s t : State), s.Inv → s.rst.head = false → step s = .next t →
    let release := s.st = .waiting ∧
      (s.xfer = .answered .err ∨
       (∃ inb, s.xfer = .answered (.ok inb)) ∧
        ((s.isData ∧ s.phase = .data) ∨ (¬ s.isData ∧ (s.opL = 0b101#3 → s.phase = .wrsr))))
    (s.owner = true → (t.owner = false ↔ release)) ∧
    ((∃ later, t.ownEdges = s.ownEdges ++ .fall :: later) ↔ release)

/-- 60_exceptions.md R239, 42_sequencer_data_ops.md R185: after a failure the only way on is the report. Until the
result is taken no register of the block, nor the buffer or the transfer channel, changes; when it is taken
only `st` does, and `err_kind` and `done` are what the result carries. (Outside a window another master may
change the chip: 70_reset_and_hazards.md R268.) -/
def Obligations.FailureIsLeftOnlyByTheReport : Prop :=
  ∀ (s t : State), s.Inv → s.st = .failed → s.rst.head = false → step s = .next t →
    s.owner = false ∧ s.xfer = .idle ∧ (s.others.head = none → t.chip = s.chip) ∧
    (s.takes.head = false →
      t = { s with rst := s.rst.pop, takes := s.takes.pop, others := s.others.pop, chip := s.edgeChip }) ∧
    (s.takes.head = true →
      t = { s with rst := s.rst.pop, takes := s.takes.pop, others := s.others.pop, chip := s.edgeChip, st := .idle,
                   delivered := s.delivered ++ [s.errKind.code ++ s.done ++ s.done ++ 0x00#8] })

/-- 40_codec.md R138, 42_sequencer_data_ops.md R191, 10_state.md R44: every data frame in flight addresses
existing bytes only and is no longer than a chunk allows; header byte 1 has bit 7 clear. Where the chip agrees
with what the block was told, which every step keeps for the reference chip even if other masters use it
between windows (`Obligations.StepKeepsTheInvariant`), it finds the chip in SEQUENTIAL mode. -/
def Obligations.DataFramesStayInsideTheChip : Prop :=
  ∀ (s : State) (out : List Byte) (a : Half) (p : List Byte), s.Inv → s.st = .waiting → s.xfer = .sent out →
    (decodeFrame out = .ok (.frameRead a p) ∨ decodeFrame out = .ok (.frameWrite a p)) →
    1 ≤ p.length ∧ p.length ≤ s.cfg.maxChunk ∧ a.toNat + p.length ≤ 32768 ∧ a.getLsbD 15 = false ∧
    out.length ≤ 3 + min s.cfg.maxChunk 32768 ∧
    (s.ChipAgrees → modeOf s.cfg s.chip.sr = s.cfg.modeSeq)

/-- The machine right after reset meets the invariant and the premises on the chip. -/
def Obligations.ResetMeetsTheInvariant : Prop :=
  State.reset.Inv ∧ State.reset.ChipAgrees ∧ State.reset.ReferenceChip ∧ State.reset.SoleUser

/-- From every state that meets the invariant, a step gives one that meets it, whatever the Transport answers and
whatever other masters do (10_state.md R33, R56, 42_sequencer_data_ops.md R189). With the reference chip (assumption
log 9) the chip goes on agreeing with the block, though other masters use it between windows: the mode is read again
and corrected in every window (70_reset_and_hazards.md R268). -/
def Obligations.StepKeepsTheInvariant : Prop :=
  ∀ (s t : State), s.Inv → step s = .next t →
    t.Inv ∧ (s.ReferenceChip → s.ChipAgrees → t.ReferenceChip ∧ t.ChipAgrees)

/-- Once a request is accepted nothing stops the machine, where the chip agrees with what the block was told or the
answer is the environment's own; in IDLE only a request that is turned away does. -/
def Obligations.AcceptedOperationNeverStops : Prop :=
  ∀ (s : State), s.Inv →
    (s.st ≠ .idle → (s.ChipAgrees ∨ s.fates.head.byChip = false) → ∃ t, step s = .next t) ∧
    (s.st = .idle → (∃ t, step s = .next t) ∨
      ∃ q why, s.requests.head = some q ∧ step s = .refused why ∧
        (why = .reservedOperation ∨ why = .reservedMode ∨ why = .requestTooWide ∨ why = .bufferTooShort))

/-- 42_sequencer_data_ops.md R190: under a fair environment an accepted Operation reaches T_REPORT, and exactly one
result is delivered. It holds for every answer the Transport may give (10_state.md R56), and for the reference chip
with other masters between windows. -/
def Obligations.AcceptedOperationReachesItsReport : Prop :=
  ∀ (s : State), s.Inv → s.Fair → (s.FreeAnswers ∨ s.ReferenceChip ∧ s.ChipAgrees) → s.st ≠ .idle →
    ∃ (k : Nat) (t : State) (w : RspWord), runSteps k s = .next t ∧ t.st = .idle ∧ t.delivered = s.delivered ++ [w]

/-! ### Whole operations (a prompt environment: no delay, no failure; the spec's reference chip, assumption
log 9, and the sole-user premise of 70_reset_and_hazards.md R268, assumption log 23) -/

/-- 42_sequencer_data_ops.md R183 (with the reference chip, assumption log 9, and the block its sole user, log 23):
READ. The buffer receives the chip's bytes, in order; the array is unchanged; the status byte has at most its MODE
field replaced; the result is (OK, 0, N). There is one ownership window per chunk: `own_req` rises and falls
ceil(N / MAX_CHUNK) times (R181). -/
def Obligations.ReadReturnsTheChipsBytes : Prop :=
  ∀ (s : State) (q : Request) (r : ReqFields), s.Inv → s.Prompt → s.SoleUser → s.st = .idle →
    s.requests.head = some q →
    decode s.cfg (.request q.word) = .ok (.read r) → 1 ≤ r.len.toNat → r.addr.toNat + r.len.toNat ≤ 32768 →
    r.len.toNat ≤ (q.attach.getD s.buf).size →
    ∃ (k : Nat) (t : State), runSteps k s = .next t ∧ t.Inv ∧ t.Prompt ∧ t.SoleUser ∧ t.st = .idle ∧ t.cfg = s.cfg ∧
      t.requests = s.requests.pop ∧ t.delivered = s.delivered ++ [0b00#2 ++ 0#16 ++ BitVec.ofNat 16 r.len.toNat ++ 0x00#8] ∧
      t.ownEdges = s.ownEdges ++
        (List.replicate ((r.len.toNat + s.cfg.maxChunk - 1) / s.cfg.maxChunk) [OwnEdge.rise, .fall]).flatten ∧
      t.chip.mem = s.chip.mem ∧
      t.chip.sr = (if modeOf s.cfg s.chip.sr = s.cfg.modeSeq then s.chip.sr else withMode s.cfg s.chip.sr s.cfg.modeSeq) ∧
      t.buf.size = (q.attach.getD s.buf).size ∧
      (∀ j, j < r.len.toNat → t.buf.bytes.read j = s.chip.mem.read (r.addr.toNat + j)) ∧
      (∀ j, r.len.toNat ≤ j → t.buf.bytes.read j = (q.attach.getD s.buf).bytes.read j)

/-- 42_sequencer_data_ops.md R184 (with the reference chip, assumption log 9, and the block its sole user, log 23):
WRITE. The chip receives the buffer's bytes, in order; every other byte of the array and the buffer are unchanged;
the result is (OK, 0, N). There is one ownership window per chunk (R181). -/
def Obligations.WriteStoresTheBuffersBytes : Prop :=
  ∀ (s : State) (q : Request) (r : ReqFields), s.Inv → s.Prompt → s.SoleUser → s.st = .idle →
    s.requests.head = some q →
    decode s.cfg (.request q.word) = .ok (.write r) → 1 ≤ r.len.toNat → r.addr.toNat + r.len.toNat ≤ 32768 →
    r.len.toNat ≤ (q.attach.getD s.buf).size →
    ∃ (k : Nat) (t : State), runSteps k s = .next t ∧ t.Inv ∧ t.Prompt ∧ t.SoleUser ∧ t.st = .idle ∧ t.cfg = s.cfg ∧
      t.requests = s.requests.pop ∧ t.delivered = s.delivered ++ [0b00#2 ++ 0#16 ++ BitVec.ofNat 16 r.len.toNat ++ 0x00#8] ∧
      t.ownEdges = s.ownEdges ++
        (List.replicate ((r.len.toNat + s.cfg.maxChunk - 1) / s.cfg.maxChunk) [OwnEdge.rise, .fall]).flatten ∧
      t.buf = q.attach.getD s.buf ∧
      t.chip.sr = (if modeOf s.cfg s.chip.sr = s.cfg.modeSeq then s.chip.sr else withMode s.cfg s.chip.sr s.cfg.modeSeq) ∧
      (∀ j, j < r.len.toNat → t.chip.mem.read (r.addr.toNat + j) = (q.attach.getD s.buf).bytes.read j) ∧
      (∀ b, (b < r.addr.toNat ∨ r.addr.toNat + r.len.toNat ≤ b) → t.chip.mem.read b = s.chip.mem.read b)

/-- The source's round trip (20_memory.md, section 7; 95_test_vectors.md S6): a WRITE of N bytes at A, then
a READ of N bytes at A into another buffer: both are accepted and both succeed, and the READ's buffer then holds
the bytes written, in order, and is otherwise as it was (with the reference chip, assumption log 9, and the block its
sole user, log 23). -/
def Obligations.WriteThenReadReturnsTheBytes : Prop :=
  ∀ (s : State) (q q' : Request) (rest : List (Option Request)) (r r' : ReqFields), s.Inv → s.Prompt →
    s.SoleUser → s.st = .idle →
    s.requests.coming = some q :: some q' :: rest →
    decode s.cfg (.request q.word) = .ok (.write r) → decode s.cfg (.request q'.word) = .ok (.read r') →
    r'.addr = r.addr → r'.len = r.len → 1 ≤ r.len.toNat → r.addr.toNat + r.len.toNat ≤ 32768 →
    r.len.toNat ≤ (q.attach.getD s.buf).size → r.len.toNat ≤ (q'.attach.getD (q.attach.getD s.buf)).size →
    ∃ (k : Nat) (t : State), runSteps k s = .next t ∧ t.st = .idle ∧ t.requests.coming = rest ∧
      t.delivered = s.delivered ++ [0b00#2 ++ 0#16 ++ BitVec.ofNat 16 r.len.toNat ++ 0x00#8,
                                    0b00#2 ++ 0#16 ++ BitVec.ofNat 16 r.len.toNat ++ 0x00#8] ∧
      t.buf.size = (q'.attach.getD (q.attach.getD s.buf)).size ∧
      (∀ j, j < r.len.toNat → t.buf.bytes.read j = (q.attach.getD s.buf).bytes.read j) ∧
      (∀ j, r.len.toNat ≤ j → t.buf.bytes.read j = (q'.attach.getD (q.attach.getD s.buf)).bytes.read j)

/-- 41_chunk_planner.md R153, R162 and 60_exceptions.md R231: a READ or WRITE of length 0 succeeds and one
that leaves the chip or is too long fails, three steps each, with no bus traffic, no buffer access and no change in
the chip (with a buffer of `len` bytes, as 70_reset_and_hazards.md R266 asks of every READ and WRITE; the block is
the chip's sole user, assumption log 23). -/
def Obligations.EmptyAndFailedPlansTouchNothing : Prop :=
  ∀ (s : State) (q : Request) (i : Instr) (r : ReqFields), s.Inv → s.Prompt → s.SoleUser → s.st = .idle →
    s.requests.head = some q →
    decode s.cfg (.request q.word) = .ok i → IsDataOp i r → r.len.toNat ≤ (q.attach.getD s.buf).size →
    (r.len.toNat = 0 →
      ∃ t, runSteps 3 s = .next t ∧ t.st = .idle ∧ t.chip = s.chip ∧ t.xfer = .idle ∧ t.owner = false ∧
        t.buf = q.attach.getD s.buf ∧ t.grants = s.grants ∧ t.ownEdges = s.ownEdges ∧ t.delivered = s.delivered ++ [0#42]) ∧
    (1 ≤ r.len.toNat → r.len.toNat < 65536 → 32768 < r.addr.toNat + r.len.toNat →
      ∃ t, runSteps 3 s = .next t ∧ t.st = .idle ∧ t.chip = s.chip ∧ t.xfer = .idle ∧ t.owner = false ∧
        t.buf = q.attach.getD s.buf ∧ t.grants = s.grants ∧ t.ownEdges = s.ownEdges ∧ t.delivered = s.delivered ++ [0b01#2 ++ 0#40]) ∧
    (65536 ≤ r.len.toNat →
      ∃ t, runSteps 3 s = .next t ∧ t.st = .idle ∧ t.chip = s.chip ∧ t.xfer = .idle ∧ t.owner = false ∧
        t.buf = q.attach.getD s.buf ∧ t.grants = s.grants ∧ t.ownEdges = s.ownEdges ∧ t.delivered = s.delivered ++ [0b11#2 ++ 0#40])

/-- 43_status_ops.md R212 to R215, R217, R218: the four status operations from request to result (with the reference
chip, assumption log 9, and the block its sole user, log 23). Each has one ownership window. -/
def Obligations.StatusOperationsEndToEnd : Prop :=
  ∀ (s : State) (q : Request) (i : Instr) (r : ReqFields), s.Inv → s.Prompt → s.SoleUser → s.st = .idle →
    s.requests.head = some q →
    decode s.cfg (.request q.word) = .ok i →
    (i = .getStatus r → ∃ t, runSteps 7 s = .next t ∧ t.st = .idle ∧ t.chip = s.chip ∧ t.ownEdges = s.ownEdges ++ [.rise, .fall] ∧
      t.delivered = s.delivered ++ [0b00#2 ++ 0#16 ++ 1#16 ++ s.chip.sr]) ∧
    (i = .setStatus r → ∃ t, runSteps 7 s = .next t ∧ t.st = .idle ∧ t.chip = { s.chip with sr := r.data } ∧ t.ownEdges = s.ownEdges ++ [.rise, .fall] ∧
      t.delivered = s.delivered ++ [0b00#2 ++ 0#16 ++ 1#16 ++ r.data]) ∧
    (i = .getMode r → ∃ t, runSteps 7 s = .next t ∧ t.st = .idle ∧ t.chip = s.chip ∧ t.ownEdges = s.ownEdges ++ [.rise, .fall] ∧
      t.delivered = s.delivered ++ [0b00#2 ++ 0#16 ++ 1#16 ++ (modeOf s.cfg s.chip.sr).setWidth 8]) ∧
    (i = .setMode r → ∃ t, runSteps 10 s = .next t ∧ t.st = .idle ∧
      t.chip = { s.chip with sr := withMode s.cfg s.chip.sr (r.data.setWidth 2) } ∧ t.ownEdges = s.ownEdges ++ [.rise, .fall] ∧
      t.delivered = s.delivered ++ [0b00#2 ++ 0#16 ++ 1#16 ++ withMode s.cfg s.chip.sr (r.data.setWidth 2)])

/-- 42_sequencer_data_ops.md R177, R182, R185 and 60_exceptions.md R238: a transport failure ends the
Operation with the bytes of the chunks before it as both offset and count; no further frame is issued, the
buffer stays as it is, and the chip where the block is its sole user (70_reset_and_hazards.md R268, assumption log
23). -/
def Obligations.TransportFailureReportsWholeChunks : Prop :=
  ∀ (s : State), s.Inv → s.st = .waiting → s.xfer = .answered .err → s.rst.head = false → s.rst.pop.head = false →
    s.takes.head = true →
    ∃ t, runSteps 2 s = .next t ∧ t.st = .idle ∧ t.owner = false ∧ t.xfer = .idle ∧ (s.SoleUser → t.chip = s.chip) ∧
      t.ownEdges = s.ownEdges ++ [.fall] ∧ t.buf = s.buf ∧
      t.delivered = s.delivered ++ [0b10#2 ++ s.done ++ s.done ++ 0x00#8] ∧
      (s.isData → s.cfg.maxChunk ∣ s.done.toNat ∧ s.done.toNat < s.lenL.toNat)
end

