-- ==== Sys2Proof/Laws/Decode.lean ====
section
/-! SUPPORT. The decoder's cases, the frames the builders make, and the arithmetic of a request word's fields. -/

namespace Sys2Proof

/-- The six operations and the two ways a field pattern is rejected. -/
theorem decodeFields_ok {op : BitVec 3} {r : ReqFields} {i : Instr} (h : decodeFields op r = .ok i) :
    (op = 0b000#3 ∧ i = .read r) ∨ (op = 0b001#3 ∧ i = .write r) ∨ (op = 0b010#3 ∧ i = .getStatus r) ∨
    (op = 0b011#3 ∧ i = .setStatus r) ∨ (op = 0b100#3 ∧ i = .getMode r) ∨
    (op = 0b101#3 ∧ i = .setMode r ∧ modeReserved (r.data.setWidth 2) = false) := by
  unfold decodeFields at h
  have hop : op = BitVec.ofNat 3 op.toNat := by simp
  split at h
  all_goals first
    | (rename_i h0; rw [h0] at hop; cases h; simp [hop])
    | (rename_i h0; rw [h0] at hop; split at h <;> cases h; simp_all)
    | cases h

/-- A request word that decodes fits the configured width and is the operation its fields name. -/
theorem decodeRequest_ok {c : Config} {w : ReqWord} {i : Instr} (h : decodeRequest c w = .ok i) :
    w.toNat < 2 ^ reqBits c ∧ decodeFields (requestOp c w) (requestFields c w) = .ok i := by
  unfold decodeRequest at h
  split at h
  · exact ⟨‹_›, h⟩
  · cases h

theorem bitField_lt (v lo width : Nat) : bitField v lo width < 2 ^ width := Nat.mod_lt _ (by positivity)

/-- The low field of `x * 2 ^ k + y`. -/
theorem bitField_zero_add {x y k : Nat} (h : y < 2 ^ k) : bitField (x * 2 ^ k + y) 0 k = y := by
  rw [bitField, pow_zero, Nat.div_one, Nat.add_comm, Nat.add_mul_mod_self_right, Nat.mod_eq_of_lt h]

/-- A field above the low one. -/
theorem bitField_add (x y k lo width : Nat) (h : y < 2 ^ k) :
    bitField (x * 2 ^ k + y) (k + lo) width = bitField x lo width := by
  unfold bitField
  rw [pow_add, ← Nat.div_div_eq_div_mul, show x * 2 ^ k + y = y + 2 ^ k * x by ring,
    Nat.add_mul_div_left _ _ (by positivity), Nat.div_eq_of_lt h, Nat.zero_add]

/-- The fields a decoded word yields fit the configured widths. -/
theorem requestFields_fit (c : Config) (hl : c.lenW ≤ 32) (ha : c.addrW ≤ 32) (w : ReqWord) :
    (requestFields c w).fit c = true := by
  have h32 : ∀ k v : Nat, k ≤ 32 → v < 2 ^ k → (BitVec.ofNat 32 v).toNat < 2 ^ k := fun k v hk hv => by
    rw [BitVec.toNat_ofNat]
    exact lt_of_le_of_lt (Nat.mod_le _ _) hv
  rw [ReqFields.fit, Bool.and_eq_true]
  exact ⟨decide_eq_true (h32 _ _ hl (bitField_lt ..)), decide_eq_true (h32 _ _ ha (bitField_lt ..))⟩

@[simp] theorem commandOf_read : commandOf 0x03#8 = some .read := rfl
@[simp] theorem commandOf_write : commandOf 0x02#8 = some .write := rfl
@[simp] theorem commandOf_rdsr : commandOf 0x05#8 = some .readStatus := rfl
@[simp] theorem commandOf_wrsr : commandOf 0x01#8 = some .writeStatus := rfl

/-- High byte and low byte make the address (40_codec.md R131). -/
theorem header_address (a : Half) : (a.extractLsb' 8 8 ++ a.extractLsb' 0 8 : BitVec 16) = a := by
  apply BitVec.eq_of_getLsbD_eq
  intro i hi
  simp only [BitVec.getLsbD_append, BitVec.getLsbD_extractLsb']
  by_cases h : i < 8
  · simp [h]
  · have h8 : i - 8 < 8 := by omega
    simp [h, h8, show 8 + (i - 8) = i by omega]

namespace Machine

@[simp] theorem readFrame_length (c : Config) (a : Half) (n : Nat) : (readFrame c a n).length = 3 + n := by
  simp [readFrame, encodeHeader]; omega

@[simp] theorem writeFrame_length (a : Half) (v : List Byte) : (writeFrame a v).length = 3 + v.length := by
  simp [writeFrame, encodeHeader]; omega

@[simp] theorem rdsrFrame_length (c : Config) : (rdsrFrame c).length = 2 := rfl

@[simp] theorem wrsrFrame_length (v : Byte) : (wrsrFrame v).length = 2 := rfl

theorem decodeFrame_readFrame (c : Config) (a : Half) {n : Nat} (h : 1 ≤ n) :
    decodeFrame (readFrame c a n) = .ok (.frameRead a (List.replicate n c.dummy)) := by
  obtain ⟨m, rfl⟩ := Nat.exists_eq_add_of_le' h
  simp [readFrame, encodeHeader, decodeFrame, Command.opcode, List.replicate_succ, header_address]

theorem decodeFrame_writeFrame (a : Half) {v : List Byte} (h : v ≠ []) :
    decodeFrame (writeFrame a v) = .ok (.frameWrite a v) := by
  obtain ⟨d, ds, rfl⟩ := List.exists_cons_of_ne_nil h
  simp [writeFrame, encodeHeader, decodeFrame, Command.opcode, header_address]

theorem decodeFrame_rdsrFrame (c : Config) : decodeFrame (rdsrFrame c) = .ok (.frameRdsr c.dummy) := rfl

theorem decodeFrame_wrsrFrame (v : Byte) : decodeFrame (wrsrFrame v) = .ok (.frameWrsr v) := rfl

end Machine

end Sys2Proof
end

