-- ==== Sys2Proof/Laws/Memory.lean ====
section
/-! SUPPORT. Memory: read after write, and the canonical form that every operation keeps. -/

namespace Sys2Proof.Machine

@[simp] theorem Memory.read_nil (a : Nat) : Memory.read [] a = 0#8 := rfl

@[simp] theorem Memory.above_nil (a : Nat) : Memory.above a [] = true := rfl

@[simp] theorem Memory.above_cons (a k : Nat) (v : Byte) (m : Memory) :
    Memory.above a ((k, v) :: m) = true ↔ a < k ∧ Memory.above a m = true := by
  simp [Memory.above]

@[simp] theorem Memory.wf_nil : Memory.wf [] = true := rfl

@[simp] theorem Memory.wf_cons (k : Nat) (v : Byte) (m : Memory) :
    Memory.wf ((k, v) :: m) = true ↔ v ≠ 0#8 ∧ Memory.above k m = true ∧ Memory.wf m = true := by
  simp [Memory.wf, and_assoc]

@[simp] theorem Memory.below_nil (n : Nat) : Memory.below n [] = true := rfl

@[simp] theorem Memory.below_cons (n k : Nat) (v : Byte) (m : Memory) :
    Memory.below n ((k, v) :: m) = true ↔ k < n ∧ Memory.below n m = true := by
  simp [Memory.below]

theorem Memory.above_trans {a b : Nat} (h : a < b) : ∀ {m : Memory}, Memory.above b m = true → Memory.above a m = true
  | [], _ => rfl
  | (k, v) :: m, hb => by
    rw [Memory.above_cons] at hb ⊢
    exact ⟨by omega, Memory.above_trans h hb.2⟩

/-- An address at or below a bound that all entries exceed is unlisted. -/
theorem Memory.read_of_above {b a : Nat} (h : a ≤ b) : ∀ {m : Memory}, Memory.above b m = true → m.read a = 0#8
  | [], _ => rfl
  | (k, v) :: m, hb => by
    rw [Memory.above_cons] at hb
    have hk : a ≠ k := by omega
    simpa [Memory.read, hk] using Memory.read_of_above h hb.2

theorem Memory.above_write {b a : Nat} {v : Byte} (h : b < a) :
    ∀ {m : Memory}, Memory.above b m = true → Memory.above b (m.write a v) = true
  | [], _ => by by_cases hv : v = 0#8 <;> simp [Memory.write, hv, h]
  | (k, u) :: m, hb => by
    have hb' := (Memory.above_cons ..).1 hb
    unfold Memory.write
    split_ifs
    · exact hb
    · exact (Memory.above_cons ..).2 ⟨h, hb⟩
    · exact hb'.2
    · exact (Memory.above_cons ..).2 ⟨h, hb'.2⟩
    · exact (Memory.above_cons ..).2 ⟨hb'.1, Memory.above_write h hb'.2⟩

/-- A write keeps the canonical form. -/
theorem Memory.wf_write (a : Nat) (v : Byte) : ∀ {m : Memory}, m.wf = true → (m.write a v).wf = true
  | [], _ => by by_cases hv : v = 0#8 <;> simp [Memory.write, hv]
  | (k, u) :: m, h => by
    have h' := (Memory.wf_cons ..).1 h
    unfold Memory.write
    split_ifs with h1 h2 h3 h4
    · exact h
    · exact (Memory.wf_cons ..).2 ⟨h2, (Memory.above_cons ..).2 ⟨h1, Memory.above_trans h1 h'.2.1⟩, h⟩
    · exact h'.2.2
    · exact (Memory.wf_cons ..).2 ⟨h4, h3 ▸ h'.2.1, h'.2.2⟩
    · exact (Memory.wf_cons ..).2 ⟨h'.1, Memory.above_write (by omega) h'.2.1, Memory.wf_write a v h'.2.2⟩

/-- A write below a bound stays below it. -/
theorem Memory.below_write {n a : Nat} {v : Byte} (h : a < n) :
    ∀ {m : Memory}, m.below n = true → (m.write a v).below n = true
  | [], _ => by by_cases hv : v = 0#8 <;> simp [Memory.write, hv, h]
  | (k, u) :: m, hb => by
    have hb' := (Memory.below_cons ..).1 hb
    unfold Memory.write
    split_ifs
    · exact hb
    · exact (Memory.below_cons ..).2 ⟨h, hb⟩
    · exact hb'.2
    · exact (Memory.below_cons ..).2 ⟨h, hb'.2⟩
    · exact (Memory.below_cons ..).2 ⟨hb'.1, Memory.below_write h hb'.2⟩

/-- Read after write. -/
theorem Memory.read_write (a : Nat) (v : Byte) (b : Nat) :
    ∀ {m : Memory}, m.wf = true → (m.write a v).read b = if b = a then v else m.read b
  | [], _ => by
    by_cases hv : v = 0#8 <;> by_cases hb : b = a <;> simp [Memory.write, Memory.read, hv, hb]
  | (k, u) :: m, h => by
    have h' := (Memory.wf_cons ..).1 h
    unfold Memory.write
    split_ifs with h1 h2 h3 h4 h5
    · have : Memory.read ((k, u) :: m) a = 0#8 :=
        Memory.read_of_above (b := a) le_rfl
          ((Memory.above_cons ..).2 ⟨h1, Memory.above_trans h1 h'.2.1⟩)
      simp [h2, h3, this]
    · rfl
    · simp [Memory.read, h4]
    · simp [Memory.read, h4]
    · subst h5; subst_vars; exact Memory.read_of_above le_rfl h'.2.1
    · subst_vars
      have : b ≠ k := by assumption
      simp [Memory.read, this]
    · subst_vars; simp [Memory.read]
    · subst_vars
      have : b ≠ k := by assumption
      simp [Memory.read, this]
    · subst_vars
      have hk : b ≠ k := by assumption
      simp [Memory.read, hk, Memory.read_write b v b h'.2.2]
    · have hb : b ≠ a := by assumption
      simp [Memory.read, Memory.read_write a v b h'.2.2, hb]

/-- Two memories in canonical form that read alike are the same data. -/
theorem Memory.ext_read : ∀ {m m' : Memory}, m.wf = true → m'.wf = true → (∀ a, m.read a = m'.read a) → m = m'
  | [], [], _, _, _ => rfl
  | [], (k, v) :: m', _, h', e => by
    have h'' := (Memory.wf_cons ..).1 h'
    exact absurd (by simpa [Memory.read] using (e k).symm) h''.1
  | (k, v) :: m, [], h, _, e => by
    have h'' := (Memory.wf_cons ..).1 h
    exact absurd (by simpa [Memory.read] using e k) h''.1
  | (k, v) :: m, (k', v') :: m', h, h', e => by
    have h1 := (Memory.wf_cons ..).1 h
    have h2 := (Memory.wf_cons ..).1 h'
    have hk : k = k' := by
      rcases Nat.lt_trichotomy k k' with hlt | heq | hgt
      · have := e k
        have hz : Memory.read ((k', v') :: m') k = 0#8 :=
          Memory.read_of_above le_rfl ((Memory.above_cons ..).2 ⟨hlt, Memory.above_trans hlt h2.2.1⟩)
        rw [hz] at this
        exact absurd (by simpa [Memory.read] using this) h1.1
      · exact heq
      · have := e k'
        have hz : Memory.read ((k, v) :: m) k' = 0#8 :=
          Memory.read_of_above le_rfl ((Memory.above_cons ..).2 ⟨hgt, Memory.above_trans hgt h1.2.1⟩)
        rw [hz] at this
        exact absurd (by simpa [Memory.read] using this.symm) h2.1
    subst hk
    have hv : v = v' := by simpa [Memory.read] using e k
    subst hv
    have : m = m' := Memory.ext_read h1.2.2 h2.2.2 fun a => by
      by_cases ha : a = k
      · subst ha
        rw [Memory.read_of_above le_rfl h1.2.1, Memory.read_of_above le_rfl h2.2.1]
      · simpa [Memory.read, ha] using e a
    rw [this]

/-! ### Ranges -/

@[simp] theorem Memory.readBytes_length (m : Memory) (loc : Nat → Nat) (n : Nat) :
    (m.readBytes loc n).length = n := by simp [Memory.readBytes]

theorem Memory.readBytes_getElem (m : Memory) (loc : Nat → Nat) (n j : Nat) (h : j < (m.readBytes loc n).length) :
    (m.readBytes loc n)[j] = m.read (loc j) := by simp [Memory.readBytes]

@[simp] theorem Memory.writeBytes_nil (m : Memory) (loc : Nat → Nat) (j : Nat) : m.writeBytes loc j [] = m := rfl

@[simp] theorem Memory.writeBytes_cons (m : Memory) (loc : Nat → Nat) (j : Nat) (v : Byte) (vs : List Byte) :
    m.writeBytes loc j (v :: vs) = (m.write (loc j) v).writeBytes loc (j + 1) vs := rfl

theorem Memory.wf_writeBytes (loc : Nat → Nat) : ∀ (vs : List Byte) (j : Nat) {m : Memory},
    m.wf = true → (m.writeBytes loc j vs).wf = true
  | [], _, _, h => h
  | v :: vs, j, _, h => Memory.wf_writeBytes loc vs (j + 1) (Memory.wf_write (loc j) v h)

theorem Memory.below_writeBytes {n : Nat} (loc : Nat → Nat) : ∀ (vs : List Byte) (j : Nat) {m : Memory},
    (∀ i, j ≤ i → i < j + vs.length → loc i < n) → m.below n = true → (m.writeBytes loc j vs).below n = true
  | [], _, _, _, h => h
  | v :: vs, j, _, hl, h => by
    refine Memory.below_writeBytes loc vs (j + 1) (fun i h1 h2 => hl i (by omega) (by simp at *; omega)) ?_
    exact Memory.below_write (hl j le_rfl (by simp)) h

/-- An address no byte is written to reads as before. -/
theorem Memory.read_writeBytes_of_ne (loc : Nat → Nat) (b : Nat) : ∀ (vs : List Byte) (j : Nat) {m : Memory},
    m.wf = true → (∀ i, j ≤ i → i < j + vs.length → b ≠ loc i) → (m.writeBytes loc j vs).read b = m.read b
  | [], _, _, _, _ => rfl
  | v :: vs, j, m, h, hb => by
    rw [Memory.writeBytes_cons, Memory.read_writeBytes_of_ne loc b vs (j + 1) (Memory.wf_write _ _ h)
      (fun i h1 h2 => hb i (by omega) (by simp at *; omega)), Memory.read_write _ _ _ h,
      if_neg (hb j le_rfl (by simp))]

/-- Byte `i` of a range reads back, if no two bytes of the range share an address. -/
theorem Memory.read_writeBytes (loc : Nat → Nat) : ∀ (vs : List Byte) (j : Nat) {m : Memory}, m.wf = true →
    (∀ i k, j ≤ i → i < k → k < j + vs.length → loc i ≠ loc k) →
    ∀ (i : Nat) (hi : i < vs.length), (m.writeBytes loc j vs).read (loc (j + i)) = vs[i]
  | [], _, _, _, _, i, hi => absurd hi (by simp)
  | v :: vs, j, m, h, hinj, 0, _ => by
    rw [Nat.add_zero, Memory.writeBytes_cons, Memory.read_writeBytes_of_ne loc _ vs (j + 1) (Memory.wf_write _ _ h)
      (fun i h1 h2 => hinj j i le_rfl (by omega) (by simp at *; omega)), Memory.read_write _ _ _ h]
    simp
  | v :: vs, j, m, h, hinj, i + 1, hi => by
    have := Memory.read_writeBytes loc vs (j + 1) (Memory.wf_write (loc j) v h)
      (fun a b h1 h2 h3 => hinj a b (by omega) h2 (by simp at *; omega)) i (by simpa using hi)
    rw [Memory.writeBytes_cons, show j + (i + 1) = j + 1 + i by omega, this]
    simp

/-! ### The two address maps -/

theorem chipLoc_lt (a : Half) (j : Nat) : chipLoc a j < Config.chipSize := Nat.mod_lt _ (by decide)

theorem bufLoc_injective (d : Nat) {i k : Nat} (h : i < k) : bufLoc d i ≠ bufLoc d k := by
  simp [bufLoc]; omega

/-- Within the array (`a + n ≤ 32768`, 41_chunk_planner.md R154) payload byte `j` is at address `a + j`. -/
theorem chipLoc_of_le {a : Half} {n j : Nat} (h : a.toNat + n ≤ Config.chipSize) (hj : j < n) :
    chipLoc a j = a.toNat + j := by
  unfold chipLoc Config.chipSize at *
  have h15 : (a.setWidth 15).toNat = a.toNat := by
    rw [BitVec.toNat_setWidth]; exact Nat.mod_eq_of_lt (by omega)
  rw [h15]; exact Nat.mod_eq_of_lt (by omega)

/-- A frame of at most 32768 bytes touches no address twice. -/
theorem chipLoc_injective (a : Half) {i k : Nat} (h : i < k) (hk : k < Config.chipSize) : chipLoc a i ≠ chipLoc a k := by
  unfold chipLoc Config.chipSize at *; omega

end Sys2Proof.Machine
end

