-- ==== Sys2Proof/Laws/State.lean ====
section
/-! SUPPORT. One lemma per field per update of the state. -/

namespace Sys2Proof.Machine

/-! `State.tick` -/

@[simp] theorem State.tick_cfg (s : State) : (State.tick s).cfg = s.cfg := rfl
@[simp] theorem State.tick_st (s : State) : (State.tick s).st = s.st := rfl
@[simp] theorem State.tick_owner (s : State) : (State.tick s).owner = s.owner := rfl
@[simp] theorem State.tick_opL (s : State) : (State.tick s).opL = s.opL := rfl
@[simp] theorem State.tick_addrL (s : State) : (State.tick s).addrL = s.addrL := rfl
@[simp] theorem State.tick_lenL (s : State) : (State.tick s).lenL = s.lenL := rfl
@[simp] theorem State.tick_dataL (s : State) : (State.tick s).dataL = s.dataL := rfl
@[simp] theorem State.tick_curAddr (s : State) : (State.tick s).curAddr = s.curAddr := rfl
@[simp] theorem State.tick_remaining (s : State) : (State.tick s).remaining = s.remaining := rfl
@[simp] theorem State.tick_done (s : State) : (State.tick s).done = s.done := rfl
@[simp] theorem State.tick_phase (s : State) : (State.tick s).phase = s.phase := rfl
@[simp] theorem State.tick_srTmp (s : State) : (State.tick s).srTmp = s.srTmp := rfl
@[simp] theorem State.tick_errKind (s : State) : (State.tick s).errKind = s.errKind := rfl
@[simp] theorem State.tick_xfer (s : State) : (State.tick s).xfer = s.xfer := rfl
@[simp] theorem State.tick_chip (s : State) : (State.tick s).chip = s.edgeChip := rfl
@[simp] theorem State.tick_others (s : State) : (State.tick s).others = if s.owner then s.others else s.others.pop := rfl
@[simp] theorem State.tick_buf (s : State) : (State.tick s).buf = s.buf := rfl
@[simp] theorem State.tick_requests (s : State) : (State.tick s).requests = s.requests := rfl
@[simp] theorem State.tick_takes (s : State) : (State.tick s).takes = s.takes := rfl
@[simp] theorem State.tick_grants (s : State) : (State.tick s).grants = s.grants := rfl
@[simp] theorem State.tick_fates (s : State) : (State.tick s).fates = s.fates := rfl
@[simp] theorem State.tick_rst (s : State) : (State.tick s).rst = s.rst.pop := rfl
@[simp] theorem State.tick_ownEdges (s : State) : (State.tick s).ownEdges = s.ownEdges := rfl
@[simp] theorem State.tick_delivered (s : State) : (State.tick s).delivered = s.delivered := rfl
@[simp] theorem State.tick_draws (s : State) : (State.tick s).draws = s.draws := rfl

/-- Inside an ownership window nobody else reaches the chip (70_reset_and_hazards.md R268). -/
theorem State.edgeChip_of_owner {s : State} (h : s.owner = true) : s.edgeChip = s.chip := if_pos h

theorem State.edgeChip_of_none {s : State} (h : s.others.head = none) : s.edgeChip = s.chip := by
  unfold State.edgeChip
  rw [h]
  split <;> rfl

/-! `State.popGrant` -/

@[simp] theorem State.popGrant_cfg (s : State) : (State.popGrant s).cfg = s.cfg := rfl
@[simp] theorem State.popGrant_st (s : State) : (State.popGrant s).st = s.st := rfl
@[simp] theorem State.popGrant_owner (s : State) : (State.popGrant s).owner = s.owner := rfl
@[simp] theorem State.popGrant_opL (s : State) : (State.popGrant s).opL = s.opL := rfl
@[simp] theorem State.popGrant_addrL (s : State) : (State.popGrant s).addrL = s.addrL := rfl
@[simp] theorem State.popGrant_lenL (s : State) : (State.popGrant s).lenL = s.lenL := rfl
@[simp] theorem State.popGrant_dataL (s : State) : (State.popGrant s).dataL = s.dataL := rfl
@[simp] theorem State.popGrant_curAddr (s : State) : (State.popGrant s).curAddr = s.curAddr := rfl
@[simp] theorem State.popGrant_remaining (s : State) : (State.popGrant s).remaining = s.remaining := rfl
@[simp] theorem State.popGrant_done (s : State) : (State.popGrant s).done = s.done := rfl
@[simp] theorem State.popGrant_phase (s : State) : (State.popGrant s).phase = s.phase := rfl
@[simp] theorem State.popGrant_srTmp (s : State) : (State.popGrant s).srTmp = s.srTmp := rfl
@[simp] theorem State.popGrant_errKind (s : State) : (State.popGrant s).errKind = s.errKind := rfl
@[simp] theorem State.popGrant_xfer (s : State) : (State.popGrant s).xfer = s.xfer := rfl
@[simp] theorem State.popGrant_chip (s : State) : (State.popGrant s).chip = s.chip := rfl
@[simp] theorem State.popGrant_buf (s : State) : (State.popGrant s).buf = s.buf := rfl
@[simp] theorem State.popGrant_requests (s : State) : (State.popGrant s).requests = s.requests := rfl
@[simp] theorem State.popGrant_takes (s : State) : (State.popGrant s).takes = s.takes := rfl
@[simp] theorem State.popGrant_grants (s : State) : (State.popGrant s).grants = s.grants.pop := rfl
@[simp] theorem State.popGrant_fates (s : State) : (State.popGrant s).fates = s.fates := rfl
@[simp] theorem State.popGrant_rst (s : State) : (State.popGrant s).rst = s.rst := rfl
@[simp] theorem State.popGrant_others (s : State) : (State.popGrant s).others = s.others := rfl
@[simp] theorem State.popGrant_ownEdges (s : State) : (State.popGrant s).ownEdges = s.ownEdges := rfl
@[simp] theorem State.popGrant_delivered (s : State) : (State.popGrant s).delivered = s.delivered := rfl
@[simp] theorem State.popGrant_draws (s : State) : (State.popGrant s).draws = s.draws := rfl

/-! `State.popTake` -/

@[simp] theorem State.popTake_cfg (s : State) : (State.popTake s).cfg = s.cfg := rfl
@[simp] theorem State.popTake_st (s : State) : (State.popTake s).st = s.st := rfl
@[simp] theorem State.popTake_owner (s : State) : (State.popTake s).owner = s.owner := rfl
@[simp] theorem State.popTake_opL (s : State) : (State.popTake s).opL = s.opL := rfl
@[simp] theorem State.popTake_addrL (s : State) : (State.popTake s).addrL = s.addrL := rfl
@[simp] theorem State.popTake_lenL (s : State) : (State.popTake s).lenL = s.lenL := rfl
@[simp] theorem State.popTake_dataL (s : State) : (State.popTake s).dataL = s.dataL := rfl
@[simp] theorem State.popTake_curAddr (s : State) : (State.popTake s).curAddr = s.curAddr := rfl
@[simp] theorem State.popTake_remaining (s : State) : (State.popTake s).remaining = s.remaining := rfl
@[simp] theorem State.popTake_done (s : State) : (State.popTake s).done = s.done := rfl
@[simp] theorem State.popTake_phase (s : State) : (State.popTake s).phase = s.phase := rfl
@[simp] theorem State.popTake_srTmp (s : State) : (State.popTake s).srTmp = s.srTmp := rfl
@[simp] theorem State.popTake_errKind (s : State) : (State.popTake s).errKind = s.errKind := rfl
@[simp] theorem State.popTake_xfer (s : State) : (State.popTake s).xfer = s.xfer := rfl
@[simp] theorem State.popTake_chip (s : State) : (State.popTake s).chip = s.chip := rfl
@[simp] theorem State.popTake_buf (s : State) : (State.popTake s).buf = s.buf := rfl
@[simp] theorem State.popTake_requests (s : State) : (State.popTake s).requests = s.requests := rfl
@[simp] theorem State.popTake_takes (s : State) : (State.popTake s).takes = s.takes.pop := rfl
@[simp] theorem State.popTake_grants (s : State) : (State.popTake s).grants = s.grants := rfl
@[simp] theorem State.popTake_fates (s : State) : (State.popTake s).fates = s.fates := rfl
@[simp] theorem State.popTake_rst (s : State) : (State.popTake s).rst = s.rst := rfl
@[simp] theorem State.popTake_others (s : State) : (State.popTake s).others = s.others := rfl
@[simp] theorem State.popTake_ownEdges (s : State) : (State.popTake s).ownEdges = s.ownEdges := rfl
@[simp] theorem State.popTake_delivered (s : State) : (State.popTake s).delivered = s.delivered := rfl
@[simp] theorem State.popTake_draws (s : State) : (State.popTake s).draws = s.draws := rfl

/-! `State.popFate` -/

@[simp] theorem State.popFate_cfg (s : State) : (State.popFate s).cfg = s.cfg := rfl
@[simp] theorem State.popFate_st (s : State) : (State.popFate s).st = s.st := rfl
@[simp] theorem State.popFate_owner (s : State) : (State.popFate s).owner = s.owner := rfl
@[simp] theorem State.popFate_opL (s : State) : (State.popFate s).opL = s.opL := rfl
@[simp] theorem State.popFate_addrL (s : State) : (State.popFate s).addrL = s.addrL := rfl
@[simp] theorem State.popFate_lenL (s : State) : (State.popFate s).lenL = s.lenL := rfl
@[simp] theorem State.popFate_dataL (s : State) : (State.popFate s).dataL = s.dataL := rfl
@[simp] theorem State.popFate_curAddr (s : State) : (State.popFate s).curAddr = s.curAddr := rfl
@[simp] theorem State.popFate_remaining (s : State) : (State.popFate s).remaining = s.remaining := rfl
@[simp] theorem State.popFate_done (s : State) : (State.popFate s).done = s.done := rfl
@[simp] theorem State.popFate_phase (s : State) : (State.popFate s).phase = s.phase := rfl
@[simp] theorem State.popFate_srTmp (s : State) : (State.popFate s).srTmp = s.srTmp := rfl
@[simp] theorem State.popFate_errKind (s : State) : (State.popFate s).errKind = s.errKind := rfl
@[simp] theorem State.popFate_xfer (s : State) : (State.popFate s).xfer = s.xfer := rfl
@[simp] theorem State.popFate_chip (s : State) : (State.popFate s).chip = s.chip := rfl
@[simp] theorem State.popFate_buf (s : State) : (State.popFate s).buf = s.buf := rfl
@[simp] theorem State.popFate_requests (s : State) : (State.popFate s).requests = s.requests := rfl
@[simp] theorem State.popFate_takes (s : State) : (State.popFate s).takes = s.takes := rfl
@[simp] theorem State.popFate_grants (s : State) : (State.popFate s).grants = s.grants := rfl
@[simp] theorem State.popFate_fates (s : State) : (State.popFate s).fates = s.fates.pop := rfl
@[simp] theorem State.popFate_rst (s : State) : (State.popFate s).rst = s.rst := rfl
@[simp] theorem State.popFate_others (s : State) : (State.popFate s).others = s.others := rfl
@[simp] theorem State.popFate_ownEdges (s : State) : (State.popFate s).ownEdges = s.ownEdges := rfl
@[simp] theorem State.popFate_delivered (s : State) : (State.popFate s).delivered = s.delivered := rfl
@[simp] theorem State.popFate_draws (s : State) : (State.popFate s).draws = s.draws := rfl

/-! `State.popRequest` -/

@[simp] theorem State.popRequest_cfg (s : State) : (State.popRequest s).cfg = s.cfg := rfl
@[simp] theorem State.popRequest_st (s : State) : (State.popRequest s).st = s.st := rfl
@[simp] theorem State.popRequest_owner (s : State) : (State.popRequest s).owner = s.owner := rfl
@[simp] theorem State.popRequest_opL (s : State) : (State.popRequest s).opL = s.opL := rfl
@[simp] theorem State.popRequest_addrL (s : State) : (State.popRequest s).addrL = s.addrL := rfl
@[simp] theorem State.popRequest_lenL (s : State) : (State.popRequest s).lenL = s.lenL := rfl
@[simp] theorem State.popRequest_dataL (s : State) : (State.popRequest s).dataL = s.dataL := rfl
@[simp] theorem State.popRequest_curAddr (s : State) : (State.popRequest s).curAddr = s.curAddr := rfl
@[simp] theorem State.popRequest_remaining (s : State) : (State.popRequest s).remaining = s.remaining := rfl
@[simp] theorem State.popRequest_done (s : State) : (State.popRequest s).done = s.done := rfl
@[simp] theorem State.popRequest_phase (s : State) : (State.popRequest s).phase = s.phase := rfl
@[simp] theorem State.popRequest_srTmp (s : State) : (State.popRequest s).srTmp = s.srTmp := rfl
@[simp] theorem State.popRequest_errKind (s : State) : (State.popRequest s).errKind = s.errKind := rfl
@[simp] theorem State.popRequest_xfer (s : State) : (State.popRequest s).xfer = s.xfer := rfl
@[simp] theorem State.popRequest_chip (s : State) : (State.popRequest s).chip = s.chip := rfl
@[simp] theorem State.popRequest_buf (s : State) : (State.popRequest s).buf = s.buf := rfl
@[simp] theorem State.popRequest_requests (s : State) : (State.popRequest s).requests = s.requests.pop := rfl
@[simp] theorem State.popRequest_takes (s : State) : (State.popRequest s).takes = s.takes := rfl
@[simp] theorem State.popRequest_grants (s : State) : (State.popRequest s).grants = s.grants := rfl
@[simp] theorem State.popRequest_fates (s : State) : (State.popRequest s).fates = s.fates := rfl
@[simp] theorem State.popRequest_rst (s : State) : (State.popRequest s).rst = s.rst := rfl
@[simp] theorem State.popRequest_others (s : State) : (State.popRequest s).others = s.others := rfl
@[simp] theorem State.popRequest_ownEdges (s : State) : (State.popRequest s).ownEdges = s.ownEdges := rfl
@[simp] theorem State.popRequest_delivered (s : State) : (State.popRequest s).delivered = s.delivered := rfl
@[simp] theorem State.popRequest_draws (s : State) : (State.popRequest s).draws = s.draws := rfl

/-! `State.attach` -/

@[simp] theorem State.attach_cfg (b : Option Buffer) (s : State) : (State.attach b s).cfg = s.cfg := rfl
@[simp] theorem State.attach_st (b : Option Buffer) (s : State) : (State.attach b s).st = s.st := rfl
@[simp] theorem State.attach_owner (b : Option Buffer) (s : State) : (State.attach b s).owner = s.owner := rfl
@[simp] theorem State.attach_opL (b : Option Buffer) (s : State) : (State.attach b s).opL = s.opL := rfl
@[simp] theorem State.attach_addrL (b : Option Buffer) (s : State) : (State.attach b s).addrL = s.addrL := rfl
@[simp] theorem State.attach_lenL (b : Option Buffer) (s : State) : (State.attach b s).lenL = s.lenL := rfl
@[simp] theorem State.attach_dataL (b : Option Buffer) (s : State) : (State.attach b s).dataL = s.dataL := rfl
@[simp] theorem State.attach_curAddr (b : Option Buffer) (s : State) : (State.attach b s).curAddr = s.curAddr := rfl
@[simp] theorem State.attach_remaining (b : Option Buffer) (s : State) : (State.attach b s).remaining = s.remaining := rfl
@[simp] theorem State.attach_done (b : Option Buffer) (s : State) : (State.attach b s).done = s.done := rfl
@[simp] theorem State.attach_phase (b : Option Buffer) (s : State) : (State.attach b s).phase = s.phase := rfl
@[simp] theorem State.attach_srTmp (b : Option Buffer) (s : State) : (State.attach b s).srTmp = s.srTmp := rfl
@[simp] theorem State.attach_errKind (b : Option Buffer) (s : State) : (State.attach b s).errKind = s.errKind := rfl
@[simp] theorem State.attach_xfer (b : Option Buffer) (s : State) : (State.attach b s).xfer = s.xfer := rfl
@[simp] theorem State.attach_chip (b : Option Buffer) (s : State) : (State.attach b s).chip = s.chip := rfl
@[simp] theorem State.attach_buf (b : Option Buffer) (s : State) : (State.attach b s).buf = b.getD s.buf := rfl
@[simp] theorem State.attach_requests (b : Option Buffer) (s : State) : (State.attach b s).requests = s.requests := rfl
@[simp] theorem State.attach_takes (b : Option Buffer) (s : State) : (State.attach b s).takes = s.takes := rfl
@[simp] theorem State.attach_grants (b : Option Buffer) (s : State) : (State.attach b s).grants = s.grants := rfl
@[simp] theorem State.attach_fates (b : Option Buffer) (s : State) : (State.attach b s).fates = s.fates := rfl
@[simp] theorem State.attach_rst (b : Option Buffer) (s : State) : (State.attach b s).rst = s.rst := rfl
@[simp] theorem State.attach_others (b : Option Buffer) (s : State) : (State.attach b s).others = s.others := rfl
@[simp] theorem State.attach_ownEdges (b : Option Buffer) (s : State) : (State.attach b s).ownEdges = s.ownEdges := rfl
@[simp] theorem State.attach_delivered (b : Option Buffer) (s : State) : (State.attach b s).delivered = s.delivered := rfl
@[simp] theorem State.attach_draws (b : Option Buffer) (s : State) : (State.attach b s).draws = s.draws := rfl

/-! `State.accept` -/

@[simp] theorem State.accept_cfg (op : BitVec 3) (r : ReqFields) (s : State) : (State.accept op r s).cfg = s.cfg := rfl
@[simp] theorem State.accept_st (op : BitVec 3) (r : ReqFields) (s : State) : (State.accept op r s).st = .planning := rfl
@[simp] theorem State.accept_owner (op : BitVec 3) (r : ReqFields) (s : State) : (State.accept op r s).owner = s.owner := rfl
@[simp] theorem State.accept_opL (op : BitVec 3) (r : ReqFields) (s : State) : (State.accept op r s).opL = op := rfl
@[simp] theorem State.accept_addrL (op : BitVec 3) (r : ReqFields) (s : State) : (State.accept op r s).addrL = r.addr := rfl
@[simp] theorem State.accept_lenL (op : BitVec 3) (r : ReqFields) (s : State) : (State.accept op r s).lenL = r.len := rfl
@[simp] theorem State.accept_dataL (op : BitVec 3) (r : ReqFields) (s : State) : (State.accept op r s).dataL = r.data := rfl
@[simp] theorem State.accept_curAddr (op : BitVec 3) (r : ReqFields) (s : State) : (State.accept op r s).curAddr = s.curAddr := rfl
@[simp] theorem State.accept_remaining (op : BitVec 3) (r : ReqFields) (s : State) : (State.accept op r s).remaining = s.remaining := rfl
@[simp] theorem State.accept_done (op : BitVec 3) (r : ReqFields) (s : State) : (State.accept op r s).done = s.done := rfl
@[simp] theorem State.accept_phase (op : BitVec 3) (r : ReqFields) (s : State) : (State.accept op r s).phase = s.phase := rfl
@[simp] theorem State.accept_srTmp (op : BitVec 3) (r : ReqFields) (s : State) : (State.accept op r s).srTmp = s.srTmp := rfl
@[simp] theorem State.accept_errKind (op : BitVec 3) (r : ReqFields) (s : State) : (State.accept op r s).errKind = .ok := rfl
@[simp] theorem State.accept_xfer (op : BitVec 3) (r : ReqFields) (s : State) : (State.accept op r s).xfer = s.xfer := rfl
@[simp] theorem State.accept_chip (op : BitVec 3) (r : ReqFields) (s : State) : (State.accept op r s).chip = s.chip := rfl
@[simp] theorem State.accept_buf (op : BitVec 3) (r : ReqFields) (s : State) : (State.accept op r s).buf = s.buf := rfl
@[simp] theorem State.accept_requests (op : BitVec 3) (r : ReqFields) (s : State) : (State.accept op r s).requests = s.requests := rfl
@[simp] theorem State.accept_takes (op : BitVec 3) (r : ReqFields) (s : State) : (State.accept op r s).takes = s.takes := rfl
@[simp] theorem State.accept_grants (op : BitVec 3) (r : ReqFields) (s : State) : (State.accept op r s).grants = s.grants := rfl
@[simp] theorem State.accept_fates (op : BitVec 3) (r : ReqFields) (s : State) : (State.accept op r s).fates = s.fates := rfl
@[simp] theorem State.accept_rst (op : BitVec 3) (r : ReqFields) (s : State) : (State.accept op r s).rst = s.rst := rfl
@[simp] theorem State.accept_others (op : BitVec 3) (r : ReqFields) (s : State) : (State.accept op r s).others = s.others := rfl
@[simp] theorem State.accept_ownEdges (op : BitVec 3) (r : ReqFields) (s : State) : (State.accept op r s).ownEdges = s.ownEdges := rfl
@[simp] theorem State.accept_delivered (op : BitVec 3) (r : ReqFields) (s : State) : (State.accept op r s).delivered = s.delivered := rfl
@[simp] theorem State.accept_draws (op : BitVec 3) (r : ReqFields) (s : State) : (State.accept op r s).draws = s.draws := rfl

/-! `State.setDone` -/

@[simp] theorem State.setDone_cfg (d : Half) (s : State) : (State.setDone d s).cfg = s.cfg := rfl
@[simp] theorem State.setDone_st (d : Half) (s : State) : (State.setDone d s).st = s.st := rfl
@[simp] theorem State.setDone_owner (d : Half) (s : State) : (State.setDone d s).owner = s.owner := rfl
@[simp] theorem State.setDone_opL (d : Half) (s : State) : (State.setDone d s).opL = s.opL := rfl
@[simp] theorem State.setDone_addrL (d : Half) (s : State) : (State.setDone d s).addrL = s.addrL := rfl
@[simp] theorem State.setDone_lenL (d : Half) (s : State) : (State.setDone d s).lenL = s.lenL := rfl
@[simp] theorem State.setDone_dataL (d : Half) (s : State) : (State.setDone d s).dataL = s.dataL := rfl
@[simp] theorem State.setDone_curAddr (d : Half) (s : State) : (State.setDone d s).curAddr = s.curAddr := rfl
@[simp] theorem State.setDone_remaining (d : Half) (s : State) : (State.setDone d s).remaining = s.remaining := rfl
@[simp] theorem State.setDone_done (d : Half) (s : State) : (State.setDone d s).done = d := rfl
@[simp] theorem State.setDone_phase (d : Half) (s : State) : (State.setDone d s).phase = s.phase := rfl
@[simp] theorem State.setDone_srTmp (d : Half) (s : State) : (State.setDone d s).srTmp = s.srTmp := rfl
@[simp] theorem State.setDone_errKind (d : Half) (s : State) : (State.setDone d s).errKind = s.errKind := rfl
@[simp] theorem State.setDone_xfer (d : Half) (s : State) : (State.setDone d s).xfer = s.xfer := rfl
@[simp] theorem State.setDone_chip (d : Half) (s : State) : (State.setDone d s).chip = s.chip := rfl
@[simp] theorem State.setDone_buf (d : Half) (s : State) : (State.setDone d s).buf = s.buf := rfl
@[simp] theorem State.setDone_requests (d : Half) (s : State) : (State.setDone d s).requests = s.requests := rfl
@[simp] theorem State.setDone_takes (d : Half) (s : State) : (State.setDone d s).takes = s.takes := rfl
@[simp] theorem State.setDone_grants (d : Half) (s : State) : (State.setDone d s).grants = s.grants := rfl
@[simp] theorem State.setDone_fates (d : Half) (s : State) : (State.setDone d s).fates = s.fates := rfl
@[simp] theorem State.setDone_rst (d : Half) (s : State) : (State.setDone d s).rst = s.rst := rfl
@[simp] theorem State.setDone_others (d : Half) (s : State) : (State.setDone d s).others = s.others := rfl
@[simp] theorem State.setDone_ownEdges (d : Half) (s : State) : (State.setDone d s).ownEdges = s.ownEdges := rfl
@[simp] theorem State.setDone_delivered (d : Half) (s : State) : (State.setDone d s).delivered = s.delivered := rfl
@[simp] theorem State.setDone_draws (d : Half) (s : State) : (State.setDone d s).draws = s.draws := rfl

/-! `State.loadProgress` -/

@[simp] theorem State.loadProgress_cfg (s : State) : (State.loadProgress s).cfg = s.cfg := rfl
@[simp] theorem State.loadProgress_st (s : State) : (State.loadProgress s).st = s.st := rfl
@[simp] theorem State.loadProgress_owner (s : State) : (State.loadProgress s).owner = s.owner := rfl
@[simp] theorem State.loadProgress_opL (s : State) : (State.loadProgress s).opL = s.opL := rfl
@[simp] theorem State.loadProgress_addrL (s : State) : (State.loadProgress s).addrL = s.addrL := rfl
@[simp] theorem State.loadProgress_lenL (s : State) : (State.loadProgress s).lenL = s.lenL := rfl
@[simp] theorem State.loadProgress_dataL (s : State) : (State.loadProgress s).dataL = s.dataL := rfl
@[simp] theorem State.loadProgress_curAddr (s : State) : (State.loadProgress s).curAddr = s.addrL.setWidth 16 := rfl
@[simp] theorem State.loadProgress_remaining (s : State) : (State.loadProgress s).remaining = s.lenL.setWidth 16 := rfl
@[simp] theorem State.loadProgress_done (s : State) : (State.loadProgress s).done = s.done := rfl
@[simp] theorem State.loadProgress_phase (s : State) : (State.loadProgress s).phase = s.phase := rfl
@[simp] theorem State.loadProgress_srTmp (s : State) : (State.loadProgress s).srTmp = s.srTmp := rfl
@[simp] theorem State.loadProgress_errKind (s : State) : (State.loadProgress s).errKind = s.errKind := rfl
@[simp] theorem State.loadProgress_xfer (s : State) : (State.loadProgress s).xfer = s.xfer := rfl
@[simp] theorem State.loadProgress_chip (s : State) : (State.loadProgress s).chip = s.chip := rfl
@[simp] theorem State.loadProgress_buf (s : State) : (State.loadProgress s).buf = s.buf := rfl
@[simp] theorem State.loadProgress_requests (s : State) : (State.loadProgress s).requests = s.requests := rfl
@[simp] theorem State.loadProgress_takes (s : State) : (State.loadProgress s).takes = s.takes := rfl
@[simp] theorem State.loadProgress_grants (s : State) : (State.loadProgress s).grants = s.grants := rfl
@[simp] theorem State.loadProgress_fates (s : State) : (State.loadProgress s).fates = s.fates := rfl
@[simp] theorem State.loadProgress_rst (s : State) : (State.loadProgress s).rst = s.rst := rfl
@[simp] theorem State.loadProgress_others (s : State) : (State.loadProgress s).others = s.others := rfl
@[simp] theorem State.loadProgress_ownEdges (s : State) : (State.loadProgress s).ownEdges = s.ownEdges := rfl
@[simp] theorem State.loadProgress_delivered (s : State) : (State.loadProgress s).delivered = s.delivered := rfl
@[simp] theorem State.loadProgress_draws (s : State) : (State.loadProgress s).draws = s.draws := rfl

/-! `State.advance` -/

@[simp] theorem State.advance_cfg (l : Nat) (s : State) : (State.advance l s).cfg = s.cfg := rfl
@[simp] theorem State.advance_st (l : Nat) (s : State) : (State.advance l s).st = s.st := rfl
@[simp] theorem State.advance_owner (l : Nat) (s : State) : (State.advance l s).owner = s.owner := rfl
@[simp] theorem State.advance_opL (l : Nat) (s : State) : (State.advance l s).opL = s.opL := rfl
@[simp] theorem State.advance_addrL (l : Nat) (s : State) : (State.advance l s).addrL = s.addrL := rfl
@[simp] theorem State.advance_lenL (l : Nat) (s : State) : (State.advance l s).lenL = s.lenL := rfl
@[simp] theorem State.advance_dataL (l : Nat) (s : State) : (State.advance l s).dataL = s.dataL := rfl
@[simp] theorem State.advance_curAddr (l : Nat) (s : State) : (State.advance l s).curAddr = s.curAddr + BitVec.ofNat 16 l := rfl
@[simp] theorem State.advance_remaining (l : Nat) (s : State) : (State.advance l s).remaining = s.remaining - BitVec.ofNat 16 l := rfl
@[simp] theorem State.advance_done (l : Nat) (s : State) : (State.advance l s).done = s.done + BitVec.ofNat 16 l := rfl
@[simp] theorem State.advance_phase (l : Nat) (s : State) : (State.advance l s).phase = s.phase := rfl
@[simp] theorem State.advance_srTmp (l : Nat) (s : State) : (State.advance l s).srTmp = s.srTmp := rfl
@[simp] theorem State.advance_errKind (l : Nat) (s : State) : (State.advance l s).errKind = s.errKind := rfl
@[simp] theorem State.advance_xfer (l : Nat) (s : State) : (State.advance l s).xfer = s.xfer := rfl
@[simp] theorem State.advance_chip (l : Nat) (s : State) : (State.advance l s).chip = s.chip := rfl
@[simp] theorem State.advance_buf (l : Nat) (s : State) : (State.advance l s).buf = s.buf := rfl
@[simp] theorem State.advance_requests (l : Nat) (s : State) : (State.advance l s).requests = s.requests := rfl
@[simp] theorem State.advance_takes (l : Nat) (s : State) : (State.advance l s).takes = s.takes := rfl
@[simp] theorem State.advance_grants (l : Nat) (s : State) : (State.advance l s).grants = s.grants := rfl
@[simp] theorem State.advance_fates (l : Nat) (s : State) : (State.advance l s).fates = s.fates := rfl
@[simp] theorem State.advance_rst (l : Nat) (s : State) : (State.advance l s).rst = s.rst := rfl
@[simp] theorem State.advance_others (l : Nat) (s : State) : (State.advance l s).others = s.others := rfl
@[simp] theorem State.advance_ownEdges (l : Nat) (s : State) : (State.advance l s).ownEdges = s.ownEdges := rfl
@[simp] theorem State.advance_delivered (l : Nat) (s : State) : (State.advance l s).delivered = s.delivered := rfl
@[simp] theorem State.advance_draws (l : Nat) (s : State) : (State.advance l s).draws = s.draws := rfl

/-! `State.toPhase` -/

@[simp] theorem State.toPhase_cfg (p : Phase) (s : State) : (State.toPhase p s).cfg = s.cfg := rfl
@[simp] theorem State.toPhase_st (p : Phase) (s : State) : (State.toPhase p s).st = .issuing := rfl
@[simp] theorem State.toPhase_owner (p : Phase) (s : State) : (State.toPhase p s).owner = s.owner := rfl
@[simp] theorem State.toPhase_opL (p : Phase) (s : State) : (State.toPhase p s).opL = s.opL := rfl
@[simp] theorem State.toPhase_addrL (p : Phase) (s : State) : (State.toPhase p s).addrL = s.addrL := rfl
@[simp] theorem State.toPhase_lenL (p : Phase) (s : State) : (State.toPhase p s).lenL = s.lenL := rfl
@[simp] theorem State.toPhase_dataL (p : Phase) (s : State) : (State.toPhase p s).dataL = s.dataL := rfl
@[simp] theorem State.toPhase_curAddr (p : Phase) (s : State) : (State.toPhase p s).curAddr = s.curAddr := rfl
@[simp] theorem State.toPhase_remaining (p : Phase) (s : State) : (State.toPhase p s).remaining = s.remaining := rfl
@[simp] theorem State.toPhase_done (p : Phase) (s : State) : (State.toPhase p s).done = s.done := rfl
@[simp] theorem State.toPhase_phase (p : Phase) (s : State) : (State.toPhase p s).phase = p := rfl
@[simp] theorem State.toPhase_srTmp (p : Phase) (s : State) : (State.toPhase p s).srTmp = s.srTmp := rfl
@[simp] theorem State.toPhase_errKind (p : Phase) (s : State) : (State.toPhase p s).errKind = s.errKind := rfl
@[simp] theorem State.toPhase_xfer (p : Phase) (s : State) : (State.toPhase p s).xfer = s.xfer := rfl
@[simp] theorem State.toPhase_chip (p : Phase) (s : State) : (State.toPhase p s).chip = s.chip := rfl
@[simp] theorem State.toPhase_buf (p : Phase) (s : State) : (State.toPhase p s).buf = s.buf := rfl
@[simp] theorem State.toPhase_requests (p : Phase) (s : State) : (State.toPhase p s).requests = s.requests := rfl
@[simp] theorem State.toPhase_takes (p : Phase) (s : State) : (State.toPhase p s).takes = s.takes := rfl
@[simp] theorem State.toPhase_grants (p : Phase) (s : State) : (State.toPhase p s).grants = s.grants := rfl
@[simp] theorem State.toPhase_fates (p : Phase) (s : State) : (State.toPhase p s).fates = s.fates := rfl
@[simp] theorem State.toPhase_rst (p : Phase) (s : State) : (State.toPhase p s).rst = s.rst := rfl
@[simp] theorem State.toPhase_others (p : Phase) (s : State) : (State.toPhase p s).others = s.others := rfl
@[simp] theorem State.toPhase_ownEdges (p : Phase) (s : State) : (State.toPhase p s).ownEdges = s.ownEdges := rfl
@[simp] theorem State.toPhase_delivered (p : Phase) (s : State) : (State.toPhase p s).delivered = s.delivered := rfl
@[simp] theorem State.toPhase_draws (p : Phase) (s : State) : (State.toPhase p s).draws = s.draws := rfl

/-! `State.setSrTmp` -/

@[simp] theorem State.setSrTmp_cfg (b : Byte) (s : State) : (State.setSrTmp b s).cfg = s.cfg := rfl
@[simp] theorem State.setSrTmp_st (b : Byte) (s : State) : (State.setSrTmp b s).st = s.st := rfl
@[simp] theorem State.setSrTmp_owner (b : Byte) (s : State) : (State.setSrTmp b s).owner = s.owner := rfl
@[simp] theorem State.setSrTmp_opL (b : Byte) (s : State) : (State.setSrTmp b s).opL = s.opL := rfl
@[simp] theorem State.setSrTmp_addrL (b : Byte) (s : State) : (State.setSrTmp b s).addrL = s.addrL := rfl
@[simp] theorem State.setSrTmp_lenL (b : Byte) (s : State) : (State.setSrTmp b s).lenL = s.lenL := rfl
@[simp] theorem State.setSrTmp_dataL (b : Byte) (s : State) : (State.setSrTmp b s).dataL = s.dataL := rfl
@[simp] theorem State.setSrTmp_curAddr (b : Byte) (s : State) : (State.setSrTmp b s).curAddr = s.curAddr := rfl
@[simp] theorem State.setSrTmp_remaining (b : Byte) (s : State) : (State.setSrTmp b s).remaining = s.remaining := rfl
@[simp] theorem State.setSrTmp_done (b : Byte) (s : State) : (State.setSrTmp b s).done = s.done := rfl
@[simp] theorem State.setSrTmp_phase (b : Byte) (s : State) : (State.setSrTmp b s).phase = s.phase := rfl
@[simp] theorem State.setSrTmp_srTmp (b : Byte) (s : State) : (State.setSrTmp b s).srTmp = b := rfl
@[simp] theorem State.setSrTmp_errKind (b : Byte) (s : State) : (State.setSrTmp b s).errKind = s.errKind := rfl
@[simp] theorem State.setSrTmp_xfer (b : Byte) (s : State) : (State.setSrTmp b s).xfer = s.xfer := rfl
@[simp] theorem State.setSrTmp_chip (b : Byte) (s : State) : (State.setSrTmp b s).chip = s.chip := rfl
@[simp] theorem State.setSrTmp_buf (b : Byte) (s : State) : (State.setSrTmp b s).buf = s.buf := rfl
@[simp] theorem State.setSrTmp_requests (b : Byte) (s : State) : (State.setSrTmp b s).requests = s.requests := rfl
@[simp] theorem State.setSrTmp_takes (b : Byte) (s : State) : (State.setSrTmp b s).takes = s.takes := rfl
@[simp] theorem State.setSrTmp_grants (b : Byte) (s : State) : (State.setSrTmp b s).grants = s.grants := rfl
@[simp] theorem State.setSrTmp_fates (b : Byte) (s : State) : (State.setSrTmp b s).fates = s.fates := rfl
@[simp] theorem State.setSrTmp_rst (b : Byte) (s : State) : (State.setSrTmp b s).rst = s.rst := rfl
@[simp] theorem State.setSrTmp_others (b : Byte) (s : State) : (State.setSrTmp b s).others = s.others := rfl
@[simp] theorem State.setSrTmp_ownEdges (b : Byte) (s : State) : (State.setSrTmp b s).ownEdges = s.ownEdges := rfl
@[simp] theorem State.setSrTmp_delivered (b : Byte) (s : State) : (State.setSrTmp b s).delivered = s.delivered := rfl
@[simp] theorem State.setSrTmp_draws (b : Byte) (s : State) : (State.setSrTmp b s).draws = s.draws := rfl

/-! `State.acquire` -/

@[simp] theorem State.acquire_cfg (s : State) : (State.acquire s).cfg = s.cfg := rfl
@[simp] theorem State.acquire_st (s : State) : (State.acquire s).st = s.st := rfl
@[simp] theorem State.acquire_owner (s : State) : (State.acquire s).owner = true := rfl
@[simp] theorem State.acquire_opL (s : State) : (State.acquire s).opL = s.opL := rfl
@[simp] theorem State.acquire_addrL (s : State) : (State.acquire s).addrL = s.addrL := rfl
@[simp] theorem State.acquire_lenL (s : State) : (State.acquire s).lenL = s.lenL := rfl
@[simp] theorem State.acquire_dataL (s : State) : (State.acquire s).dataL = s.dataL := rfl
@[simp] theorem State.acquire_curAddr (s : State) : (State.acquire s).curAddr = s.curAddr := rfl
@[simp] theorem State.acquire_remaining (s : State) : (State.acquire s).remaining = s.remaining := rfl
@[simp] theorem State.acquire_done (s : State) : (State.acquire s).done = s.done := rfl
@[simp] theorem State.acquire_phase (s : State) : (State.acquire s).phase = s.phase := rfl
@[simp] theorem State.acquire_srTmp (s : State) : (State.acquire s).srTmp = s.srTmp := rfl
@[simp] theorem State.acquire_errKind (s : State) : (State.acquire s).errKind = s.errKind := rfl
@[simp] theorem State.acquire_xfer (s : State) : (State.acquire s).xfer = s.xfer := rfl
@[simp] theorem State.acquire_chip (s : State) : (State.acquire s).chip = s.chip := rfl
@[simp] theorem State.acquire_buf (s : State) : (State.acquire s).buf = s.buf := rfl
@[simp] theorem State.acquire_requests (s : State) : (State.acquire s).requests = s.requests := rfl
@[simp] theorem State.acquire_takes (s : State) : (State.acquire s).takes = s.takes := rfl
@[simp] theorem State.acquire_grants (s : State) : (State.acquire s).grants = s.grants := rfl
@[simp] theorem State.acquire_fates (s : State) : (State.acquire s).fates = s.fates := rfl
@[simp] theorem State.acquire_rst (s : State) : (State.acquire s).rst = s.rst := rfl
@[simp] theorem State.acquire_others (s : State) : (State.acquire s).others = s.others := rfl
@[simp] theorem State.acquire_ownEdges (s : State) : (State.acquire s).ownEdges = s.ownEdges := rfl
@[simp] theorem State.acquire_delivered (s : State) : (State.acquire s).delivered = s.delivered := rfl
@[simp] theorem State.acquire_draws (s : State) : (State.acquire s).draws = s.draws := rfl

/-! `State.request` -/

@[simp] theorem State.request_cfg (s : State) : (State.request s).cfg = s.cfg := rfl
@[simp] theorem State.request_st (s : State) : (State.request s).st = s.st := rfl
@[simp] theorem State.request_owner (s : State) : (State.request s).owner = s.owner := rfl
@[simp] theorem State.request_opL (s : State) : (State.request s).opL = s.opL := rfl
@[simp] theorem State.request_addrL (s : State) : (State.request s).addrL = s.addrL := rfl
@[simp] theorem State.request_lenL (s : State) : (State.request s).lenL = s.lenL := rfl
@[simp] theorem State.request_dataL (s : State) : (State.request s).dataL = s.dataL := rfl
@[simp] theorem State.request_curAddr (s : State) : (State.request s).curAddr = s.curAddr := rfl
@[simp] theorem State.request_remaining (s : State) : (State.request s).remaining = s.remaining := rfl
@[simp] theorem State.request_done (s : State) : (State.request s).done = s.done := rfl
@[simp] theorem State.request_phase (s : State) : (State.request s).phase = s.phase := rfl
@[simp] theorem State.request_srTmp (s : State) : (State.request s).srTmp = s.srTmp := rfl
@[simp] theorem State.request_errKind (s : State) : (State.request s).errKind = s.errKind := rfl
@[simp] theorem State.request_xfer (s : State) : (State.request s).xfer = s.xfer := rfl
@[simp] theorem State.request_chip (s : State) : (State.request s).chip = s.chip := rfl
@[simp] theorem State.request_buf (s : State) : (State.request s).buf = s.buf := rfl
@[simp] theorem State.request_requests (s : State) : (State.request s).requests = s.requests := rfl
@[simp] theorem State.request_takes (s : State) : (State.request s).takes = s.takes := rfl
@[simp] theorem State.request_grants (s : State) : (State.request s).grants = s.grants := rfl
@[simp] theorem State.request_fates (s : State) : (State.request s).fates = s.fates := rfl
@[simp] theorem State.request_rst (s : State) : (State.request s).rst = s.rst := rfl
@[simp] theorem State.request_others (s : State) : (State.request s).others = s.others := rfl
@[simp] theorem State.request_ownEdges (s : State) : (State.request s).ownEdges = s.ownEdges ++ [.rise] := rfl
@[simp] theorem State.request_delivered (s : State) : (State.request s).delivered = s.delivered := rfl
@[simp] theorem State.request_draws (s : State) : (State.request s).draws = s.draws := rfl

/-! `State.release` -/

@[simp] theorem State.release_cfg (s : State) : (State.release s).cfg = s.cfg := rfl
@[simp] theorem State.release_st (s : State) : (State.release s).st = s.st := rfl
@[simp] theorem State.release_owner (s : State) : (State.release s).owner = false := rfl
@[simp] theorem State.release_opL (s : State) : (State.release s).opL = s.opL := rfl
@[simp] theorem State.release_addrL (s : State) : (State.release s).addrL = s.addrL := rfl
@[simp] theorem State.release_lenL (s : State) : (State.release s).lenL = s.lenL := rfl
@[simp] theorem State.release_dataL (s : State) : (State.release s).dataL = s.dataL := rfl
@[simp] theorem State.release_curAddr (s : State) : (State.release s).curAddr = s.curAddr := rfl
@[simp] theorem State.release_remaining (s : State) : (State.release s).remaining = s.remaining := rfl
@[simp] theorem State.release_done (s : State) : (State.release s).done = s.done := rfl
@[simp] theorem State.release_phase (s : State) : (State.release s).phase = s.phase := rfl
@[simp] theorem State.release_srTmp (s : State) : (State.release s).srTmp = s.srTmp := rfl
@[simp] theorem State.release_errKind (s : State) : (State.release s).errKind = s.errKind := rfl
@[simp] theorem State.release_xfer (s : State) : (State.release s).xfer = s.xfer := rfl
@[simp] theorem State.release_chip (s : State) : (State.release s).chip = s.chip := rfl
@[simp] theorem State.release_buf (s : State) : (State.release s).buf = s.buf := rfl
@[simp] theorem State.release_requests (s : State) : (State.release s).requests = s.requests := rfl
@[simp] theorem State.release_takes (s : State) : (State.release s).takes = s.takes := rfl
@[simp] theorem State.release_grants (s : State) : (State.release s).grants = s.grants := rfl
@[simp] theorem State.release_fates (s : State) : (State.release s).fates = s.fates := rfl
@[simp] theorem State.release_rst (s : State) : (State.release s).rst = s.rst := rfl
@[simp] theorem State.release_others (s : State) : (State.release s).others = s.others := rfl
@[simp] theorem State.release_ownEdges (s : State) : (State.release s).ownEdges = s.ownEdges ++ [.fall] := rfl
@[simp] theorem State.release_delivered (s : State) : (State.release s).delivered = s.delivered := rfl
@[simp] theorem State.release_draws (s : State) : (State.release s).draws = s.draws := rfl

/-! `State.send` -/

@[simp] theorem State.send_cfg (out : List Byte) (s : State) : (State.send out s).cfg = s.cfg := rfl
@[simp] theorem State.send_st (out : List Byte) (s : State) : (State.send out s).st = .waiting := rfl
@[simp] theorem State.send_owner (out : List Byte) (s : State) : (State.send out s).owner = s.owner := rfl
@[simp] theorem State.send_opL (out : List Byte) (s : State) : (State.send out s).opL = s.opL := rfl
@[simp] theorem State.send_addrL (out : List Byte) (s : State) : (State.send out s).addrL = s.addrL := rfl
@[simp] theorem State.send_lenL (out : List Byte) (s : State) : (State.send out s).lenL = s.lenL := rfl
@[simp] theorem State.send_dataL (out : List Byte) (s : State) : (State.send out s).dataL = s.dataL := rfl
@[simp] theorem State.send_curAddr (out : List Byte) (s : State) : (State.send out s).curAddr = s.curAddr := rfl
@[simp] theorem State.send_remaining (out : List Byte) (s : State) : (State.send out s).remaining = s.remaining := rfl
@[simp] theorem State.send_done (out : List Byte) (s : State) : (State.send out s).done = s.done := rfl
@[simp] theorem State.send_phase (out : List Byte) (s : State) : (State.send out s).phase = s.phase := rfl
@[simp] theorem State.send_srTmp (out : List Byte) (s : State) : (State.send out s).srTmp = s.srTmp := rfl
@[simp] theorem State.send_errKind (out : List Byte) (s : State) : (State.send out s).errKind = s.errKind := rfl
@[simp] theorem State.send_xfer (out : List Byte) (s : State) : (State.send out s).xfer = .sent out := rfl
@[simp] theorem State.send_chip (out : List Byte) (s : State) : (State.send out s).chip = s.chip := rfl
@[simp] theorem State.send_buf (out : List Byte) (s : State) : (State.send out s).buf = s.buf := rfl
@[simp] theorem State.send_requests (out : List Byte) (s : State) : (State.send out s).requests = s.requests := rfl
@[simp] theorem State.send_takes (out : List Byte) (s : State) : (State.send out s).takes = s.takes := rfl
@[simp] theorem State.send_grants (out : List Byte) (s : State) : (State.send out s).grants = s.grants := rfl
@[simp] theorem State.send_fates (out : List Byte) (s : State) : (State.send out s).fates = s.fates := rfl
@[simp] theorem State.send_rst (out : List Byte) (s : State) : (State.send out s).rst = s.rst := rfl
@[simp] theorem State.send_others (out : List Byte) (s : State) : (State.send out s).others = s.others := rfl
@[simp] theorem State.send_ownEdges (out : List Byte) (s : State) : (State.send out s).ownEdges = s.ownEdges := rfl
@[simp] theorem State.send_delivered (out : List Byte) (s : State) : (State.send out s).delivered = s.delivered := rfl
@[simp] theorem State.send_draws (out : List Byte) (s : State) : (State.send out s).draws = s.draws := rfl

/-! `State.endTransfer` -/

@[simp] theorem State.endTransfer_cfg (s : State) : (State.endTransfer s).cfg = s.cfg := rfl
@[simp] theorem State.endTransfer_st (s : State) : (State.endTransfer s).st = s.st := rfl
@[simp] theorem State.endTransfer_owner (s : State) : (State.endTransfer s).owner = s.owner := rfl
@[simp] theorem State.endTransfer_opL (s : State) : (State.endTransfer s).opL = s.opL := rfl
@[simp] theorem State.endTransfer_addrL (s : State) : (State.endTransfer s).addrL = s.addrL := rfl
@[simp] theorem State.endTransfer_lenL (s : State) : (State.endTransfer s).lenL = s.lenL := rfl
@[simp] theorem State.endTransfer_dataL (s : State) : (State.endTransfer s).dataL = s.dataL := rfl
@[simp] theorem State.endTransfer_curAddr (s : State) : (State.endTransfer s).curAddr = s.curAddr := rfl
@[simp] theorem State.endTransfer_remaining (s : State) : (State.endTransfer s).remaining = s.remaining := rfl
@[simp] theorem State.endTransfer_done (s : State) : (State.endTransfer s).done = s.done := rfl
@[simp] theorem State.endTransfer_phase (s : State) : (State.endTransfer s).phase = s.phase := rfl
@[simp] theorem State.endTransfer_srTmp (s : State) : (State.endTransfer s).srTmp = s.srTmp := rfl
@[simp] theorem State.endTransfer_errKind (s : State) : (State.endTransfer s).errKind = s.errKind := rfl
@[simp] theorem State.endTransfer_xfer (s : State) : (State.endTransfer s).xfer = .idle := rfl
@[simp] theorem State.endTransfer_chip (s : State) : (State.endTransfer s).chip = s.chip := rfl
@[simp] theorem State.endTransfer_buf (s : State) : (State.endTransfer s).buf = s.buf := rfl
@[simp] theorem State.endTransfer_requests (s : State) : (State.endTransfer s).requests = s.requests := rfl
@[simp] theorem State.endTransfer_takes (s : State) : (State.endTransfer s).takes = s.takes := rfl
@[simp] theorem State.endTransfer_grants (s : State) : (State.endTransfer s).grants = s.grants := rfl
@[simp] theorem State.endTransfer_fates (s : State) : (State.endTransfer s).fates = s.fates := rfl
@[simp] theorem State.endTransfer_rst (s : State) : (State.endTransfer s).rst = s.rst := rfl
@[simp] theorem State.endTransfer_others (s : State) : (State.endTransfer s).others = s.others := rfl
@[simp] theorem State.endTransfer_ownEdges (s : State) : (State.endTransfer s).ownEdges = s.ownEdges := rfl
@[simp] theorem State.endTransfer_delivered (s : State) : (State.endTransfer s).delivered = s.delivered := rfl
@[simp] theorem State.endTransfer_draws (s : State) : (State.endTransfer s).draws = s.draws := rfl

/-! `State.answer` -/

@[simp] theorem State.answer_cfg (a : Answer) (s : State) : (State.answer a s).cfg = s.cfg := rfl
@[simp] theorem State.answer_st (a : Answer) (s : State) : (State.answer a s).st = s.st := rfl
@[simp] theorem State.answer_owner (a : Answer) (s : State) : (State.answer a s).owner = s.owner := rfl
@[simp] theorem State.answer_opL (a : Answer) (s : State) : (State.answer a s).opL = s.opL := rfl
@[simp] theorem State.answer_addrL (a : Answer) (s : State) : (State.answer a s).addrL = s.addrL := rfl
@[simp] theorem State.answer_lenL (a : Answer) (s : State) : (State.answer a s).lenL = s.lenL := rfl
@[simp] theorem State.answer_dataL (a : Answer) (s : State) : (State.answer a s).dataL = s.dataL := rfl
@[simp] theorem State.answer_curAddr (a : Answer) (s : State) : (State.answer a s).curAddr = s.curAddr := rfl
@[simp] theorem State.answer_remaining (a : Answer) (s : State) : (State.answer a s).remaining = s.remaining := rfl
@[simp] theorem State.answer_done (a : Answer) (s : State) : (State.answer a s).done = s.done := rfl
@[simp] theorem State.answer_phase (a : Answer) (s : State) : (State.answer a s).phase = s.phase := rfl
@[simp] theorem State.answer_srTmp (a : Answer) (s : State) : (State.answer a s).srTmp = s.srTmp := rfl
@[simp] theorem State.answer_errKind (a : Answer) (s : State) : (State.answer a s).errKind = s.errKind := rfl
@[simp] theorem State.answer_xfer (a : Answer) (s : State) : (State.answer a s).xfer = .answered a := rfl
@[simp] theorem State.answer_chip (a : Answer) (s : State) : (State.answer a s).chip = s.chip := rfl
@[simp] theorem State.answer_buf (a : Answer) (s : State) : (State.answer a s).buf = s.buf := rfl
@[simp] theorem State.answer_requests (a : Answer) (s : State) : (State.answer a s).requests = s.requests := rfl
@[simp] theorem State.answer_takes (a : Answer) (s : State) : (State.answer a s).takes = s.takes := rfl
@[simp] theorem State.answer_grants (a : Answer) (s : State) : (State.answer a s).grants = s.grants := rfl
@[simp] theorem State.answer_fates (a : Answer) (s : State) : (State.answer a s).fates = s.fates := rfl
@[simp] theorem State.answer_rst (a : Answer) (s : State) : (State.answer a s).rst = s.rst := rfl
@[simp] theorem State.answer_others (a : Answer) (s : State) : (State.answer a s).others = s.others := rfl
@[simp] theorem State.answer_ownEdges (a : Answer) (s : State) : (State.answer a s).ownEdges = s.ownEdges := rfl
@[simp] theorem State.answer_delivered (a : Answer) (s : State) : (State.answer a s).delivered = s.delivered := rfl
@[simp] theorem State.answer_draws (a : Answer) (s : State) : (State.answer a s).draws = s.draws := rfl

/-! `State.finish` -/

@[simp] theorem State.finish_cfg (s : State) : (State.finish s).cfg = s.cfg := rfl
@[simp] theorem State.finish_st (s : State) : (State.finish s).st = .complete := rfl
@[simp] theorem State.finish_owner (s : State) : (State.finish s).owner = s.owner := rfl
@[simp] theorem State.finish_opL (s : State) : (State.finish s).opL = s.opL := rfl
@[simp] theorem State.finish_addrL (s : State) : (State.finish s).addrL = s.addrL := rfl
@[simp] theorem State.finish_lenL (s : State) : (State.finish s).lenL = s.lenL := rfl
@[simp] theorem State.finish_dataL (s : State) : (State.finish s).dataL = s.dataL := rfl
@[simp] theorem State.finish_curAddr (s : State) : (State.finish s).curAddr = s.curAddr := rfl
@[simp] theorem State.finish_remaining (s : State) : (State.finish s).remaining = s.remaining := rfl
@[simp] theorem State.finish_done (s : State) : (State.finish s).done = s.done := rfl
@[simp] theorem State.finish_phase (s : State) : (State.finish s).phase = s.phase := rfl
@[simp] theorem State.finish_srTmp (s : State) : (State.finish s).srTmp = s.srTmp := rfl
@[simp] theorem State.finish_errKind (s : State) : (State.finish s).errKind = s.errKind := rfl
@[simp] theorem State.finish_xfer (s : State) : (State.finish s).xfer = s.xfer := rfl
@[simp] theorem State.finish_chip (s : State) : (State.finish s).chip = s.chip := rfl
@[simp] theorem State.finish_buf (s : State) : (State.finish s).buf = s.buf := rfl
@[simp] theorem State.finish_requests (s : State) : (State.finish s).requests = s.requests := rfl
@[simp] theorem State.finish_takes (s : State) : (State.finish s).takes = s.takes := rfl
@[simp] theorem State.finish_grants (s : State) : (State.finish s).grants = s.grants := rfl
@[simp] theorem State.finish_fates (s : State) : (State.finish s).fates = s.fates := rfl
@[simp] theorem State.finish_rst (s : State) : (State.finish s).rst = s.rst := rfl
@[simp] theorem State.finish_others (s : State) : (State.finish s).others = s.others := rfl
@[simp] theorem State.finish_ownEdges (s : State) : (State.finish s).ownEdges = s.ownEdges := rfl
@[simp] theorem State.finish_delivered (s : State) : (State.finish s).delivered = s.delivered := rfl
@[simp] theorem State.finish_draws (s : State) : (State.finish s).draws = s.draws := rfl

/-! `State.setBufBytes` -/

@[simp] theorem State.setBufBytes_cfg (m : Memory) (s : State) : (State.setBufBytes m s).cfg = s.cfg := rfl
@[simp] theorem State.setBufBytes_st (m : Memory) (s : State) : (State.setBufBytes m s).st = s.st := rfl
@[simp] theorem State.setBufBytes_owner (m : Memory) (s : State) : (State.setBufBytes m s).owner = s.owner := rfl
@[simp] theorem State.setBufBytes_opL (m : Memory) (s : State) : (State.setBufBytes m s).opL = s.opL := rfl
@[simp] theorem State.setBufBytes_addrL (m : Memory) (s : State) : (State.setBufBytes m s).addrL = s.addrL := rfl
@[simp] theorem State.setBufBytes_lenL (m : Memory) (s : State) : (State.setBufBytes m s).lenL = s.lenL := rfl
@[simp] theorem State.setBufBytes_dataL (m : Memory) (s : State) : (State.setBufBytes m s).dataL = s.dataL := rfl
@[simp] theorem State.setBufBytes_curAddr (m : Memory) (s : State) : (State.setBufBytes m s).curAddr = s.curAddr := rfl
@[simp] theorem State.setBufBytes_remaining (m : Memory) (s : State) : (State.setBufBytes m s).remaining = s.remaining := rfl
@[simp] theorem State.setBufBytes_done (m : Memory) (s : State) : (State.setBufBytes m s).done = s.done := rfl
@[simp] theorem State.setBufBytes_phase (m : Memory) (s : State) : (State.setBufBytes m s).phase = s.phase := rfl
@[simp] theorem State.setBufBytes_srTmp (m : Memory) (s : State) : (State.setBufBytes m s).srTmp = s.srTmp := rfl
@[simp] theorem State.setBufBytes_errKind (m : Memory) (s : State) : (State.setBufBytes m s).errKind = s.errKind := rfl
@[simp] theorem State.setBufBytes_xfer (m : Memory) (s : State) : (State.setBufBytes m s).xfer = s.xfer := rfl
@[simp] theorem State.setBufBytes_chip (m : Memory) (s : State) : (State.setBufBytes m s).chip = s.chip := rfl
@[simp] theorem State.setBufBytes_buf (m : Memory) (s : State) : (State.setBufBytes m s).buf = { s.buf with bytes := m } := rfl
@[simp] theorem State.setBufBytes_requests (m : Memory) (s : State) : (State.setBufBytes m s).requests = s.requests := rfl
@[simp] theorem State.setBufBytes_takes (m : Memory) (s : State) : (State.setBufBytes m s).takes = s.takes := rfl
@[simp] theorem State.setBufBytes_grants (m : Memory) (s : State) : (State.setBufBytes m s).grants = s.grants := rfl
@[simp] theorem State.setBufBytes_fates (m : Memory) (s : State) : (State.setBufBytes m s).fates = s.fates := rfl
@[simp] theorem State.setBufBytes_rst (m : Memory) (s : State) : (State.setBufBytes m s).rst = s.rst := rfl
@[simp] theorem State.setBufBytes_others (m : Memory) (s : State) : (State.setBufBytes m s).others = s.others := rfl
@[simp] theorem State.setBufBytes_ownEdges (m : Memory) (s : State) : (State.setBufBytes m s).ownEdges = s.ownEdges := rfl
@[simp] theorem State.setBufBytes_delivered (m : Memory) (s : State) : (State.setBufBytes m s).delivered = s.delivered := rfl
@[simp] theorem State.setBufBytes_draws (m : Memory) (s : State) : (State.setBufBytes m s).draws = s.draws := rfl

/-! `State.setChip` -/

@[simp] theorem State.setChip_cfg (c : Chip) (s : State) : (State.setChip c s).cfg = s.cfg := rfl
@[simp] theorem State.setChip_st (c : Chip) (s : State) : (State.setChip c s).st = s.st := rfl
@[simp] theorem State.setChip_owner (c : Chip) (s : State) : (State.setChip c s).owner = s.owner := rfl
@[simp] theorem State.setChip_opL (c : Chip) (s : State) : (State.setChip c s).opL = s.opL := rfl
@[simp] theorem State.setChip_addrL (c : Chip) (s : State) : (State.setChip c s).addrL = s.addrL := rfl
@[simp] theorem State.setChip_lenL (c : Chip) (s : State) : (State.setChip c s).lenL = s.lenL := rfl
@[simp] theorem State.setChip_dataL (c : Chip) (s : State) : (State.setChip c s).dataL = s.dataL := rfl
@[simp] theorem State.setChip_curAddr (c : Chip) (s : State) : (State.setChip c s).curAddr = s.curAddr := rfl
@[simp] theorem State.setChip_remaining (c : Chip) (s : State) : (State.setChip c s).remaining = s.remaining := rfl
@[simp] theorem State.setChip_done (c : Chip) (s : State) : (State.setChip c s).done = s.done := rfl
@[simp] theorem State.setChip_phase (c : Chip) (s : State) : (State.setChip c s).phase = s.phase := rfl
@[simp] theorem State.setChip_srTmp (c : Chip) (s : State) : (State.setChip c s).srTmp = s.srTmp := rfl
@[simp] theorem State.setChip_errKind (c : Chip) (s : State) : (State.setChip c s).errKind = s.errKind := rfl
@[simp] theorem State.setChip_xfer (c : Chip) (s : State) : (State.setChip c s).xfer = s.xfer := rfl
@[simp] theorem State.setChip_chip (c : Chip) (s : State) : (State.setChip c s).chip = c := rfl
@[simp] theorem State.setChip_buf (c : Chip) (s : State) : (State.setChip c s).buf = s.buf := rfl
@[simp] theorem State.setChip_requests (c : Chip) (s : State) : (State.setChip c s).requests = s.requests := rfl
@[simp] theorem State.setChip_takes (c : Chip) (s : State) : (State.setChip c s).takes = s.takes := rfl
@[simp] theorem State.setChip_grants (c : Chip) (s : State) : (State.setChip c s).grants = s.grants := rfl
@[simp] theorem State.setChip_fates (c : Chip) (s : State) : (State.setChip c s).fates = s.fates := rfl
@[simp] theorem State.setChip_rst (c : Chip) (s : State) : (State.setChip c s).rst = s.rst := rfl
@[simp] theorem State.setChip_others (c : Chip) (s : State) : (State.setChip c s).others = s.others := rfl
@[simp] theorem State.setChip_ownEdges (c : Chip) (s : State) : (State.setChip c s).ownEdges = s.ownEdges := rfl
@[simp] theorem State.setChip_delivered (c : Chip) (s : State) : (State.setChip c s).delivered = s.delivered := rfl
@[simp] theorem State.setChip_draws (c : Chip) (s : State) : (State.setChip c s).draws = s.draws := rfl

/-! `State.draw` -/

@[simp] theorem State.draw_cfg (n : Nat) (s : State) : (State.draw n s).cfg = s.cfg := rfl
@[simp] theorem State.draw_st (n : Nat) (s : State) : (State.draw n s).st = s.st := rfl
@[simp] theorem State.draw_owner (n : Nat) (s : State) : (State.draw n s).owner = s.owner := rfl
@[simp] theorem State.draw_opL (n : Nat) (s : State) : (State.draw n s).opL = s.opL := rfl
@[simp] theorem State.draw_addrL (n : Nat) (s : State) : (State.draw n s).addrL = s.addrL := rfl
@[simp] theorem State.draw_lenL (n : Nat) (s : State) : (State.draw n s).lenL = s.lenL := rfl
@[simp] theorem State.draw_dataL (n : Nat) (s : State) : (State.draw n s).dataL = s.dataL := rfl
@[simp] theorem State.draw_curAddr (n : Nat) (s : State) : (State.draw n s).curAddr = s.curAddr := rfl
@[simp] theorem State.draw_remaining (n : Nat) (s : State) : (State.draw n s).remaining = s.remaining := rfl
@[simp] theorem State.draw_done (n : Nat) (s : State) : (State.draw n s).done = s.done := rfl
@[simp] theorem State.draw_phase (n : Nat) (s : State) : (State.draw n s).phase = s.phase := rfl
@[simp] theorem State.draw_srTmp (n : Nat) (s : State) : (State.draw n s).srTmp = s.srTmp := rfl
@[simp] theorem State.draw_errKind (n : Nat) (s : State) : (State.draw n s).errKind = s.errKind := rfl
@[simp] theorem State.draw_xfer (n : Nat) (s : State) : (State.draw n s).xfer = s.xfer := rfl
@[simp] theorem State.draw_chip (n : Nat) (s : State) : (State.draw n s).chip = s.chip := rfl
@[simp] theorem State.draw_buf (n : Nat) (s : State) : (State.draw n s).buf = s.buf := rfl
@[simp] theorem State.draw_requests (n : Nat) (s : State) : (State.draw n s).requests = s.requests := rfl
@[simp] theorem State.draw_takes (n : Nat) (s : State) : (State.draw n s).takes = s.takes := rfl
@[simp] theorem State.draw_grants (n : Nat) (s : State) : (State.draw n s).grants = s.grants := rfl
@[simp] theorem State.draw_fates (n : Nat) (s : State) : (State.draw n s).fates = s.fates := rfl
@[simp] theorem State.draw_rst (n : Nat) (s : State) : (State.draw n s).rst = s.rst := rfl
@[simp] theorem State.draw_others (n : Nat) (s : State) : (State.draw n s).others = s.others := rfl
@[simp] theorem State.draw_ownEdges (n : Nat) (s : State) : (State.draw n s).ownEdges = s.ownEdges := rfl
@[simp] theorem State.draw_delivered (n : Nat) (s : State) : (State.draw n s).delivered = s.delivered := rfl
@[simp] theorem State.draw_draws (n : Nat) (s : State) : (State.draw n s).draws = s.draws + n := rfl

/-! `State.raise` -/

@[simp] theorem State.raise_cfg (k : ErrKind) (s : State) : (State.raise k s).cfg = s.cfg := rfl
@[simp] theorem State.raise_st (k : ErrKind) (s : State) : (State.raise k s).st = .failed := rfl
@[simp] theorem State.raise_owner (k : ErrKind) (s : State) : (State.raise k s).owner = s.owner := rfl
@[simp] theorem State.raise_opL (k : ErrKind) (s : State) : (State.raise k s).opL = s.opL := rfl
@[simp] theorem State.raise_addrL (k : ErrKind) (s : State) : (State.raise k s).addrL = s.addrL := rfl
@[simp] theorem State.raise_lenL (k : ErrKind) (s : State) : (State.raise k s).lenL = s.lenL := rfl
@[simp] theorem State.raise_dataL (k : ErrKind) (s : State) : (State.raise k s).dataL = s.dataL := rfl
@[simp] theorem State.raise_curAddr (k : ErrKind) (s : State) : (State.raise k s).curAddr = s.curAddr := rfl
@[simp] theorem State.raise_remaining (k : ErrKind) (s : State) : (State.raise k s).remaining = s.remaining := rfl
@[simp] theorem State.raise_done (k : ErrKind) (s : State) : (State.raise k s).done = s.done := rfl
@[simp] theorem State.raise_phase (k : ErrKind) (s : State) : (State.raise k s).phase = s.phase := rfl
@[simp] theorem State.raise_srTmp (k : ErrKind) (s : State) : (State.raise k s).srTmp = s.srTmp := rfl
@[simp] theorem State.raise_errKind (k : ErrKind) (s : State) : (State.raise k s).errKind = k := rfl
@[simp] theorem State.raise_xfer (k : ErrKind) (s : State) : (State.raise k s).xfer = s.xfer := rfl
@[simp] theorem State.raise_chip (k : ErrKind) (s : State) : (State.raise k s).chip = s.chip := rfl
@[simp] theorem State.raise_buf (k : ErrKind) (s : State) : (State.raise k s).buf = s.buf := rfl
@[simp] theorem State.raise_requests (k : ErrKind) (s : State) : (State.raise k s).requests = s.requests := rfl
@[simp] theorem State.raise_takes (k : ErrKind) (s : State) : (State.raise k s).takes = s.takes := rfl
@[simp] theorem State.raise_grants (k : ErrKind) (s : State) : (State.raise k s).grants = s.grants := rfl
@[simp] theorem State.raise_fates (k : ErrKind) (s : State) : (State.raise k s).fates = s.fates := rfl
@[simp] theorem State.raise_rst (k : ErrKind) (s : State) : (State.raise k s).rst = s.rst := rfl
@[simp] theorem State.raise_others (k : ErrKind) (s : State) : (State.raise k s).others = s.others := rfl
@[simp] theorem State.raise_ownEdges (k : ErrKind) (s : State) : (State.raise k s).ownEdges = s.ownEdges := rfl
@[simp] theorem State.raise_delivered (k : ErrKind) (s : State) : (State.raise k s).delivered = s.delivered := rfl
@[simp] theorem State.raise_draws (k : ErrKind) (s : State) : (State.raise k s).draws = s.draws := rfl

/-! `State.deliver` -/

@[simp] theorem State.deliver_cfg (w : RspWord) (s : State) : (State.deliver w s).cfg = s.cfg := rfl
@[simp] theorem State.deliver_st (w : RspWord) (s : State) : (State.deliver w s).st = .idle := rfl
@[simp] theorem State.deliver_owner (w : RspWord) (s : State) : (State.deliver w s).owner = s.owner := rfl
@[simp] theorem State.deliver_opL (w : RspWord) (s : State) : (State.deliver w s).opL = s.opL := rfl
@[simp] theorem State.deliver_addrL (w : RspWord) (s : State) : (State.deliver w s).addrL = s.addrL := rfl
@[simp] theorem State.deliver_lenL (w : RspWord) (s : State) : (State.deliver w s).lenL = s.lenL := rfl
@[simp] theorem State.deliver_dataL (w : RspWord) (s : State) : (State.deliver w s).dataL = s.dataL := rfl
@[simp] theorem State.deliver_curAddr (w : RspWord) (s : State) : (State.deliver w s).curAddr = s.curAddr := rfl
@[simp] theorem State.deliver_remaining (w : RspWord) (s : State) : (State.deliver w s).remaining = s.remaining := rfl
@[simp] theorem State.deliver_done (w : RspWord) (s : State) : (State.deliver w s).done = s.done := rfl
@[simp] theorem State.deliver_phase (w : RspWord) (s : State) : (State.deliver w s).phase = s.phase := rfl
@[simp] theorem State.deliver_srTmp (w : RspWord) (s : State) : (State.deliver w s).srTmp = s.srTmp := rfl
@[simp] theorem State.deliver_errKind (w : RspWord) (s : State) : (State.deliver w s).errKind = s.errKind := rfl
@[simp] theorem State.deliver_xfer (w : RspWord) (s : State) : (State.deliver w s).xfer = s.xfer := rfl
@[simp] theorem State.deliver_chip (w : RspWord) (s : State) : (State.deliver w s).chip = s.chip := rfl
@[simp] theorem State.deliver_buf (w : RspWord) (s : State) : (State.deliver w s).buf = s.buf := rfl
@[simp] theorem State.deliver_requests (w : RspWord) (s : State) : (State.deliver w s).requests = s.requests := rfl
@[simp] theorem State.deliver_takes (w : RspWord) (s : State) : (State.deliver w s).takes = s.takes := rfl
@[simp] theorem State.deliver_grants (w : RspWord) (s : State) : (State.deliver w s).grants = s.grants := rfl
@[simp] theorem State.deliver_fates (w : RspWord) (s : State) : (State.deliver w s).fates = s.fates := rfl
@[simp] theorem State.deliver_rst (w : RspWord) (s : State) : (State.deliver w s).rst = s.rst := rfl
@[simp] theorem State.deliver_others (w : RspWord) (s : State) : (State.deliver w s).others = s.others := rfl
@[simp] theorem State.deliver_ownEdges (w : RspWord) (s : State) : (State.deliver w s).ownEdges = s.ownEdges := rfl
@[simp] theorem State.deliver_delivered (w : RspWord) (s : State) : (State.deliver w s).delivered = s.delivered ++ [w] := rfl
@[simp] theorem State.deliver_draws (w : RspWord) (s : State) : (State.deliver w s).draws = s.draws := rfl

/-- `own_req` is high while the block asks for the bus and while it owns it (10_state.md R38). -/
theorem State.ownReq_iff (s : State) : s.ownReq = true ↔ s.st = .issuing ∨ s.owner = true := by
  unfold State.ownReq
  cases s.owner <;> simp

/-! `State.quiesce` -/

@[simp] theorem State.quiesce_cfg (s : State) : (State.quiesce s).cfg = s.cfg := rfl
@[simp] theorem State.quiesce_st (s : State) : (State.quiesce s).st = .idle := rfl
@[simp] theorem State.quiesce_owner (s : State) : (State.quiesce s).owner = false := rfl
@[simp] theorem State.quiesce_opL (s : State) : (State.quiesce s).opL = s.opL := rfl
@[simp] theorem State.quiesce_addrL (s : State) : (State.quiesce s).addrL = s.addrL := rfl
@[simp] theorem State.quiesce_lenL (s : State) : (State.quiesce s).lenL = s.lenL := rfl
@[simp] theorem State.quiesce_dataL (s : State) : (State.quiesce s).dataL = s.dataL := rfl
@[simp] theorem State.quiesce_curAddr (s : State) : (State.quiesce s).curAddr = s.curAddr := rfl
@[simp] theorem State.quiesce_remaining (s : State) : (State.quiesce s).remaining = s.remaining := rfl
@[simp] theorem State.quiesce_done (s : State) : (State.quiesce s).done = s.done := rfl
@[simp] theorem State.quiesce_phase (s : State) : (State.quiesce s).phase = s.phase := rfl
@[simp] theorem State.quiesce_srTmp (s : State) : (State.quiesce s).srTmp = s.srTmp := rfl
@[simp] theorem State.quiesce_errKind (s : State) : (State.quiesce s).errKind = s.errKind := rfl
@[simp] theorem State.quiesce_xfer (s : State) : (State.quiesce s).xfer = .idle := rfl
@[simp] theorem State.quiesce_chip (s : State) : (State.quiesce s).chip = s.chip := rfl
@[simp] theorem State.quiesce_buf (s : State) : (State.quiesce s).buf = s.buf := rfl
@[simp] theorem State.quiesce_requests (s : State) : (State.quiesce s).requests = s.requests := rfl
@[simp] theorem State.quiesce_takes (s : State) : (State.quiesce s).takes = s.takes := rfl
@[simp] theorem State.quiesce_grants (s : State) : (State.quiesce s).grants = s.grants := rfl
@[simp] theorem State.quiesce_fates (s : State) : (State.quiesce s).fates = s.fates := rfl
@[simp] theorem State.quiesce_rst (s : State) : (State.quiesce s).rst = s.rst := rfl
@[simp] theorem State.quiesce_others (s : State) : (State.quiesce s).others = s.others := rfl
@[simp] theorem State.quiesce_ownEdges (s : State) : (State.quiesce s).ownEdges = if s.ownReq then s.ownEdges ++ [.fall] else s.ownEdges := rfl
@[simp] theorem State.quiesce_delivered (s : State) : (State.quiesce s).delivered = s.delivered := rfl
@[simp] theorem State.quiesce_draws (s : State) : (State.quiesce s).draws = s.draws := rfl

/-! `State.scramble`: the fields it leaves alone. -/

@[simp] theorem State.scramble_cfg (s : State) : (State.scramble s).cfg = s.cfg := rfl
@[simp] theorem State.scramble_st (s : State) : (State.scramble s).st = s.st := rfl
@[simp] theorem State.scramble_owner (s : State) : (State.scramble s).owner = s.owner := rfl
@[simp] theorem State.scramble_xfer (s : State) : (State.scramble s).xfer = s.xfer := rfl
@[simp] theorem State.scramble_chip (s : State) : (State.scramble s).chip = s.chip := rfl
@[simp] theorem State.scramble_buf (s : State) : (State.scramble s).buf = s.buf := rfl
@[simp] theorem State.scramble_requests (s : State) : (State.scramble s).requests = s.requests := rfl
@[simp] theorem State.scramble_takes (s : State) : (State.scramble s).takes = s.takes := rfl
@[simp] theorem State.scramble_grants (s : State) : (State.scramble s).grants = s.grants := rfl
@[simp] theorem State.scramble_fates (s : State) : (State.scramble s).fates = s.fates := rfl
@[simp] theorem State.scramble_rst (s : State) : (State.scramble s).rst = s.rst := rfl
@[simp] theorem State.scramble_others (s : State) : (State.scramble s).others = s.others := rfl
@[simp] theorem State.scramble_ownEdges (s : State) : (State.scramble s).ownEdges = s.ownEdges := rfl
@[simp] theorem State.scramble_delivered (s : State) : (State.scramble s).delivered = s.delivered := rfl

end Sys2Proof.Machine
end

