-- ==== Sys2Proof/Laws/Frames.lean ====
section
/-! SUPPORT. What a step of the Transport can do, said once. -/

namespace Sys2Proof.Machine

@[simp] theorem freeBytes_length (n k : Nat) : (freeBytes n k).length = k := by simp [freeBytes]

@[simp] theorem Answer.fit_err (n : Nat) : Answer.fit n .err = .err := rfl

/-- Whatever the environment answers arrives with the frame's length (10_state.md R44). -/
theorem Answer.fit_ok (n : Nat) (inb : List Byte) :
    ∃ l, Answer.fit n (.ok inb) = .ok l ∧ l.length = n := ⟨_, rfl, by simp⟩

/-- An answer of the right length is not touched. -/
theorem Answer.fit_eq {n : Nat} {a : Answer} (h : ∀ inb, a = .ok inb → inb.length = n) : a.fit n = a := by
  cases a with
  | err => rfl
  | ok inb =>
    have hl := h inb rfl
    subst hl
    simp only [Answer.fit, Answer.ok.injEq]
    refine List.ext_getElem (by simp) fun j h1 h2 => ?_
    simp [List.getD_eq_getElem?_getD, h2]

/-- Busy, complete, failed, or answered by the environment (10_state.md R44, R56, 20_memory.md R92). -/
theorem transfer_cases (len : Nat) (inb : List Byte) (drawn : Nat) (after : Chip) (cut : Nat → Chip)
    (cutDrawn : Nat) (s : State) :
    (s.fates.head = .busy ∧ transfer len inb drawn after cut cutDrawn s = s.popFate) ∨
    (s.fates.head = .complete ∧ transfer len inb drawn after cut cutDrawn s =
      ((s.popFate.setChip after).draw drawn).answer (.ok inb)) ∨
    (∃ n, s.fates.head = .fail n ∧ transfer len inb drawn after cut cutDrawn s =
      ((s.popFate.setChip (cut (receivedOf len n))).draw cutDrawn).answer .err) ∨
    (∃ a did, s.fates.head = .reply a did ∧ transfer len inb drawn after cut cutDrawn s =
      (s.popFate.setChip (s.chip.change did)).answer (a.fit len)) := by
  unfold transfer
  cases s.fates.head <;> simp

theorem dataFrameRefusal_none {p : List Byte} {s : State} :
    dataFrameRefusal p s = none ↔ p ≠ [] ∧ (s.fates.head.byChip = true → chipSequential s.cfg s.chip = true) := by
  unfold dataFrameRefusal
  by_cases hp : p = [] <;> by_cases hf : s.fates.head.byChip = true <;>
    by_cases hc : chipSequential s.cfg s.chip = true <;> simp [hp, hf, hc]

theorem execFrameRead_next {a : Half} {p : List Byte} {s t : State} (h : execFrameRead a p s = .next t) :
    p ≠ [] ∧ (s.fates.head.byChip = true → chipSequential s.cfg s.chip = true) ∧
      t = transfer (3 + p.length) (freeBytes s.draws 3 ++ s.chip.mem.readBytes (chipLoc a) p.length) 3
        (chipAfterRead a p.length s.chip) (fun _ => s.chip) 0 s := by
  unfold execFrameRead at h
  split at h
  · cases h
  · rename_i hn; cases h; exact ⟨(dataFrameRefusal_none.1 hn).1, (dataFrameRefusal_none.1 hn).2, rfl⟩

theorem execFrameWrite_next {a : Half} {p : List Byte} {s t : State} (h : execFrameWrite a p s = .next t) :
    p ≠ [] ∧ (s.fates.head.byChip = true → chipSequential s.cfg s.chip = true) ∧
      t = transfer (3 + p.length) (freeBytes s.draws (3 + p.length)) (3 + p.length) (chipAfterWrite a p s.chip)
        (fun got => chipCutWrite a p got s.draws s.chip) 1 s := by
  unfold execFrameWrite at h
  split at h
  · cases h
  · rename_i hn; cases h; exact ⟨(dataFrameRefusal_none.1 hn).1, (dataFrameRefusal_none.1 hn).2, rfl⟩

/-- A data frame that meets a chip in SEQUENTIAL mode, or whose answer is the environment's, is never refused. -/
theorem execFrameRead_of_sequential {a : Half} {p : List Byte} {s : State} (hp : p ≠ [])
    (hc : s.fates.head.byChip = true → chipSequential s.cfg s.chip = true) : ∃ t, execFrameRead a p s = .next t := by
  simp [execFrameRead, dataFrameRefusal_none.2 ⟨hp, hc⟩]

theorem execFrameWrite_of_sequential {a : Half} {p : List Byte} {s : State} (hp : p ≠ [])
    (hc : s.fates.head.byChip = true → chipSequential s.cfg s.chip = true) : ∃ t, execFrameWrite a p s = .next t := by
  simp [execFrameWrite, dataFrameRefusal_none.2 ⟨hp, hc⟩]

/-- The bytes a frame writes keep the chip's memory in canonical form and below 32768. -/
theorem chip_writeBytes_wf {m : Memory} (a : Half) (p : List Byte) (h : m.wf = true) :
    (m.writeBytes (chipLoc a) 0 p).wf = true := Memory.wf_writeBytes _ _ _ h

theorem chip_writeBytes_below {m : Memory} (a : Half) (p : List Byte) (h : m.below Config.chipSize = true) :
    (m.writeBytes (chipLoc a) 0 p).below Config.chipSize = true :=
  Memory.below_writeBytes _ _ _ (fun i _ _ => chipLoc_lt a i) h

/-- What another agent does keeps the chip's memory in canonical form and below 32768. -/
theorem chip_change_wf {k : Chip} (c : ChipChange) (hw : k.mem.wf = true) (hb : k.mem.below Config.chipSize = true) :
    (k.change c).mem.wf = true ∧ (k.change c).mem.below Config.chipSize = true := by
  unfold Chip.change
  generalize k.mem = m at hw hb
  induction c.bytes generalizing m with
  | nil => exact ⟨hw, hb⟩
  | cons w ws ih => exact ih _ (Memory.wf_write _ _ hw) (Memory.below_write (by have := w.1.isLt; unfold Config.chipSize; omega) hb)

end Sys2Proof.Machine
end

