-- ==== Sys2Proof/Laws/Planner.lean ====
section
/-! SUPPORT. The planner's verdicts and the progress registers' arithmetic. -/

namespace Sys2Proof.Machine

/-- The plan passes exactly when `1 ≤ N < 65536` and `A + N ≤ 32768` (41_chunk_planner.md R152 to R154). -/
theorem planCheck_chunks {a n : Nat} : planCheck a n = .chunks ↔ 1 ≤ n ∧ a + n ≤ Config.chipSize := by
  unfold planCheck Config.chipSize
  split_ifs <;> simp <;> omega

theorem planCheck_nothing {a n : Nat} : planCheck a n = .nothing ↔ n = 0 := by
  unfold planCheck
  split_ifs <;> simp <;> omega

theorem State.chunkLen_le (s : State) : s.chunkLen ≤ s.remaining.toNat := Nat.min_le_left ..

theorem State.chunkLen_le_maxChunk (s : State) : s.chunkLen ≤ s.cfg.maxChunk := Nat.min_le_right ..

theorem State.chunkLen_pos {s : State} (hm : 1 ≤ s.cfg.maxChunk) (h : 1 ≤ s.remaining.toNat) : 1 ≤ s.chunkLen :=
  Nat.le_min.2 ⟨h, hm⟩

/-- A progress register that does not carry out of 16 bits (R160). -/
theorem half_add_toNat (x : Half) {l : Nat} (h : x.toNat + l < 65536) : (x + BitVec.ofNat 16 l).toNat = x.toNat + l := by
  simp [BitVec.toNat_add]; omega

/-- A progress register that does not borrow (R160). -/
theorem half_sub_toNat (x : Half) {l : Nat} (h : l ≤ x.toNat) : (x - BitVec.ofNat 16 l).toNat = x.toNat - l := by
  have := x.isLt
  simp [BitVec.toNat_sub]; omega

end Sys2Proof.Machine
end

