-- ==== Sys2Proof/Laws/Sequencer.lean ====
section
/-! SUPPORT. What each shared transition of the sequencer can do, said once. -/

namespace Sys2Proof.Machine

/-- The transitions of an operation, one for each value of `st` (42_sequencer_data_ops.md R170). -/
theorem operation_next {op : BitVec 3} {admission : ReqFields → State → Option Refusal} {planned : State → State}
    {issue : State → Result} {onOk : List Byte → State → Result} {data : State → Byte} {r : ReqFields} {s t : State}
    (h : operation op admission planned issue onOk data r s = .next t) :
    (s.st = .idle ∧ admission r s = none ∧ t = s.accept op r) ∨
    (s.st = .planning ∧ t = planned s) ∨
    (s.st = .issuing ∧ s.owner = true ∧ issue s = .next t) ∨
    (s.st = .issuing ∧ s.owner = false ∧ t = tAcquire s) ∨
    (s.st = .waiting ∧ tAnswer onOk s = .next t) ∨
    ((s.st = .complete ∨ s.st = .failed) ∧ t = tReport data s) := by
  unfold operation at h
  split at h
  next hst =>
    unfold tAccept at h
    split at h
    · cases h
    · rename_i ha; cases h; exact .inl ⟨hst, ha, rfl⟩
  next hst => cases h; exact .inr (.inl ⟨hst, rfl⟩)
  next hst =>
    split at h
    · exact .inr (.inr (.inl ⟨hst, ‹_›, h⟩))
    · rename_i ho; cases h; exact .inr (.inr (.inr (.inl ⟨hst, by simpa using ho, rfl⟩)))
  next hst => exact .inr (.inr (.inr (.inr (.inl ⟨hst, h⟩))))
  next hst => cases h; exact .inr (.inr (.inr (.inr (.inr ⟨.inl hst, rfl⟩))))
  next hst => cases h; exact .inr (.inr (.inr (.inr (.inr ⟨.inr hst, rfl⟩))))

/-- WAITING: an answer of the frame's length is taken, `Err` ends the Operation, no answer changes nothing. -/
theorem tAnswer_next {onOk : List Byte → State → Result} {s t : State} (h : tAnswer onOk s = .next t) :
    (∃ inb, s.xfer = .answered (.ok inb) ∧ inb.length = s.frameLen ∧ onOk inb s.endTransfer = .next t) ∨
    (s.xfer = .answered .err ∧ t = tErr s) ∨
    ((∀ a, s.xfer ≠ .answered a) ∧ t = s) := by
  unfold tAnswer at h
  split at h
  next inb hx =>
    split at h
    · exact .inl ⟨inb, hx, ‹_›, h⟩
    · cases h
  next hx => cases h; exact .inr (.inl ⟨hx, rfl⟩)
  next out hx => cases h; exact .inr (.inr ⟨by simp [hx], rfl⟩)
  next hx => cases h; exact .inr (.inr ⟨by simp [hx], rfl⟩)

/-- T_PLAN of a data operation: an error kind, an empty plan, or the first chunk (R172). -/
theorem tPlanData_cases (s : State) :
    (planCheck s.addrL.toNat s.lenL.toNat = .invalidLength ∧ tPlanData s = (s.setDone 0#16).raise .invalidLength) ∨
    (planCheck s.addrL.toNat s.lenL.toNat = .addressRange ∧ tPlanData s = (s.setDone 0#16).raise .addressRange) ∨
    (planCheck s.addrL.toNat s.lenL.toNat = .nothing ∧ tPlanData s = (s.setDone 0#16).finish) ∨
    (planCheck s.addrL.toNat s.lenL.toNat = .chunks ∧
      tPlanData s = (s.setDone 0#16).loadProgress.request.toPhase .rdsr) := by
  unfold tPlanData
  cases h : planCheck s.addrL.toNat s.lenL.toNat <;> simp

theorem tAcquire_cases (s : State) :
    (s.grants.head = true ∧ tAcquire s = s.popGrant.acquire) ∨ (s.grants.head = false ∧ tAcquire s = s.popGrant) := by
  unfold tAcquire
  cases s.grants.head <;> simp

theorem tReport_cases (data : State → Byte) (s : State) :
    (s.takes.head = true ∧ tReport data s = s.popTake.deliver (resultWord (data s) s)) ∨
    (s.takes.head = false ∧ tReport data s = s.popTake) := by
  unfold tReport
  cases s.takes.head <;> simp

/-- T_ISSUE: the frame of the phase goes out, or the data frame's own rule applies (R175). -/
theorem issueData_next {body : State → Result} {s t : State} (h : issueData body s = .next t) :
    (s.phase = .rdsr ∧ t = s.send (rdsrFrame s.cfg)) ∨ (s.phase = .wrsr ∧ t = s.send (wrsrFrame s.srTmp)) ∨
    (s.phase = .data ∧ body s = .next t) := by
  unfold issueData at h
  split at h
  · cases h; exact .inl ⟨‹_›, rfl⟩
  · cases h; exact .inr (.inl ⟨‹_›, rfl⟩)
  · exact .inr (.inr ⟨‹_›, h⟩)

theorem issueWriteChunk_next {s t : State} (h : issueWriteChunk s = .next t) :
    s.done.toNat + s.chunkLen ≤ s.buf.size ∧ t = s.send (writeFrame s.curAddr s.chunkBytes) := by
  unfold issueWriteChunk State.chunkInBuffer at h
  split at h
  · cases h; exact ⟨of_decide_eq_true ‹_›, rfl⟩
  · cases h

/-- The end of a chunk (R180): the Operation is complete, or its next chunk starts with a new window. -/
theorem chunkDone_cases (s : State) :
    (s.remaining - BitVec.ofNat 16 s.chunkLen = 0#16 ∧ chunkDone s = ((s.advance s.chunkLen).release).finish) ∨
    (s.remaining - BitVec.ofNat 16 s.chunkLen ≠ 0#16 ∧ chunkDone s = ((s.advance s.chunkLen).release).request.toPhase .rdsr) := by
  unfold chunkDone
  by_cases h : s.remaining - BitVec.ofNat 16 s.chunkLen = 0#16 <;> simp [h]

theorem okReadChunk_next {inb : List Byte} {s t : State} (h : okReadChunk inb s = .next t) :
    s.done.toNat + s.chunkLen ≤ s.buf.size ∧ t = chunkDone (s.storeChunk inb) := by
  unfold okReadChunk State.chunkInBuffer at h
  split at h
  · cases h; exact ⟨of_decide_eq_true ‹_›, rfl⟩
  · cases h

/-- T_OK of a data operation (R178, R179, R180). -/
theorem okData_next {chunk : List Byte → State → Result} {inb : List Byte} {s t : State}
    (h : okData chunk inb s = .next t) :
    (s.phase = .rdsr ∧ t = okEnsure inb s) ∨ (s.phase = .wrsr ∧ t = s.toPhase .data) ∨
    (s.phase = .data ∧ chunk inb s = .next t) := by
  unfold okData at h
  split at h
  · cases h; exact .inl ⟨‹_›, rfl⟩
  · cases h; exact .inr (.inl ⟨‹_›, rfl⟩)
  · exact .inr (.inr ⟨‹_›, h⟩)

theorem okGet_next {inb : List Byte} {s t : State} (h : okGet inb s = .next t) :
    s.phase = .rdsr ∧ t = statusDone (s.setSrTmp (rdsrData inb)) := by
  unfold okGet at h
  split at h
  · cases h; exact ⟨‹_›, rfl⟩
  · cases h

theorem okSetStatus_next {inb : List Byte} {s t : State} (h : okSetStatus inb s = .next t) :
    s.phase = .wrsr ∧ t = statusDone s := by
  unfold okSetStatus at h
  split at h
  · cases h; exact ⟨‹_›, rfl⟩
  · cases h

theorem okSetMode_next {inb : List Byte} {s t : State} (h : okSetMode inb s = .next t) :
    (s.phase = .rdsr ∧
      t = (s.setSrTmp (withMode s.cfg (rdsrData inb) (modeOperand s.dataL))).toPhase .wrsr) ∨
    (s.phase = .wrsr ∧ t = statusDone s) := by
  unfold okSetMode at h
  split at h
  · cases h; exact .inl ⟨‹_›, rfl⟩
  · cases h; exact .inr ⟨‹_›, rfl⟩
  · cases h

theorem admitData_none {r : ReqFields} {s : State} : admitData r s = none ↔ r.len.toNat ≤ s.buf.size := by
  unfold admitData
  split <;> simp <;> omega

end Sys2Proof.Machine
end

