-- ==== Sys2Proof/Laws/Step.lean ====
section
/-! SUPPORT. What a step can be, said once: a reset edge, an idle wait, or the meaning of the instruction fetched. -/

namespace Sys2Proof.Machine

theorem runDecoded_run {d : Except DecodeError Instr} {s u : State} {i : Instr} (h : runDecoded d s = .run i u) :
    d = .ok i ∧ u = s := by
  cases d <;> simp_all [runDecoded]

theorem runDecoded_ne_settle (d : Except DecodeError Instr) (s u : State) : runDecoded d s ≠ .settle u := by
  cases d <;> simp [runDecoded]

/-- What is run: the offered request, the frame in flight, or the Operation in the latches. -/
theorem fetch_run {s u : State} {i : Instr} (h : fetch s = .run i u) :
    (s.st = .idle ∧ ∃ q, s.requests.head = some q ∧ decodeRequest s.cfg q.word = .ok i ∧ u = s.offer q) ∨
    (s.st = .waiting ∧ ∃ out, s.xfer = .sent out ∧ decodeFrame out = .ok i ∧ u = s) ∨
    (s.st ≠ .idle ∧ (s.st = .waiting → ∀ out, s.xfer ≠ .sent out) ∧
      decodeFields s.opL s.latched = .ok i ∧ u = s) := by
  unfold fetch at h
  split at h
  next hst =>
    split at h
    · cases h
    · next q hq => exact .inl ⟨hst, q, hq, runDecoded_run h⟩
  next hst =>
    split at h
    · next out hx => exact .inr (.inl ⟨hst, out, hx, runDecoded_run h⟩)
    · next hx => exact .inr (.inr ⟨by simp [hst], fun _ out ho => hx out ho, runDecoded_run h⟩)
  next h1 h2 => exact .inr (.inr ⟨h1, fun hw => absurd hw h2, runDecoded_run h⟩)

/-- What is not run: IDLE with nothing offered. -/
theorem fetch_settle {s u : State} (h : fetch s = .settle u) :
    s.st = .idle ∧ s.requests.head = none ∧ u = s.popRequest := by
  unfold fetch at h
  split at h
  next hst =>
    split at h
    · next hq => cases h; exact ⟨hst, hq, rfl⟩
    · exact absurd h (runDecoded_ne_settle _ _ _)
  next =>
    split at h
    · exact absurd h (runDecoded_ne_settle _ _ _)
    · exact absurd h (runDecoded_ne_settle _ _ _)
  next => exact absurd h (runDecoded_ne_settle _ _ _)

/-- A reset edge: the block is reset; a frame in flight has been cut off by the Transport. -/
theorem resetEdge_settle {s u : State} (h : resetEdge s = .settle u) :
    ((s.st ≠ .waiting ∨ ∀ out, s.xfer ≠ .sent out) ∧ u = resetBlock s) ∨
    (s.st = .waiting ∧ ∃ out i t, s.xfer = .sent out ∧ decodeFrame out = .ok i ∧ cutFrame i s = .next t ∧
      u = resetBlock t) := by
  unfold resetEdge at h
  split at h
  next out hst hx =>
    split at h
    · cases h
    · next i hd =>
      split at h
      · next t ht => cases h; exact .inr ⟨hst, out, i, t, hx, hd, ht, rfl⟩
      · cases h
      · cases h
  next hne =>
    cases h
    refine .inl ⟨?_, rfl⟩
    by_contra hc
    push Not at hc
    obtain ⟨h1, out, h2⟩ := hc
    exact hne out h1 h2

/-- An edge with `rst` high. -/
theorem nextAction_rst {s : State} (hl : s.cfg.legal = true) (hr : s.rst.head = true) :
    nextAction s = resetEdge s.tick := by
  unfold nextAction; rw [if_pos hl, if_pos hr]

/-- An edge with `rst` low. -/
theorem nextAction_fetch {s : State} (hl : s.cfg.legal = true) (hr : s.rst.head = false) :
    nextAction s = fetch s.tick := by
  unfold nextAction; rw [if_pos hl, if_neg (by rw [hr]; decide)]

/-- No edge at all under an illegal configuration. -/
theorem nextAction_illegal {s : State} (hl : s.cfg.legal = false) : nextAction s = .reject .illegalConfig := by
  unfold nextAction; rw [if_neg (by rw [hl]; decide)]

/-- A step that answers a next state, with everything that can have happened. -/
theorem step_next {s t : State} (h : step s = .next t) :
    s.cfg.legal = true ∧
    ((s.rst.head = true ∧ resetEdge s.tick = .settle t) ∨
     (s.rst.head = false ∧ s.st = .idle ∧ s.requests.head = none ∧ t = s.tick.popRequest) ∨
     (s.rst.head = false ∧ ∃ i u, fetch s.tick = .run i u ∧ exec i u = .next t)) := by
  unfold step at h
  cases hl : s.cfg.legal with
  | false => rw [nextAction_illegal hl] at h; cases h
  | true =>
    refine ⟨rfl, ?_⟩
    cases hr : s.rst.head with
    | true =>
      rw [nextAction_rst hl hr] at h
      have hrun : ∀ i u, resetEdge s.tick ≠ .run i u := by
        intro i u he
        unfold resetEdge at he
        repeat' split at he
        all_goals cases he
      cases he : resetEdge s.tick with
      | run i u => exact absurd he (hrun i u)
      | settle u => rw [he] at h; cases h; exact .inl ⟨rfl, rfl⟩
      | reject why => rw [he] at h; cases h
    | false =>
      rw [nextAction_fetch hl hr] at h
      cases hf : fetch s.tick with
      | run i u => rw [hf] at h; exact .inr (.inr ⟨rfl, i, u, rfl, h⟩)
      | settle u =>
        rw [hf] at h; cases h
        obtain ⟨h1, h2, h3⟩ := fetch_settle hf
        exact .inr (.inl ⟨rfl, by simpa using h1, by simpa using h2, h3⟩)
      | reject why => rw [hf] at h; cases h

end Sys2Proof.Machine
end

