-- ==== Sys2Proof/Laws/Safety.lean ====
section
/-! SUPPORT. The parts of the invariant depend on few fields: each carries over between states that agree on them. -/

namespace Sys2Proof.Machine

theorem State.progress_iff (s : State) :
    s.Progress ↔ planCheck s.addrL.toNat s.lenL.toNat = .chunks ∧
      s.curAddr.toNat = s.addrL.toNat + s.done.toNat ∧ s.done.toNat + s.remaining.toNat = s.lenL.toNat ∧
      1 ≤ s.remaining.toNat ∧ s.cfg.maxChunk ∣ s.done.toNat :=
  ⟨fun ⟨a, b, c, d, e⟩ => ⟨a, b, c, d, e⟩, fun ⟨a, b, c, d, e⟩ => ⟨a, b, c, d, e⟩⟩

theorem State.statusPhase_iff (s : State) :
    s.StatusPhase ↔ s.done = 0#16 ∧ (match s.opL.toNat with
      | 3 => s.phase = .wrsr
      | 5 => s.phase ≠ .data
      | _ => s.phase = .rdsr) :=
  ⟨fun ⟨a, b⟩ => ⟨a, b⟩, fun ⟨a, b⟩ => ⟨a, b⟩⟩

theorem State.Progress.of_eq {s t : State} (h : s.Progress) (hc : t.cfg = s.cfg) (ha : t.addrL = s.addrL)
    (hl : t.lenL = s.lenL) (hca : t.curAddr = s.curAddr) (hr : t.remaining = s.remaining) (hd : t.done = s.done) :
    t.Progress := by
  rw [State.progress_iff] at h ⊢
  rwa [hc, ha, hl, hca, hr, hd]

theorem State.StatusPhase.of_eq {s t : State} (h : s.StatusPhase) (hd : t.done = s.done) (ho : t.opL = s.opL)
    (hp : t.phase = s.phase) : t.StatusPhase := by
  rw [State.statusPhase_iff] at h ⊢
  rwa [hd, ho, hp]

theorem State.InFlight.of_eq {s t : State} (h : s.InFlight) (hx : t.xfer = s.xfer) (hf : t.frameOut = s.frameOut)
    (hl : t.frameLen = s.frameLen) : t.InFlight := by
  unfold State.InFlight at h ⊢
  rwa [hx, hf, hl]

/-- Off the bus the chip has nothing to agree with. -/
theorem State.ChipAgrees.of_off_bus {s : State} (h : ¬ s.inBus) : s.ChipAgrees :=
  ⟨fun hb => absurd hb h, fun hw => absurd (.inr hw) h, fun hw => absurd (.inr hw) h⟩

/-- With no answer pending, only the data frame's mode matters. -/
theorem State.ChipAgrees.of_no_answer {s : State} (hx : ∀ inb, s.xfer ≠ .answered (.ok inb))
    (h : s.inBus → s.isData → s.phase = .data → chipSequential s.cfg s.chip = true) : s.ChipAgrees :=
  ⟨h, fun _ inb e => absurd e (hx inb), fun _ inb e => absurd e (hx inb)⟩

/-- Nobody else reaches the chip, so every edge finds it as it was. -/
theorem State.SoleUser.edgeChip {s : State} (h : s.SoleUser) : s.edgeChip = s.chip := by
  unfold State.SoleUser at h
  unfold State.edgeChip
  rw [h]
  cases s.owner <;> rfl

theorem State.SoleUser.of_eq {s t : State} (h : s.SoleUser) (he : t.others = s.others ∨ t.others = s.others.pop) :
    t.SoleUser := by
  unfold State.SoleUser at h ⊢
  rcases he with e | e <;> rw [e, h]
  rfl

/-- A legal configuration's bounds, in the form the arithmetic needs. -/
theorem Config.legal_bounds {c : Config} (h : c.legal = true) :
    1 ≤ c.maxChunk ∧ c.maxChunk ≤ 65535 ∧ c.modeShift ≤ 6 ∧ 16 ≤ c.addrW ∧ c.addrW ≤ 32 ∧ 16 ≤ c.lenW ∧ c.lenW ≤ 32 := by
  simp only [Config.legal, decide_eq_true_eq] at h
  omega

/-- An operation code that decodes is one of the six. -/
theorem decodeFields_op {op : BitVec 3} {r : ReqFields} {i : Instr} (h : decodeFields op r = .ok i) :
    op = 0#3 ∨ op = 1#3 ∨ op = 2#3 ∨ op = 3#3 ∨ op = 4#3 ∨ op = 5#3 := by
  rcases decodeFields_ok h with h | h | h | h | h | h <;> simp [h.1]

/-- The progress registers of a chunk neither carry nor borrow (41_chunk_planner.md R160). -/
theorem advance_toNat {s : State} (hp : s.Progress) :
    (s.advance s.chunkLen).curAddr.toNat = s.curAddr.toNat + s.chunkLen ∧
    (s.advance s.chunkLen).remaining.toNat = s.remaining.toNat - s.chunkLen ∧
    (s.advance s.chunkLen).done.toNat = s.done.toNat + s.chunkLen := by
  have h := planCheck_chunks.1 hp.planned
  have hc : Config.chipSize = 32768 := rfl
  have h1 := s.chunkLen_le
  have h2 := hp.curAddr
  have h3 := hp.remaining
  exact ⟨half_add_toNat _ (by omega), half_sub_toNat _ h1, half_add_toNat _ (by omega)⟩

/-- In IDLE the invariant asks nothing of the registers but their widths (10_state.md R55). -/
theorem State.Inv.of_idle {s : State} (legal : s.cfg.legal = true) (fits : s.latched.fit s.cfg = true)
    (chipWf : s.chip.wf = true) (bufWf : s.buf.wf = true) (offers : offersWf s.requests) (hst : s.st = .idle)
    (ho : s.owner = false) (hx : s.xfer = .idle) (he : s.ownEdges.getLast? ≠ some .rise) : s.Inv := by
  refine ⟨legal, fits, chipWf, bufWf, offers, ?_, ?_, ?_, ?_, ?_, ?_, ?_, ?_, ?_, ?_, ?_, ?_, ?_, ?_, ?_, ?_, ?_⟩ <;>
    simp [State.inBus, State.ownReq, hst, ho, hx, he]

/-! ### Runs -/

@[simp] theorem runSteps_zero (s : State) : runSteps 0 s = .next s := rfl

theorem runSteps_eq (k : Nat) (s : State) :
    runSteps (k + 1) s = match step s with
      | .next t => runSteps k t
      | .fault r => .fault r
      | .refused r => .refused r := by
  cases h : step s with
  | next t => have h' : Sys2Proof.core.step s = .next t := h; simp only [runSteps, Host.Core.run, h']; rfl
  | fault r => have h' : Sys2Proof.core.step s = .fault r := h; simp only [runSteps, Host.Core.run, h']; rfl
  | refused r => have h' : Sys2Proof.core.step s = .refused r := h; simp only [runSteps, Host.Core.run, h']; rfl

theorem runSteps_succ {k : Nat} {s t : State} (h : step s = .next t) : runSteps (k + 1) s = runSteps k t := by
  rw [runSteps_eq, h]

/-- Runs compose. -/
theorem runSteps_trans {j k : Nat} {s t : State} (h : runSteps j s = .next t) : runSteps (j + k) s = runSteps k t := by
  induction j generalizing s with
  | zero => cases h; rw [Nat.zero_add]
  | succ j ih =>
    rw [Nat.succ_add, runSteps_eq]
    rw [runSteps_eq] at h
    split at h
    · exact ih h
    · cases h
    · cases h

end Sys2Proof.Machine
end

