-- ==== Sys2Proof/Laws/Exec.lean ====
section
/-! SUPPORT. Everything a transition of an operation and everything a step can be, said once over all instructions. -/

namespace Sys2Proof.Machine

theorem IsOperation.isDataOp_iff {i : Instr} {op : BitVec 3} {r : ReqFields} (h : IsOperation i op r) :
    IsDataOp i r ↔ (op = 0b000#3 ∨ op = 0b001#3) := by
  rcases h with ⟨rfl, rfl⟩ | ⟨rfl, rfl⟩ | ⟨rfl, rfl⟩ | ⟨rfl, rfl⟩ | ⟨rfl, rfl⟩ | ⟨rfl, rfl⟩ <;> simp [IsDataOp]

theorem decodeFields_isOperation {op : BitVec 3} {r : ReqFields} {i : Instr}
    (h : decodeFields op r = .ok i) : IsOperation i op r := by
  rcases decodeFields_ok h with ⟨rfl, rfl⟩ | ⟨rfl, rfl⟩ | ⟨rfl, rfl⟩ | ⟨rfl, rfl⟩ | ⟨rfl, rfl⟩ | ⟨rfl, rfl, -⟩ <;>
    simp [IsOperation]

theorem decodeFrame_not_isOperation {out : List Byte} {i : Instr} (h : decodeFrame out = .ok i) :
    ∀ op r, ¬ IsOperation i op r := by
  cases out with
  | nil => cases h
  | cons op rest =>
    unfold decodeFrame at h
    simp only at h
    split at h <;> first | (cases h; done) | (cases h; simp [IsOperation])

/-- Every transition of the six operations (42_sequencer_data_ops.md R170 to R182, 43_status_ops.md R211,
R216): what is enabled in each value of `st`, and the next state. -/
theorem operation_cases {i : Instr} {op : BitVec 3} {r : ReqFields} {s t : State} (h : IsOperation i op r)
    (he : exec i s = .next t) :
    (s.st = .idle ∧ t = s.accept op r) ∨
    (s.st = .planning ∧ IsDataOp i r ∧ t = tPlanData s) ∨
    (s.st = .planning ∧ ¬ IsDataOp i r ∧ (t = tPlanRead s ∨ t = tPlanWrite s)) ∨
    (s.st = .issuing ∧ s.owner = true ∧ ∃ out, t = s.send out) ∨
    (s.st = .issuing ∧ s.owner = false ∧ t = tAcquire s) ∨
    (s.st = .waiting ∧
      ((t = s ∧ ∀ a, s.xfer ≠ .answered a) ∨
       (s.xfer = .answered .err ∧ t = tErr s) ∨
       ∃ inb, s.xfer = .answered (.ok inb) ∧
        ((IsDataOp i r ∧ s.phase = .rdsr ∧ t = okEnsure inb s.endTransfer) ∨
         (IsDataOp i r ∧ s.phase = .wrsr ∧ t = s.endTransfer.toPhase .data) ∨
         (i = .write r ∧ s.phase = .data ∧ t = chunkDone s.endTransfer) ∨
         (i = .read r ∧ s.phase = .data ∧ s.done.toNat + s.chunkLen ≤ s.buf.size ∧
           t = chunkDone (s.endTransfer.storeChunk inb)) ∨
         (¬ IsDataOp i r ∧ (i = .setMode r → s.phase = .wrsr) ∧ ∃ b, t = statusDone (s.endTransfer.setSrTmp b)) ∨
         (i = .setMode r ∧ s.phase = .rdsr ∧ ∃ b, t = (s.endTransfer.setSrTmp b).toPhase .wrsr)))) ∨
    ((s.st = .complete ∨ s.st = .failed) ∧ ∃ data, t = tReport data s) := by
  have nd2 : ¬ IsDataOp (.getStatus r) r := by simp [IsDataOp]
  have nd3 : ¬ IsDataOp (.setStatus r) r := by simp [IsDataOp]
  have nd4 : ¬ IsDataOp (.getMode r) r := by simp [IsDataOp]
  have nd5 : ¬ IsDataOp (.setMode r) r := by simp [IsDataOp]
  rcases h with ⟨rfl, rfl⟩ | ⟨rfl, rfl⟩ | ⟨rfl, rfl⟩ | ⟨rfl, rfl⟩ | ⟨rfl, rfl⟩ | ⟨rfl, rfl⟩ <;>
  rcases operation_next he with ⟨h1, _, h2⟩ | ⟨h1, h2⟩ | ⟨h1, ho, h2⟩ | ⟨h1, ho, h2⟩ | ⟨h1, h2⟩ | ⟨h1, h2⟩
  all_goals first
    | exact .inl ⟨h1, h2⟩
    | exact .inr (.inr (.inr (.inr (.inl ⟨h1, ho, h2⟩))))
    | exact .inr (.inr (.inr (.inr (.inr (.inr ⟨h1, _, h2⟩)))))
    | exact .inr (.inl ⟨h1, .inl rfl, h2⟩)
    | exact .inr (.inl ⟨h1, .inr rfl, h2⟩)
    | exact .inr (.inr (.inl ⟨h1, by assumption, .inl h2⟩))
    | exact .inr (.inr (.inl ⟨h1, by assumption, .inr h2⟩))
    | (refine .inr (.inr (.inr (.inl ⟨h1, ho, ?_⟩)))
       rcases issueData_next h2 with ⟨_, e⟩ | ⟨_, e⟩ | ⟨_, e⟩
       · exact ⟨_, e⟩
       · exact ⟨_, e⟩
       · first | (cases e; done) | (cases e; exact ⟨_, rfl⟩) | exact ⟨_, (issueWriteChunk_next e).2⟩)
    | (refine .inr (.inr (.inr (.inr (.inr (.inl ⟨h1, ?_⟩)))))
       rcases tAnswer_next h2 with ⟨inb, hx, _, h3⟩ | ⟨hx, h3⟩ | ⟨hx, h3⟩
       rotate_left
       · exact .inr (.inl ⟨hx, h3⟩)
       · exact .inl ⟨h3, hx⟩
       refine .inr (.inr ⟨inb, hx, ?_⟩))
  · rcases okData_next h3 with ⟨p, e⟩ | ⟨p, e⟩ | ⟨p, e⟩
    · exact .inl ⟨.inl rfl, p, e⟩
    · exact .inr (.inl ⟨.inl rfl, p, e⟩)
    · obtain ⟨hb, e⟩ := okReadChunk_next e
      exact .inr (.inr (.inr (.inl ⟨rfl, p, hb, e⟩)))
  · rcases okData_next h3 with ⟨p, e⟩ | ⟨p, e⟩ | ⟨p, e⟩
    · exact .inl ⟨.inr rfl, p, e⟩
    · exact .inr (.inl ⟨.inr rfl, p, e⟩)
    · cases e
      exact .inr (.inr (.inl ⟨rfl, p, rfl⟩))
  · obtain ⟨-, e⟩ := okGet_next h3
    exact .inr (.inr (.inr (.inr (.inl ⟨nd2, by simp, _, e⟩))))
  · obtain ⟨-, e⟩ := okSetStatus_next h3
    exact .inr (.inr (.inr (.inr (.inl ⟨nd3, by simp, s.srTmp, e⟩))))
  · obtain ⟨-, e⟩ := okGet_next h3
    exact .inr (.inr (.inr (.inr (.inl ⟨nd4, by simp, _, e⟩))))
  · rcases okSetMode_next h3 with ⟨p, e⟩ | ⟨p, e⟩
    · exact .inr (.inr (.inr (.inr (.inr ⟨rfl, p, _, e⟩))))
    · exact .inr (.inr (.inr (.inr (.inl ⟨nd5, fun _ => p, s.srTmp, e⟩))))

theorem cutFrame_next {i : Instr} {s t : State} (h : cutFrame i s = .next t) : exec i s.cutBusy = .next t := by
  cases i <;> first | exact h | cases h

/-- `cutBusy` touches the Transport's input only. -/
theorem cutBusy_fields (s : State) :
    s.cutBusy.cfg = s.cfg ∧ s.cutBusy.st = s.st ∧ s.cutBusy.xfer = s.xfer ∧ s.cutBusy.chip = s.chip ∧
    s.cutBusy.buf = s.buf ∧ s.cutBusy.delivered = s.delivered := by
  unfold State.cutBusy
  split <;> simp

/-- Every step that answers a next state: a reset edge, an idle edge, T_ACCEPT of an offered request, a
step of the Transport, or a transition of the Operation in the latches. -/
theorem step_cases {s t : State} (h : step s = .next t) :
    (s.rst.head = true ∧
      (((s.st ≠ .waiting ∨ ∀ out, s.xfer ≠ .sent out) ∧ t = resetBlock s.tick) ∨
       (s.st = .waiting ∧ ∃ out i u, s.xfer = .sent out ∧ decodeFrame out = .ok i ∧
         exec i s.tick.cutBusy = .next u ∧ t = resetBlock u))) ∨
    (s.rst.head = false ∧ s.st = .idle ∧ s.requests.head = none ∧ t = s.tick.popRequest) ∨
    (s.rst.head = false ∧ s.st = .idle ∧ ∃ q i op r, s.requests.head = some q ∧
      decodeRequest s.cfg q.word = .ok i ∧ IsOperation i op r ∧ t = (s.tick.offer q).accept op r) ∨
    (s.rst.head = false ∧ s.st = .waiting ∧ ∃ out i, s.xfer = .sent out ∧ decodeFrame out = .ok i ∧
      exec i s.tick = .next t) ∨
    (s.rst.head = false ∧ s.st ≠ .idle ∧ (s.st = .waiting → ∀ out, s.xfer ≠ .sent out) ∧
      ∃ i, IsOperation i s.opL s.latched ∧ exec i s.tick = .next t) := by
  obtain ⟨-, h⟩ := step_next h
  rcases h with ⟨hr, hr'⟩ | h | ⟨hr, i, u, hf, he⟩
  · left
    rcases resetEdge_settle hr' with ⟨a, rfl⟩ | ⟨hst, out, i, t', hx, hd, hc, rfl⟩
    · exact ⟨hr, .inl ⟨a, rfl⟩⟩
    · exact ⟨hr, .inr ⟨hst, out, i, t', hx, hd, cutFrame_next hc, rfl⟩⟩
  · exact .inr (.inl h)
  · right; right
    rcases fetch_run hf with ⟨hst, q, hq, hd, rfl⟩ | ⟨hst, out, hx, hd, rfl⟩ | ⟨hst, hns, hd, rfl⟩
    · have hop := decodeFields_isOperation (decodeRequest_ok hd).2
      have hidle : (s.tick.offer q).st = .idle := hst
      rcases operation_cases hop he with ⟨-, rfl⟩ | ⟨h1, _⟩ | ⟨h1, _⟩ | ⟨h1, _⟩ | ⟨h1, _⟩ | ⟨h1, _⟩ | ⟨h1 | h1, _⟩
      · exact .inl ⟨hr, hst, q, i, _, _, hq, hd, hop, rfl⟩
      all_goals (rw [hidle] at h1; cases h1)
    · exact .inr (.inl ⟨hr, hst, out, i, hx, hd, he⟩)
    · exact .inr (.inr ⟨hr, hst, hns, i, decodeFields_isOperation hd, he⟩)

end Sys2Proof.Machine
end

