-- ==== Sys2Proof/Laws/PerInstr.lean ====
section
/-! SUPPORT. Statements made once for each instruction, as syntax. -/

namespace Sys2Proof.Laws

open Sys2Proof Sys2Proof.Machine

/-- The bits of an instruction have the size of its format (30_encoding.md R100, R117, 10_state.md R44): a
request word is not wider than the configuration, a frame has 2 to 3 + MAX_CHUNK bytes. -/
def sizeOk (c : Config) : Code → Prop
  | .request w => w.toNat < 2 ^ reqBits c
  | .frame out => 2 ≤ out.length ∧ out.length ≤ 3 + c.maxChunk

/-- A packed request word is its fields, one above the other, and fits the configured width. -/
theorem packRequest_lt {c : Config} (hl : c.legal = true) (op : BitVec 3) {r : ReqFields} (hf : r.fit c = true) :
    (packRequest c op r).toNat < 2 ^ reqBits c := by
  have hb := Config.legal_bounds hl
  simp only [ReqFields.fit, Bool.and_eq_true, decide_eq_true_eq] at hf
  have h1 := op.isLt
  have h2 := r.data.isLt
  have a1 : op.toNat * 2 ^ 8 + r.data.toNat < 2 ^ 11 := by omega
  have a2 : (op.toNat * 2 ^ 8 + r.data.toNat) * 2 ^ c.lenW + r.len.toNat < 2 ^ (11 + c.lenW) := by
    rw [pow_add]; nlinarith
  have a3 : ((op.toNat * 2 ^ 8 + r.data.toNat) * 2 ^ c.lenW + r.len.toNat) * 2 ^ c.addrW + r.addr.toNat
      < 2 ^ (11 + c.lenW + c.addrW) := by
    rw [pow_add _ (11 + c.lenW)]; nlinarith
  unfold packRequest
  rw [BitVec.toNat_ofNat]
  exact lt_of_le_of_lt (Nat.mod_le _ _) a3

namespace EncodedSize

def Statement (i : Instr) : Prop :=
  ∀ c : Config, c.legal = true → i.wellFormed c = true → sizeOk c (encode c i)

theorem read (r : ReqFields) : Statement (.read r) := fun _ hl h => packRequest_lt hl _ h
theorem write (r : ReqFields) : Statement (.write r) := fun _ hl h => packRequest_lt hl _ h
theorem getStatus (r : ReqFields) : Statement (.getStatus r) := fun _ hl h => packRequest_lt hl _ h
theorem setStatus (r : ReqFields) : Statement (.setStatus r) := fun _ hl h => packRequest_lt hl _ h
theorem getMode (r : ReqFields) : Statement (.getMode r) := fun _ hl h => packRequest_lt hl _ h
theorem setMode (r : ReqFields) : Statement (.setMode r) := fun _ hl h => by
  simp only [Instr.wellFormed, Bool.and_eq_true] at h
  exact packRequest_lt hl _ h.1
theorem frameRead (a : Half) (p : List Byte) : Statement (.frameRead a p) := fun _ _ h => by
  simp only [Instr.wellFormed, Bool.and_eq_true, decide_eq_true_eq] at h
  simp only [sizeOk, encode, encodeHeader, List.length_append, List.length_cons, List.length_nil]
  omega
theorem frameWrite (a : Half) (p : List Byte) : Statement (.frameWrite a p) := fun _ _ h => by
  simp only [Instr.wellFormed, Bool.and_eq_true, decide_eq_true_eq] at h
  simp only [sizeOk, encode, encodeHeader, List.length_append, List.length_cons, List.length_nil]
  omega
theorem frameRdsr (d : Byte) : Statement (.frameRdsr d) := fun c _ _ =>
  ⟨Nat.le_refl 2, Nat.le_trans (Nat.le_succ 2) (Nat.le_add_right 3 c.maxChunk)⟩
theorem frameWrsr (v : Byte) : Statement (.frameWrsr v) := fun c _ _ =>
  ⟨Nat.le_refl 2, Nat.le_trans (Nat.le_succ 2) (Nat.le_add_right 3 c.maxChunk)⟩

end EncodedSize

end Sys2Proof.Laws
end

