-- ==== Sys2Proof/Tests/Slice0.lean ====
section
/-! SUPPORT. Tests of single steps on the spec's vectors (95_test_vectors.md), and for every statement of the certificate a state and operands that meet its hypotheses. -/

namespace Sys2Proof.Tests

open Sys2Proof Sys2Proof.Machine

/-! ### Helpers -/

/-- The fields of a request. -/
def req (data : Byte) (len addr : Nat) : ReqFields :=
  { data := data, len := BitVec.ofNat 32 len, addr := BitVec.ofNat 32 addr }

/-- The block in `st` with the Operation of a request latched; the chip's status byte is 0x40. -/
def at_ (st : SeqState) (op : BitVec 3) (r : ReqFields) : State :=
  { State.reset with st := st, opL := op, dataL := r.data, lenL := r.len, addrL := r.addr,
                     chip := { mem := [], sr := 0x40#8, ptr := 0#15 } }

/-- IDLE with one request word offered. -/
def offering (w : ReqWord) (b : Option Buffer) : State :=
  { State.reset with requests := { coming := [some { word := w, attach := b }], after := none } }

/-- A data Operation between its frames: the chunk at `cur`, `rem` bytes left, `done` bytes transferred. -/
def onBus (st : SeqState) (op : BitVec 3) (r : ReqFields) (owner : Bool) (ph : Phase) (done : Nat) (x : Xfer) : State :=
  { at_ st op r with owner := owner, phase := ph, done := BitVec.ofNat 16 done,
                     curAddr := BitVec.ofNat 16 (r.addr.toNat + done),
                     remaining := BitVec.ofNat 16 (r.len.toNat - done), srTmp := 0x40#8, xfer := x, ownEdges := [.rise] }

/-- The next state satisfies a check. -/
def goes (o : Result) (p : State → Bool) : Bool :=
  match o with
  | .next t => p t
  | _ => false

def isRefused (o : Result) (why : Refusal) : Bool :=
  match o with
  | .refused w => w == why
  | _ => false

/-- The five bytes DE AD BE EF 55 in a buffer. -/
def fiveBytes : Buffer := { size := 5, bytes := [(0, 0xDE#8), (1, 0xAD#8), (2, 0xBE#8), (3, 0xEF#8), (4, 0x55#8)] }

/-! ### Decoding: words written out from 30_encoding.md R101, R102 and 95_test_vectors.md 2.1, 2.4 -/

/-- RQ1 and RQ11. -/
theorem test_decode_read :
    decodeRequest Config.default 0x00000030102#75 = .ok (.read (req 0 3 0x0102)) ∧
    decodeRequest Config.default 0x00000077FF9#75 = .ok (.read (req 0 7 0x7FF9)) := by decide

/-- RQ2 and RQ10. -/
theorem test_decode_write :
    decodeRequest Config.default 0x10000050100#75 = .ok (.write (req 0 5 0x0100)) ∧
    decodeRequest Config.default 0x100012C0200#75 = .ok (.write (req 0 300 0x0200)) := by decide

/-- RQ3. -/
theorem test_decode_getStatus : decodeRequest Config.default 0x20000000000#75 = .ok (.getStatus (req 0 0 0)) := by decide

/-- RQ5. -/
theorem test_decode_setStatus : decodeRequest Config.default 0x34100000000#75 = .ok (.setStatus (req 0x41 0 0)) := by decide

/-- RQ6. -/
theorem test_decode_getMode : decodeRequest Config.default 0x40000000000#75 = .ok (.getMode (req 0 0 0)) := by decide

/-- RQ7, RQ8 and RQ9. -/
theorem test_decode_setMode :
    decodeRequest Config.default 0x50100000000#75 = .ok (.setMode (req 1 0 0)) ∧
    decodeRequest Config.default 0x50200000000#75 = .ok (.setMode (req 2 0 0)) ∧
    decodeRequest Config.default 0x50000000000#75 = .ok (.setMode (req 0 0 0)) := by decide

/-- CO11. -/
theorem test_decode_frameRead :
    decodeFrame [0x03, 0x01, 0x02, 0x00, 0x00, 0x00] = .ok (.frameRead 0x0102 [0, 0, 0]) := by decide

/-- CO13 and CO6: a payload equal to an opcode, and an address with bit 15 set. -/
theorem test_decode_frameWrite :
    decodeFrame [0x02, 0x00, 0x00, 0x03] = .ok (.frameWrite 0x0000 [0x03]) ∧
    decodeFrame [0x02, 0x80, 0x00, 0x00] = .ok (.frameWrite 0x8000 [0x00]) := by decide

/-- CO15. -/
theorem test_decode_frameRdsr : decodeFrame [0x05, 0x00] = .ok (.frameRdsr 0x00) := by decide

/-- CO17 and CO18. -/
theorem test_decode_frameWrsr :
    decodeFrame [0x01, 0x40] = .ok (.frameWrsr 0x40) ∧ decodeFrame [0x01, 0xFF] = .ok (.frameWrsr 0xFF) := by decide

/-- NG1 (RQ12), NG2, and the nearest accepted words. -/
theorem test_decode_reserved :
    decodeRequest Config.default 0x60000000000#75 = .error .reservedOperation ∧
    decodeRequest Config.default 0x70000000000#75 = .error .reservedOperation ∧
    decodeRequest Config.default 0x50300000000#75 = .error .reservedMode ∧
    decodeRequest Config.default 0x80000000000#75 = .error .requestTooWide := by decide

/-- 40_codec.md R139: no payload, a status frame of another length, a fifth opcode. -/
theorem test_decode_no_frame :
    decodeFrame [0x03, 0x00, 0x00] = .error .notAFrame ∧ decodeFrame [0x05] = .error .notAFrame ∧
    decodeFrame [0x05, 0x00, 0x00] = .error .notAFrame ∧ decodeFrame [0x06, 0x00] = .error .notAFrame ∧
    decodeFrame [] = .error .notAFrame := by decide

/-- A request word at ADDR_W = 24, LEN_W = 32: WRITE 0x123456, 0x10000, `data` 0xA5. -/
theorem test_decode_wide :
    decodeRequest { Config.default with addrW := 24, lenW := 32 } (0b001#3 ++ 0xA5#8 ++ 0x00010000#32 ++ 0x123456#24 : BitVec 67).toNat
      = .ok (.write (req 0xA5 0x10000 0x123456)) := by decide

/-! ### Well-formedness: one ill-formed term for each check -/

theorem test_wellFormed_len : (Instr.read (req 0 0x10000 0)).wellFormed Config.default = false := by decide
theorem test_wellFormed_addr : (Instr.write (req 0 0 0x10000)).wellFormed Config.default = false := by decide
theorem test_wellFormed_mode : (Instr.setMode (req 3 0 0)).wellFormed Config.default = false := by decide
theorem test_wellFormed_status_fields :
    (Instr.getStatus (req 0 0x10000 0)).wellFormed Config.default = false ∧
    (Instr.setStatus (req 0 0 0x10000)).wellFormed Config.default = false ∧
    (Instr.getMode (req 0 0x10000 0)).wellFormed Config.default = false ∧
    (Instr.setMode (req 1 0 0x10000)).wellFormed Config.default = false := by decide
theorem test_wellFormed_no_payload :
    (Instr.frameRead 0 []).wellFormed Config.default = false ∧
    (Instr.frameWrite 0 []).wellFormed Config.default = false := by decide
theorem test_wellFormed_long_payload :
    (Instr.frameRead 0 [0, 0]).wellFormed { Config.default with maxChunk := 1 } = false ∧
    (Instr.frameWrite 0 [0, 0]).wellFormed { Config.default with maxChunk := 1 } = false := by decide

/-- NG3, and each other bound of 00_scope.md R9, R10, R12. -/
theorem test_config_illegal :
    Config.legal { Config.default with maxChunk := 0 } = false ∧
    Config.legal { Config.default with maxChunk := 65536 } = false ∧
    Config.legal { Config.default with addrW := 15 } = false ∧
    Config.legal { Config.default with addrW := 33 } = false ∧
    Config.legal { Config.default with lenW := 15 } = false ∧
    Config.legal { Config.default with lenW := 33 } = false ∧
    Config.legal { Config.default with modeShift := 7 } = false ∧
    Config.legal { Config.default with modePage := 0b00#2 } = false ∧
    Config.legal { Config.default with modeSeq := 0b00#2 } = false ∧
    Config.legal { Config.default with modeSeq := 0b10#2 } = false ∧
    Config.legal { Config.default with modeByte := 0b11#2 } = false ∧
    Config.legal { Config.default with modePage := 0b11#2 } = false ∧
    Config.legal { Config.default with modeSeq := 0b11#2 } = false := by decide

theorem test_config_legal :
    Config.default.legal = true ∧ Config.legal { Config.default with maxChunk := 1 } = true ∧
    Config.legal { Config.default with maxChunk := 65535, addrW := 32, lenW := 32, modeShift := 0 } = true := by decide

/-! ### Helpers, planner, result word: 95_test_vectors.md 2.1 to 2.4 -/

/-- CO1, CO2, CO4, CO5, CO7, CO10, CO12, CO14, CO16. -/
theorem test_codec_vectors :
    encodeHeader .read 0x0000 = [0x03, 0x00, 0x00] ∧ encodeHeader .write 0x7FFF = [0x02, 0x7F, 0xFF] ∧
    encodeHeader .read 0x00FF = [0x03, 0x00, 0xFF] ∧ encodeHeader .read 0x0100 = [0x03, 0x01, 0x00] ∧
    encodeHeader .write 0xFFFF = [0x02, 0xFF, 0xFF] ∧ readFrame Config.default 0x7FFF 1 = [0x03, 0x7F, 0xFF, 0x00] ∧
    readData [1, 2, 3, 0xBE, 0xEF, 0x55] 3 = [0xBE, 0xEF, 0x55] ∧
    writeFrame 0x0100 [0xDE, 0xAD, 0xBE, 0xEF, 0x55] = [0x02, 0x01, 0x00, 0xDE, 0xAD, 0xBE, 0xEF, 0x55] ∧
    rdsrData [0xFF, 0x41] = 0x41 := by decide

/-- MO2 to MO13. -/
theorem test_mode_vectors :
    modeOf Config.default 0x40 = 1 ∧ modeOf Config.default 0x80 = 2 ∧ modeOf Config.default 0xC0 = 3 ∧
    modeOf Config.default 0x41 = 1 ∧ modeOf Config.default 0x3F = 0 ∧ modeOf Config.default 0xFF = 3 ∧
    withMode Config.default 0x00 1 = 0x40 ∧ withMode Config.default 0x81 1 = 0x41 ∧
    withMode Config.default 0xFF 0 = 0x3F ∧ withMode Config.default 0x3F 2 = 0xBF ∧
    withMode Config.default 0x41 1 = 0x41 ∧ withMode Config.default 0xC1 1 = 0x41 := by decide

/-- PL1, PL4, PL7, PL8, PL12, PL13. -/
theorem test_plan_chunks :
    plan .write 0x0100 300 128 = .ok [(0x0100, 128), (0x0180, 128), (0x0200, 44)] ∧
    plan .read 0x1234 7 3 = .ok [(0x1234, 3), (0x1237, 3), (0x123A, 1)] ∧
    plan .read 0xFFFF 0 128 = .ok [] ∧ plan .read 32767 1 128 = .ok [(32767, 1)] ∧
    plan .read 10 5 1 = .ok [(10, 1), (11, 1), (12, 1), (13, 1), (14, 1)] ∧
    plan .read 100 300 65535 = .ok [(100, 300)] := ⟨rfl, rfl, rfl, rfl, rfl, rfl⟩

/-- PL9, PL11, PL16, PL19 to PL24. -/
theorem test_plan_errors :
    planCheck 32767 2 = .addressRange ∧ planCheck 0x7F81 128 = .addressRange ∧ planCheck 1 32768 = .addressRange ∧
    planCheck 0xFFFF 0xFFFF = .addressRange ∧ planCheck 0 65536 = .invalidLength ∧
    planCheck 0 70000 = .invalidLength ∧ planCheck 40000 65536 = .invalidLength ∧
    planCheck 0 40000 = .addressRange ∧ planCheck 0x8001 0x8000 = .addressRange ∧
    planCheck 0x7F80 128 = .chunks ∧ planCheck 0 32768 = .chunks := by decide

/-- RS1, RS2, RS4, RS5, RS7, RS8, RS10. -/
theorem test_result_words :
    packResult 0 0 5 0 = 0x00000000500#42 ∧ packResult 0 0 300 0 = 0x00000012C00#42 ∧
    packResult (ErrKind.code .addressRange) 0 0 0 = 0x10000000000#42 ∧
    packResult (ErrKind.code .transport) 128 128 0 = 0x20080008000#42 ∧
    packResult (ErrKind.code .invalidLength) 0 0 0 = 0x30000000000#42 ∧
    packResult 0 0 1 0x81 = 0x00000000181#42 ∧ packResult 0 0 32768 0 = 0x00000800000#42 := by decide

/-! ### Single steps -/

/-- P1, step 1: T_ACCEPT of WRITE 0x0100, 5. -/
theorem test_step_accept :
    goes (step (offering 0x10000050100#75 none)) (fun t => t.st == .planning && t.opL == 1 && t.addrL == 0x0100 &&
      t.lenL == 5 && t.dataL == 0 && t.errKind == .ok && t.requests.coming == []) = true := by decide

/-- P1, steps 2, 3 and 4 in one state each: T_PLAN, T_ACQUIRE, T_ISSUE of the RDSR frame. -/
theorem test_write_plan_acquire_issue :
    goes (exec (.write (req 0 5 0x0100)) (at_ .planning 1 (req 0 5 0x0100)))
      (fun t => t.st == .issuing && t.done == 0 && t.curAddr == 0x0100 && t.remaining == 5 && t.phase == .rdsr && t.ownReq && t.ownEdges == [.rise]) = true ∧
    goes (exec (.write (req 0 5 0x0100)) (onBus .issuing 1 (req 0 5 0x0100) false .rdsr 0 .idle))
      (fun t => t.st == .issuing && t.owner) = true ∧
    goes (exec (.write (req 0 5 0x0100)) (onBus .issuing 1 (req 0 5 0x0100) true .rdsr 0 .idle))
      (fun t => t.st == .waiting && t.xfer == .sent [0x05, 0x00]) = true := by decide

/-- P1, steps 8 and 9: T_ISSUE and T_OK of the data frame of a WRITE. -/
theorem test_write_data_frame :
    goes (exec (.write (req 0 5 0x0100)) { onBus .issuing 1 (req 0 5 0x0100) true .data 0 .idle with buf := fiveBytes })
      (fun t => t.xfer == .sent [0x02, 0x01, 0x00, 0xDE, 0xAD, 0xBE, 0xEF, 0x55]) = true ∧
    goes (exec (.write (req 0 5 0x0100))
        (onBus .waiting 1 (req 0 5 0x0100) true .data 0 (.answered (.ok [9, 9, 9, 9, 9, 9, 9, 9]))))
      (fun t => t.st == .complete && t.curAddr == 0x0105 && t.remaining == 0 && t.done == 5 && !t.owner && !t.ownReq && t.ownEdges == [.rise, .fall] && t.buf.bytes == []) = true := by
  decide

/-- P1: the data frame of READ 0x0102, 3, and the buffer after its answer. -/
theorem test_read_data_frame :
    goes (exec (.read (req 0 3 0x0102)) (onBus .issuing 0 (req 0 3 0x0102) true .data 0 .idle))
      (fun t => t.xfer == .sent [0x03, 0x01, 0x02, 0x00, 0x00, 0x00]) = true ∧
    goes (exec (.read (req 0 3 0x0102))
        (onBus .waiting 0 (req 0 3 0x0102) true .data 0 (.answered (.ok [9, 9, 9, 0xBE, 0xEF, 0x55]))))
      (fun t => t.st == .complete && t.buf.bytes == [(0, 0xBE), (1, 0xEF), (2, 0x55)]) = true := by decide

/-- P2: the second chunk of READ 0x7FF9, 7 at MAX_CHUNK 3 lands at buffer index 3, and a third is due. -/
theorem test_read_second_chunk :
    goes (exec (.read (req 0 7 0x7FF9))
        { onBus .waiting 0 (req 0 7 0x7FF9) true .data 3 (.answered (.ok [9, 9, 9, 4, 5, 6])) with
          cfg := { Config.default with maxChunk := 3 } })
      (fun t => t.st == .issuing && !t.owner && t.phase == .rdsr && t.curAddr == 0x7FFF && t.remaining == 1 && t.done == 6 &&
        t.ownEdges == [.rise, .fall, .rise] && t.buf.bytes == [(3, 4), (4, 5), (5, 6)]) = true := by decide

/-- SQ3: the ensure step on status byte 0x81, and on 0x40. -/
theorem test_ensure_step :
    goes (exec (.write (req 0 2 0x10)) (onBus .waiting 1 (req 0 2 0x10) true .rdsr 0 (.answered (.ok [9, 0x81]))))
      (fun t => t.st == .issuing && t.owner && t.phase == .wrsr && t.srTmp == 0x41) = true ∧
    goes (exec (.read (req 0 2 0x10)) (onBus .waiting 0 (req 0 2 0x10) true .rdsr 0 (.answered (.ok [9, 0x40]))))
      (fun t => t.st == .issuing && t.owner && t.phase == .data) = true := by decide

/-- P3: GETSTATUS and GETMODE on 0x81: the answer and the result word. -/
theorem test_getStatus_result :
    goes (exec (.getStatus (req 0 0 0)) (onBus .waiting 2 (req 0 0 0) true .rdsr 0 (.answered (.ok [9, 0x81]))))
      (fun t => t.st == .complete && t.srTmp == 0x81 && t.done == 1 && !t.owner) = true ∧
    goes (exec (.getStatus (req 0 0 0)) { at_ .complete 2 (req 0 0 0) with srTmp := 0x81, done := 1 })
      (fun t => t.st == .idle && t.delivered == [0x00000000181#42]) = true := by decide

theorem test_getMode_result :
    goes (exec (.getMode (req 0 0 0)) (onBus .waiting 4 (req 0 0 0) true .rdsr 0 (.answered (.ok [9, 0x81]))))
      (fun t => t.st == .complete && t.srTmp == 0x81) = true ∧
    goes (exec (.getMode (req 0 0 0)) { at_ .complete 4 (req 0 0 0) with srTmp := 0x81, done := 1 })
      (fun t => t.delivered == [0x00000000102#42]) = true := by decide

/-- P3: SETSTATUS 0x41: T_PLAN, and the frame it issues. -/
theorem test_setStatus_plan :
    goes (exec (.setStatus (req 0x41 0 0)) (at_ .planning 3 (req 0x41 0 0)))
      (fun t => t.st == .issuing && t.phase == .wrsr && t.srTmp == 0x41 && t.done == 0) = true ∧
    goes (exec (.setStatus (req 0x41 0 0)) { onBus .issuing 3 (req 0x41 0 0) true .wrsr 0 .idle with srTmp := 0x41 })
      (fun t => t.xfer == .sent [0x01, 0x41]) = true := by decide

/-- P3: SETMODE SEQ on 0x81: the byte to write, and the end after the write. -/
theorem test_setMode_answers :
    goes (exec (.setMode (req 1 0 0)) (onBus .waiting 5 (req 1 0 0) true .rdsr 0 (.answered (.ok [9, 0x81]))))
      (fun t => t.st == .issuing && t.owner && t.phase == .wrsr && t.srTmp == 0x41) = true ∧
    goes (exec (.setMode (req 1 0 0)) (onBus .waiting 5 (req 1 0 0) true .wrsr 0 (.answered (.ok [9, 9]))))
      (fun t => t.st == .complete && !t.owner && t.done == 1) = true := by decide

/-- P5 (RS5): a failure in the second chunk, and its report. -/
theorem test_transport_error :
    goes (exec (.write (req 0 300 0x0200)) (onBus .waiting 1 (req 0 300 0x0200) true .rdsr 128 (.answered .err)))
      (fun t => t.st == .failed && !t.owner && t.errKind == .transport && t.done == 128 && t.ownEdges == [.rise, .fall]) = true ∧
    goes (exec (.write (req 0 300 0x0200)) { at_ .failed 1 (req 0 300 0x0200) with errKind := .transport, done := 128 })
      (fun t => t.delivered == [0x20080008000#42] && t.st == .idle) = true := by decide

/-- 20_memory.md R88 with address bit 15 set and the wrap at the end of the array: the answer's data bytes. -/
theorem test_frameRead_wraps :
    goes (exec (.frameRead 0xFFFF [0, 0])
        { at_ .waiting 0 (req 0 0 0) with chip := { mem := [(0, 0x22), (0x7FFF, 0x11)], sr := 0x40, ptr := 0 } })
      (fun t => match t.xfer with | .answered (.ok inb) => inb.drop 3 == [0x11, 0x22] | _ => false) = true := by decide

/-- R89: the bytes land in order and wrap; R92: a failed frame leaves a leading part. -/
theorem test_frameWrite_stores :
    goes (exec (.frameWrite 0x7FFF [0xAA, 0xBB]) (at_ .waiting 1 (req 0 0 0)))
      (fun t => t.chip.mem == [(0, 0xBB), (0x7FFF, 0xAA)]) = true ∧
    goes (exec (.frameWrite 0x0010 [0xAA, 0xBB]) { at_ .waiting 1 (req 0 0 0) with fates := { coming := [.fail 4], after := .busy } })
      (fun t => t.chip.mem == [(0x0010, 0xAA)] && t.xfer == .answered .err) = true := by decide

/-- R90, R91. -/
theorem test_status_frames :
    goes (exec (.frameRdsr 0x00) { at_ .waiting 2 (req 0 0 0) with chip := { mem := [], sr := 0x81, ptr := 0 } })
      (fun t => match t.xfer with | .answered (.ok inb) => inb.drop 1 == [0x81] | _ => false) = true ∧
    goes (exec (.frameWrsr 0xFF) (at_ .waiting 3 (req 0 0 0))) (fun t => t.chip.sr == 0xFF) = true := by decide

/-- R93: a data frame in BYTE mode is refused; R92: one of which the chip has received nothing fails. -/
theorem test_frame_not_sequential :
    goes (exec (.frameRead 0 [0])
        { at_ .waiting 0 (req 0 0 0) with
          chip := { mem := [], sr := 0x00, ptr := 0 }, fates := { coming := [.fail 0], after := .busy } })
      (fun t => t.xfer == .answered .err && t.chip.sr == 0x00 && t.chip.mem == []) = true ∧
    isRefused (exec (.frameRead 0 [0]) { at_ .waiting 0 (req 0 0 0) with chip := { mem := [], sr := 0x00, ptr := 0 } })
      .dataFrameNotSequential = true := by decide

/-- 10_state.md R56: an answer that no reference chip would give, and a data frame in BYTE mode that is answered. -/
theorem test_free_answers :
    goes (exec (.frameRdsr 0x00)
        { at_ .waiting 2 (req 0 0 0) with fates := { coming := [.reply (.ok [1, 0xA5]) { sr := none, bytes := [], ptr := none }], after := .busy } })
      (fun t => t.xfer == .answered (.ok [1, 0xA5]) && t.chip.sr == 0x40) = true ∧
    goes (exec (.frameRead 0 [0])
        { at_ .waiting 0 (req 0 0 0) with
          chip := { mem := [], sr := 0x00, ptr := 0 },
          fates := { coming := [.reply (.ok [1, 2, 3, 4]) { sr := some 0x55, bytes := [(7, 9)], ptr := none }], after := .busy } })
      (fun t => t.xfer == .answered (.ok [1, 2, 3, 4]) && t.chip.sr == 0x55 && t.chip.mem == [(7, 9)]) = true := by decide

/-- 70_reset_and_hazards.md R268: another master writes outside an ownership window, and cannot inside one. -/
theorem test_another_master :
    goes (step { State.reset with others := { coming := [some { sr := some 0x80, bytes := [(2, 1)], ptr := none }], after := none } })
      (fun t => t.chip.sr == 0x80 && t.chip.mem == [(2, 1)] && t.others.coming == []) = true ∧
    goes (step { onBus .issuing 1 (req 0 5 0x0100) true .rdsr 0 .idle with
                 others := { coming := [some { sr := some 0x80, bytes := [], ptr := none }], after := none } })
      (fun t => t.chip.sr == 0x40 && t.others.coming.length == 1) = true := by decide

/-- NG1, NG2, NG3, NG4 at `step`; a 4-byte buffer is enough. -/
theorem test_step_refusals :
    isRefused (step (offering 0x60000000000#75 none)) .reservedOperation = true ∧
    isRefused (step (offering 0x50300000000#75 none)) .reservedMode = true ∧
    isRefused (step { State.reset with cfg := { Config.default with maxChunk := 0 } }) .illegalConfig = true ∧
    isRefused (step (offering 0x00000040000#75 (some { size := 3, bytes := [] }))) .bufferTooShort = true ∧
    goes (step (offering 0x00000040000#75 (some { size := 4, bytes := [] }))) (fun t => t.st == .planning) = true := by decide

/-- 70_reset_and_hazards.md R260, R263: reset with the bus owned. -/
theorem test_step_reset :
    goes (step { onBus .issuing 1 (req 0 5 0x0100) true .rdsr 0 .idle with rst := { coming := [true], after := false } })
      (fun t => t.st == .idle && !t.owner && t.ownEdges == [.rise, .fall] && t.chip.sr == 0x40) = true := by decide

/-- R262, R92: reset while the data frame of a WRITE is in flight and the Transport has passed four bytes. -/
theorem test_step_reset_cuts :
    goes (step { onBus .waiting 1 (req 0 2 0x10) true .data 0 (.sent [0x02, 0x00, 0x10, 0xAA, 0xBB]) with
                 rst := { coming := [true], after := false }, fates := { coming := [.fail 4], after := .busy } })
      (fun t => t.st == .idle && !t.owner && t.xfer == .idle && t.chip.mem == [(0x10, 0xAA)]) = true := by decide

/-- `withFetchWord` places a request and a frame so that the very next step runs it. -/
theorem test_withFetchWord :
    goes (step (State.reset.withFetchWord 48 0x10000050100)) (fun t => t.st == .planning && t.opL == 1 && t.lenL == 5) = true ∧
    goes (step (State.reset.withFetchWord 24 0x020010)) (fun t => match t.xfer with | .answered (.ok inb) => inb.length == 4 | _ => false) = true ∧
    goes (step (State.reset.withFetchWord 16 0x0181)) (fun t => t.chip.sr == 0x81) = true := by decide

/-! ### Witnesses: every statement's hypotheses are met, at the edges of their ranges -/

/-- One well-formed instruction of each constructor. -/
def samples : List Instr :=
  [.read (req 0xFF 0xFFFF 0xFFFF), .write (req 0 0 0), .getStatus (req 0 1 2), .setStatus (req 0xFF 0 0),
   .getMode (req 0 0 0), .setMode (req 0xFE 0 0), .frameRead 0xFFFF [0], .frameWrite 0x0000 [0xFF, 0x02],
   .frameRdsr 0xFF, .frameWrsr 0x00]

theorem witness_EncodeThenDecodeIsIdentity :
    Config.default.legal = true ∧ samples.all (fun i => i.wellFormed Config.default) = true := by decide

theorem witness_DecodeThenEncodeIsIdentity :
    Config.default.legal = true ∧ decode Config.default (.request 0x000FFFFFFFF#75) = .ok (.read (req 0 0xFFFF 0xFFFF)) ∧
    decode Config.default (.frame [0x03, 0xFF, 0xFF, 0x00]) = .ok (.frameRead 0xFFFF [0]) := by decide

theorem witness_DecodedInstructionIsWellFormed :
    Config.default.legal = true ∧ decodeRequest Config.default 0x502FFFFFFFF#75 = .ok (.setMode (req 2 0xFFFF 0xFFFF)) ∧
    (let c := { Config.default with maxChunk := 2 }
     c.legal = true ∧ ([0x02, 0, 0, 7, 8] : List Byte).length ≤ 3 + c.maxChunk ∧
     decodeFrame [0x02, 0, 0, 7, 8] = .ok (.frameWrite 0 [7, 8])) := by decide

theorem witness_RequestFieldsLieWhereTheLayoutSays :
    Config.default.legal = true ∧ Config.legal { Config.default with addrW := 32, lenW := 32 } = true := by decide

theorem witness_OperationCodesNameTheirOperations :
    IsOperation (.setMode (req 2 0 0)) 0b101#3 (req 2 0 0) ∧ (req 2 0 0).data.setWidth 2 ≠ 0b11#2 ∧
    Config.default.legal = true ∧
    Config.legal { Config.default with modeByte := 0b01#2, modePage := 0b00#2, modeSeq := 0b10#2 } = true := by
  refine ⟨?_, by decide⟩
  simp [IsOperation]

theorem witness_FrameDecodingIsExact : ∀ i, decodeFrame [0x05] ≠ .ok i := by
  intro i
  rw [show decodeFrame [0x05] = .error .notAFrame from rfl]
  simp

theorem witness_CodecBuildsAndReadsFrames :
    ([1, 2, 3, 4] : List Byte).length = 3 + 1 ∧ ([0xFF, 0x41] : List Byte).length = 2 := by decide

theorem witness_ModeFieldIsReplacedAlone :
    Config.default.legal = true ∧ Config.legal { Config.default with modeShift := 0 } = true := by decide

/-- The values where the four cases meet: 65536, 65535, 32768 and 0 bytes; one byte too many. -/
theorem witness_PlanIsTheClosedForm :
    plan .read 0 65536 1 = .error .invalidLength ∧ plan .write 0 65535 1 = .error .addressRange ∧
    plan .read 0 32768 32768 = .ok [(0, 32768)] ∧ plan .write 1 32768 32768 = .error .addressRange ∧
    plan .read 40000 0 1 = .ok [] := ⟨rfl, rfl, rfl, rfl, rfl⟩

theorem witness_PlanChunksTileTheRange :
    plan .read 32767 1 1 = .ok [(32767, 1)] ∧ plan .write 0 4 3 = .ok [(0, 3), (3, 1)] ∧ plan .read 0xFFFF 0 1 = .ok [] :=
  ⟨rfl, rfl, rfl⟩

/-- READ 0x7FF9, 7 at MAX_CHUNK 3 with `done` bytes transferred, its data frame answered. -/
def readAnswered (done : Nat) (inb : List Byte) : State :=
  { onBus .waiting 0 (req 0 7 0x7FF9) true .data done (.answered (.ok inb)) with cfg := { Config.default with maxChunk := 3 } }

theorem readAnswered_progress (done : Nat) (inb : List Byte) (h : done = 3 ∨ done = 6) : (readAnswered done inb).Progress := by
  rcases h with rfl | rfl
  · exact ⟨rfl, rfl, rfl, (by decide : 1 ≤ 4), ⟨1, rfl⟩⟩
  · exact ⟨rfl, rfl, rfl, (by decide : 1 ≤ 1), ⟨2, rfl⟩⟩

/-- A chunk that is not the last, and the last. -/
theorem witness_SequencerConsumesThePlan :
    IsDataOp (.read (req 0 7 0x7FF9)) (req 0 7 0x7FF9) ∧
    ((readAnswered 3 [0, 0, 0, 4, 5, 6]).cfg.legal = true ∧ (readAnswered 3 [0, 0, 0, 4, 5, 6]).Progress ∧
      ∃ t, exec (.read (req 0 7 0x7FF9)) (readAnswered 3 [0, 0, 0, 4, 5, 6]) = .next t ∧ t.st = .issuing) ∧
    ((readAnswered 6 [0, 0, 0, 7]).Progress ∧
      ∃ t, exec (.read (req 0 7 0x7FF9)) (readAnswered 6 [0, 0, 0, 7]) = .next t ∧ t.st = .complete) :=
  ⟨.inl rfl, ⟨rfl, readAnswered_progress _ _ (.inl rfl), _, rfl, rfl⟩, readAnswered_progress _ _ (.inr rfl), _, rfl, rfl⟩

/-- A READ that ends at the last byte of the chip with a buffer of exactly its length; SETMODE PAGE. -/
theorem witness_AcceptLatchesTheRequest :
    (IsOperation (.read (req 0 1 32767)) 0b000#3 (req 0 1 32767) ∧
      (req 0 1 32767).len.toNat ≤ ({ State.reset with buf := { size := 1, bytes := [] } } : State).buf.size) ∧
    IsOperation (.setMode (req 2 0 0)) 0b101#3 (req 2 0 0) ∧
    State.reset.st = .idle ∧ (req 2 0 0).data.setWidth 2 ≠ 0b11#2 := by
  refine ⟨⟨?_, by decide⟩, ?_, rfl, by decide⟩ <;> simp [IsOperation]

/-- Each clause at the edge of its range: 65536, 0, one byte too many, the last byte. -/
theorem witness_PlanOfDataOperations :
    IsDataOp (.write (req 0 1 32767)) (req 0 1 32767) ∧ (at_ .planning 1 (req 0 1 32767)).st = .planning ∧
    65536 ≤ (at_ .planning 0 (req 0 65536 0)).lenL.toNat ∧ (at_ .planning 0 (req 0 0 0xFFFF)).lenL.toNat = 0 ∧
    (1 ≤ (at_ .planning 0 (req 0 2 32767)).lenL.toNat ∧ (at_ .planning 0 (req 0 2 32767)).lenL.toNat < 65536 ∧
      32768 < (at_ .planning 0 (req 0 2 32767)).addrL.toNat + (at_ .planning 0 (req 0 2 32767)).lenL.toNat) ∧
    (1 ≤ (at_ .planning 1 (req 0 1 32767)).lenL.toNat ∧
      (at_ .planning 1 (req 0 1 32767)).addrL.toNat + (at_ .planning 1 (req 0 1 32767)).lenL.toNat ≤ 32768) :=
  ⟨.inr rfl, by decide⟩

theorem witness_PlanOfStatusOperations : (at_ .planning 3 (req 0x41 0 0)).st = .planning := rfl

/-- A state in ISSUING without the bus, the grant as given. -/
def asking (g : Bool) : State :=
  { onBus .issuing 1 (req 0 5 0x0100) false .rdsr 0 .idle with grants := { coming := [g], after := true } }

theorem witness_AcquireOnGrantElseWait :
    IsOperation (.write (req 0 5 0x0100)) 0b001#3 (req 0 5 0x0100) ∧ (asking true).st = .issuing ∧ (asking true).owner = false ∧
    (asking true).grants.head = true ∧ (asking false).grants.head = false := by
  refine ⟨?_, by decide⟩
  simp [IsOperation]

/-- The last clause with a buffer of exactly the bytes needed. -/
theorem witness_IssueOfDataOperations :
    IsDataOp (.read (req 0 5 0x0100)) (req 0 5 0x0100) ∧ IsDataOp (.write (req 0 5 0x0100)) (req 0 5 0x0100) ∧
    (onBus .issuing 1 (req 0 5 0x0100) true .rdsr 0 .idle).owner = true ∧
    (onBus .issuing 1 (req 0 5 0x0100) true .wrsr 0 .idle).phase = .wrsr ∧
    (let s := { onBus .issuing 1 (req 0 5 0x0100) true .data 0 .idle with buf := fiveBytes }
     s.st = .issuing ∧ s.phase = .data ∧ s.done.toNat + min s.remaining.toNat s.cfg.maxChunk ≤ s.buf.size) :=
  ⟨.inl rfl, .inr rfl, by decide⟩

theorem witness_IssueOfStatusOperations :
    IsOperation (.setMode (req 1 0 0)) 0b101#3 (req 1 0 0) ∧ ¬ IsDataOp (.setMode (req 1 0 0)) (req 1 0 0) ∧
    (onBus .issuing 5 (req 1 0 0) true .rdsr 0 .idle).st = .issuing ∧ (onBus .issuing 5 (req 1 0 0) true .rdsr 0 .idle).owner = true ∧
    (onBus .issuing 5 (req 1 0 0) true .wrsr 0 .idle).phase = .wrsr := by
  refine ⟨?_, ?_, by decide⟩ <;> simp [IsOperation, IsDataOp]

theorem witness_EnsureStepReadsTheMode :
    IsDataOp (.read (req 0 1 0)) (req 0 1 0) ∧
    (onBus .waiting 0 (req 0 1 0) true .rdsr 0 (.answered (.ok [9, 0x40]))).xfer = .answered (.ok [9, 0x40]) ∧
    modeOf Config.default 0x40 = Config.default.modeSeq ∧ modeOf Config.default 0xC0 ≠ Config.default.modeSeq :=
  ⟨.inl rfl, by decide⟩

theorem witness_EnsureStepWritesTheMode :
    IsDataOp (.write (req 0 1 0)) (req 0 1 0) ∧
    (let s := onBus .waiting 1 (req 0 1 0) true .wrsr 0 (.answered (.ok [9, 9]))
     s.st = .waiting ∧ s.phase = .wrsr ∧ s.xfer = .answered (.ok [9, 9])) :=
  ⟨.inr rfl, by decide⟩

/-- READ and WRITE, a last chunk and one that is not, the buffer just long enough. -/
theorem witness_DataChunkSuccess :
    IsDataOp (.read (req 0 7 0x7FF9)) (req 0 7 0x7FF9) ∧ IsDataOp (.write (req 0 7 0x7FF9)) (req 0 7 0x7FF9) ∧
    (let s := { readAnswered 3 [0, 0, 0, 4, 5, 6] with buf := { size := 6, bytes := [] } }
     s.st = .waiting ∧ s.phase = .data ∧ ([0, 0, 0, 4, 5, 6] : List Byte).length = 3 + min s.remaining.toNat s.cfg.maxChunk ∧
     s.done.toNat + min s.remaining.toNat s.cfg.maxChunk ≤ s.buf.size ∧ s.buf.bytes.wf = true ∧
     s.remaining.toNat ≠ min s.remaining.toNat s.cfg.maxChunk) ∧
    (let s := { readAnswered 6 [0, 0, 0, 7] with buf := { size := 7, bytes := [] } }
     ([0, 0, 0, 7] : List Byte).length = 3 + min s.remaining.toNat s.cfg.maxChunk ∧
     s.done.toNat + min s.remaining.toNat s.cfg.maxChunk ≤ s.buf.size ∧ s.remaining.toNat = min s.remaining.toNat s.cfg.maxChunk) :=
  ⟨.inl rfl, .inr rfl, by decide⟩

theorem witness_StatusAnswersAreTaken :
    (let s := onBus .waiting 5 (req 1 0 0) true .rdsr 0 (.answered (.ok [9, 0x81]))
     s.st = .waiting ∧ s.xfer = .answered (.ok [9, 0x81]) ∧ s.phase = .rdsr) ∧
    (onBus .waiting 5 (req 1 0 0) true .wrsr 0 (.answered (.ok [9, 0x81]))).phase = .wrsr := by decide

theorem witness_TransportErrorIsRaised :
    IsOperation (.getStatus (req 0 0 0)) 0b010#3 (req 0 0 0) ∧
    (let s := onBus .waiting 2 (req 0 0 0) true .rdsr 0 (.answered .err)
     s.st = .waiting ∧ s.xfer = .answered .err) := by
  refine ⟨?_, by decide⟩
  simp [IsOperation]

theorem witness_ReportDeliversTheResult :
    IsOperation (.getMode (req 0 0 0)) 0b100#3 (req 0 0 0) ∧ (at_ .failed 4 (req 0 0 0)).takes.head = true ∧
    (at_ .failed 4 (req 0 0 0)).st = .failed ∧ (at_ .complete 4 (req 0 0 0)).st = .complete := by
  refine ⟨?_, by decide⟩
  simp [IsOperation]

theorem witness_ResultIsHeldUntilTaken :
    IsOperation (.read (req 0 0 0)) 0b000#3 (req 0 0 0) ∧
    (let s := { at_ .complete 0 (req 0 0 0) with takes := { coming := [false], after := true } }
     s.st = .complete ∧ s.takes.head = false) := by
  refine ⟨?_, by decide⟩
  simp [IsOperation]

theorem witness_BlockWaitsForTheAnswer :
    IsOperation (.getStatus (req 0 0 0)) 0b010#3 (req 0 0 0) ∧
    (let s := onBus .waiting 2 (req 0 0 0) true .rdsr 0 (.sent [0x05, 0x00])
     s.st = .waiting ∧ s.xfer = .sent [0x05, 0x00]) := by
  refine ⟨?_, by decide⟩
  simp [IsOperation]

/-- A frame in flight at a reset edge. -/
def cutAt (sr : Byte) (f : Fate) (out : List Byte) : State :=
  { onBus .waiting 1 (req 0 2 0x10) true .data 0 (.sent out) with
    chip := { mem := [], sr := sr, ptr := 0 }, rst := { coming := [true], after := false }, fates := { coming := [f], after := .busy } }

theorem witness_ReadFrameAnswersTheArray :
    (let s := at_ .waiting 0 (req 0 0 0)
     1 ≤ ([0xAA] : List Byte).length ∧ modeOf s.cfg s.chip.sr = s.cfg.modeSeq ∧ s.fates.head = .complete) := by decide

theorem witness_WriteFrameStoresThePayload :
    (let s := at_ .waiting 1 (req 0 0 0)
     1 ≤ ([0xAA] : List Byte).length ∧ ([0xAA] : List Byte).length ≤ 32768 ∧ modeOf s.cfg s.chip.sr = s.cfg.modeSeq ∧
     s.fates.head = .complete ∧ s.chip.mem.wf = true) := by decide

theorem witness_StatusFramesReadAndWriteTheRegister : (at_ .waiting 2 (req 0 0 0)).fates.head = .complete := rfl

theorem witness_FailedFrameLeavesALeadingPart :
    (let s := { at_ .waiting 0 (req 0 0 0) with fates := { coming := [.fail 0], after := .busy } }
     s.fates.head = .fail 0 ∧ 1 ≤ ([0xAA] : List Byte).length ∧ modeOf s.cfg s.chip.sr = s.cfg.modeSeq ∧ s.chip.mem.wf = true) := by
  decide

theorem witness_BusyTransportChangesNothing :
    (let s := { at_ .waiting 0 (req 0 0 0) with fates := { coming := [.busy], after := .complete } }
     s.fates.head = .busy ∧ 1 ≤ ([0xAA] : List Byte).length) := by decide

/-- `Ok` and `Err`. -/
theorem witness_TransportMayAnswerAnything :
    decodeFrame [0x05, 0x00] = .ok (.frameRdsr 0x00) ∧
    (let s := { at_ .waiting 2 (req 0 0 0) with
                fates := { coming := [.reply (.ok [1, 2]) { sr := none, bytes := [], ptr := none },
                                      .reply .err { sr := some 3, bytes := [(0, 4)], ptr := some 5 }], after := .busy } }
     s.fates.head = .reply (.ok [1, 2]) { sr := none, bytes := [], ptr := none } ∧
     s.fates.pop.head = .reply .err { sr := some 3, bytes := [(0, 4)], ptr := some 5 }) ∧
    ∀ inb, Answer.ok [1, 2] = .ok inb → inb.length = ([0x05, 0x00] : List Byte).length := by
  refine ⟨by decide, by decide, fun inb h => ?_⟩
  cases h
  rfl

theorem witness_ChipRefusesWhatHasNoMeaning :
    (modeOf State.reset.cfg State.reset.chip.sr ≠ State.reset.cfg.modeSeq ∧ State.reset.fates.head = .complete) ∧
    (cutAt 0x00 (.fail 1) []).fates.head = .fail (0 + 1) ∧
    (let s := onBus .waiting 0 (req 0 1 0) true .data 0 (.sent [0x03, 0, 0])
     s.cfg.legal = true ∧ s.rst.head = false ∧ s.st = .waiting ∧ s.xfer = .sent [0x03, 0, 0]) ∧
    (∀ i, decodeFrame [0x03, 0, 0] ≠ .ok i) := by
  refine ⟨by decide, rfl, by decide, fun i => ?_⟩
  rw [show decodeFrame [0x03, 0, 0] = .error .notAFrame from rfl]
  simp

theorem witness_StepRunsTheDecodedInstruction :
    (let s := offering 0x10000050100#75 (some fiveBytes)
     s.cfg.legal = true ∧ s.rst.head = false ∧ s.st = .idle ∧
     s.requests.head = some { word := 0x10000050100#75, attach := some fiveBytes } ∧
     decode s.cfg (.request 0x10000050100#75) = .ok (.write (req 0 5 0x0100))) ∧
    (let s := onBus .waiting 0 (req 0 1 0) true .rdsr 0 (.sent [0x05, 0])
     s.st = .waiting ∧ s.xfer = .sent [0x05, 0] ∧ decode s.cfg (.frame [0x05, 0]) = .ok (.frameRdsr 0)) ∧
    (let s := at_ .complete 4 (req 0 0 0)
     s.st ≠ .idle ∧ s.st ≠ .waiting ∧
     decodeFields s.opL { data := s.dataL, len := s.lenL, addr := s.addrL } = .ok (.getMode (req 0 0 0))) := by
  decide

theorem witness_ReservedRequestsAreRefused :
    (let s := offering 0x60000000000#75 none
     s.cfg.legal = true ∧ s.rst.head = false ∧ s.st = .idle ∧ s.requests.head = some { word := 0x60000000000#75, attach := none } ∧
     (0x60000000000#75 : ReqWord).toNat < 2 ^ reqBits s.cfg ∧ requestOp s.cfg 0x60000000000#75 = 0b110#3 ∧
     requestOp s.cfg 0x7FFFFFFFFFF#75 = 0b111#3 ∧ (0x7FFFFFFFFFF#75 : ReqWord).toNat < 2 ^ reqBits s.cfg) ∧
    (let f := requestFields Config.default 0x50300000000#75
     requestOp Config.default 0x50300000000#75 = 0b101#3 ∧ f.data.setWidth 2 = 0b11#2) := by decide

/-- One byte short and just long enough, for a length whose plan fails and for one whose plan has chunks. -/
theorem witness_ShortBufferIsRefused :
    IsDataOp (.read (req 0 4 0)) (req 0 4 0) ∧ IsDataOp (.write (req 0 257 0x7F00)) (req 0 257 0x7F00) ∧
    (let s := { State.reset with buf := { size := 3, bytes := [] } }
     s.st = .idle ∧ s.buf.size < (req 0 4 0).len.toNat ∧ s.buf.size < (req 0 257 0x7F00).len.toNat) ∧
    (let s := { State.reset with buf := { size := 257, bytes := [] } }
     s.st = .idle ∧ ¬ s.buf.size < (req 0 4 0).len.toNat ∧ ¬ s.buf.size < (req 0 257 0x7F00).len.toNat) :=
  ⟨.inl rfl, .inr rfl, by decide⟩

theorem witness_ZeroMaxChunkIsRefused :
    ({ State.reset with cfg := { Config.default with maxChunk := 0 } } : State).cfg.maxChunk = 0 := rfl

theorem witness_IdleBlockDoesNothing :
    State.reset.cfg.legal = true ∧ State.reset.rst.head = false ∧ State.reset.st = .idle ∧ State.reset.requests.head = none := by
  decide

theorem witness_ResetEdgeResetsTheBlock :
    (let s := { onBus .issuing 1 (req 0 5 0x0100) true .rdsr 0 .idle with rst := { coming := [true], after := false } }
     s.cfg.legal = true ∧ s.rst.head = true ∧ s.st ≠ .waiting) ∧
    (∀ out, (onBus .waiting 1 (req 0 5 0x0100) true .rdsr 0 (.answered .err)).xfer ≠ .sent out) := by
  refine ⟨by decide, fun out => ?_⟩
  simp [onBus]

/-- Each of the four frames; the last two clauses where the chip is not the one that answers. -/
theorem witness_ResetCutsTheFrameInFlight :
    (let s := cutAt 0x40 (.fail 4) [0x02, 0x00, 0x10, 0xAA, 0xBB]
     s.cfg.legal = true ∧ s.rst.head = true ∧ s.st = .waiting ∧ s.owner = true ∧
     s.xfer = .sent [0x02, 0x00, 0x10, 0xAA, 0xBB] ∧ decodeFrame [0x02, 0x00, 0x10, 0xAA, 0xBB] = .ok (.frameWrite 0x0010 [0xAA, 0xBB]) ∧
     modeOf s.cfg s.chip.sr = s.cfg.modeSeq ∧ s.fates.head.isReply = false ∧ s.chip.mem.wf = true) ∧
    decodeFrame [0x03, 0x00, 0x10, 0x00] = .ok (.frameRead 0x0010 [0x00]) ∧
    decodeFrame [0x05, 0x00] = .ok (.frameRdsr 0x00) ∧ decodeFrame [0x01, 0x41] = .ok (.frameWrsr 0x41) ∧
    (cutAt 0x00 .busy [0x03, 0x00, 0x10, 0x00]).fates.head.byChip = false ∧
    (let did : ChipChange := { sr := some 1, bytes := [], ptr := none }
     (cutAt 0x00 (.reply .err did) [0x03, 0x00, 0x10, 0x00]).fates.head = .reply .err did) := by decide

/-- Each state of the sequencer moves, for some operation. -/
theorem witness_OperationsLeaveTheRestAlone :
    (∃ t, exec (.write (req 0 5 0x0100)) State.reset = .next t) ∧
    (∃ t, exec (.getMode (req 0 0 0)) (at_ .planning 4 (req 0 0 0)) = .next t) ∧
    (∃ t, exec (.write (req 0 5 0x0100)) (asking true) = .next t) ∧
    (∃ t, exec (.read (req 0 7 0x7FF9)) (readAnswered 3 [0, 0, 0, 4, 5, 6]) = .next t) ∧
    (∃ t, exec (.getMode (req 0 0 0)) (at_ .complete 4 (req 0 0 0)) = .next t) ∧
    (readAnswered 3 [0, 0, 0, 4, 5, 6]).buf.bytes.wf = true :=
  ⟨⟨_, rfl⟩, ⟨_, rfl⟩, ⟨_, rfl⟩, ⟨_, rfl⟩, ⟨_, rfl⟩, rfl⟩

theorem witness_FramesLeaveTheRestAlone :
    (∀ op r, ¬ IsOperation (.frameWrite 0x7FFF [0xAA, 0xBB]) op r) ∧
    (∃ t, exec (.frameWrite 0x7FFF [0xAA, 0xBB]) (at_ .waiting 1 (req 0 0 0)) = .next t) ∧
    (∃ t, exec (.frameWrsr 0xFF) (at_ .waiting 3 (req 0 0 0)) = .next t) ∧ (at_ .waiting 1 (req 0 0 0)).chip.mem.wf = true ∧
    (at_ .waiting 1 (req 0 0 0)).fates.head.isReply = false ∧
    (cutAt 0x00 (.reply .err { sr := none, bytes := [], ptr := none }) []).fates.head = .reply .err { sr := none, bytes := [], ptr := none } :=
  ⟨by simp [IsOperation], ⟨_, rfl⟩, ⟨_, rfl⟩, rfl, rfl, rfl⟩

theorem witness_ConfigurationIsNeverWritten : ∃ t, step (offering 0x10000050100#75 (some fiveBytes)) = .next t := ⟨_, rfl⟩

/-- With and without another master. -/
theorem witness_ChipChangesOnlyThroughTransfers :
    ((∃ t, step State.reset = .next t) ∧ State.reset.st ≠ .waiting ∧ State.reset.SoleUser) ∧
    (let s := { State.reset with others := { coming := [some { sr := some 0x80, bytes := [], ptr := none }], after := none } }
     (∃ t, step s = .next t) ∧ s.owner = false ∧ s.others.head = some { sr := some 0x80, bytes := [], ptr := none }) :=
  ⟨⟨⟨_, rfl⟩, by decide, rfl⟩, ⟨_, rfl⟩, rfl, rfl⟩

/-- Another buffer attached, and a READ chunk that lands. -/
theorem witness_BufferChangesOnlyWhereAReadChunkLands :
    (∃ t, step (offering 0x10000050100#75 (some fiveBytes)) = .next t ∧ t.buf ≠ State.reset.buf) ∧
    (∃ t, step (readAnswered 3 [0, 0, 0, 4, 5, 6]) = .next t ∧ t.buf ≠ (readAnswered 3 [0, 0, 0, 4, 5, 6]).buf) :=
  ⟨⟨_, rfl, by decide⟩, ⟨_, rfl, by decide⟩⟩

theorem witness_FramesAreIssuedInsideAWindow :
    ∃ t, step (onBus .issuing 1 (req 0 5 0x0100) true .rdsr 0 .idle) = .next t ∧ t.xfer = .sent [0x05, 0x00] ∧
      (onBus .issuing 1 (req 0 5 0x0100) true .rdsr 0 .idle).xfer ≠ .sent [0x05, 0x00] := ⟨_, rfl, rfl, by decide⟩

/-! ### States that meet the invariant -/

theorem offersWf_one {w : ReqWord} {b : Buffer} (h : b.wf = true) :
    offersWf { coming := [some { word := w, attach := some b }], after := none } := by
  intro q hq b' hb'
  simp only [List.mem_singleton, Option.some.injEq, reduceCtorEq, or_false] at hq
  subst hq
  simp only [Option.some.injEq] at hb'
  exact hb' ▸ h

theorem offersWf_none : offersWf { coming := [], after := none } := by
  intro q hq
  simp at hq

/-- IDLE with a request and its buffer offered. -/
theorem offering_inv (w : ReqWord) : (offering w (some fiveBytes)).Inv :=
  State.Inv.of_idle rfl rfl rfl rfl (offersWf_one rfl) rfl rfl rfl (by simp [offering, State.reset])

theorem offering_prompt (w : ReqWord) : (offering w (some fiveBytes)).Prompt := ⟨rfl, rfl, rfl, rfl⟩

/-- A READ or WRITE of five bytes at 0x0100 in WAITING, phase PH_DATA. -/
def inData (op : BitVec 3) (x : Xfer) : State := onBus .waiting op (req 0 5 0x0100) true .data 0 x

/-- Its data frame. -/
def inDataFrame (op : BitVec 3) : List Byte :=
  (if op = 0 then [0x03, 0x01, 0x00] else [0x02, 0x01, 0x00]) ++ [0, 0, 0, 0, 0]

theorem inData_inv {op : BitVec 3} {x : Xfer} (ho : op = 0 ∨ op = 1) (hx : x = .sent (inDataFrame op) ∨ x = .answered .err) :
    (inData op x).Inv := by
  have hd : (inData op x).isData := ho
  constructor
  case legal => rfl
  case fits => rfl
  case chipWf => rfl
  case bufWf => rfl
  case offers => exact offersWf_none
  case current => rcases ho with rfl | rfl <;> exact fun _ => ⟨_, rfl⟩
  case room => exact fun _ _ => (by decide : 5 ≤ 65536)
  case owned => exact fun _ => .inr rfl
  case window => exact fun _ => rfl
  case edges => exact ⟨fun _ => rfl, fun _ => rfl⟩
  case progress => exact fun _ _ => ⟨rfl, rfl, rfl, (by decide : 1 ≤ 5), ⟨0, rfl⟩⟩
  case ensured => exact fun _ _ h => absurd (show Phase.data = _ from h) (by decide)
  case status => exact fun _ h => absurd hd h
  case clean => exact fun _ _ => rfl
  case flight =>
    intro _
    rcases hx with rfl | rfl
    · rcases ho with rfl | rfl <;> exact .inl rfl
    · exact .inr (.inl rfl)
  case quiet => exact fun h => absurd rfl h
  all_goals
    intro h
    exact absurd (show SeqState.waiting = _ from h) (by decide)

/-- The chip is in SEQUENTIAL mode, as the block was told. -/
theorem inData_agrees {op : BitVec 3} {x : Xfer} (hx : x = .sent (inDataFrame op) ∨ x = .answered .err) :
    (inData op x).ChipAgrees :=
  .of_no_answer (fun inb h => by rcases hx with rfl | rfl <;> cases h)
    fun _ _ _ => (by decide : chipSequential Config.default { mem := [], sr := 0x40#8, ptr := 0#15 } = true)

/-- GETSTATUS that has failed at its only frame. -/
theorem failed_inv (f : Feed Fate) (k : Feed Bool) :
    ({ at_ .failed 2 (req 0 0 0) with errKind := .transport, fates := f, takes := k } : State).Inv := by
  constructor <;>
    simp [at_, State.reset, State.inBus, State.isData, State.latched, State.ownReq, offersWf, req]
  all_goals first | decide | exact ⟨_, rfl⟩

theorem witness_BusIsReleasedAtThreePlaces :
    (inData 0 (.answered .err)).Inv ∧ (inData 0 (.answered .err)).rst.head = false ∧ (inData 0 (.answered .err)).owner = true ∧
    ∃ t, step (inData 0 (.answered .err)) = .next t ∧ t.owner = false :=
  ⟨inData_inv (.inl rfl) (.inr rfl), rfl, rfl, _, rfl, rfl⟩

/-- The result taken, and not taken. -/
theorem witness_FailureIsLeftOnlyByTheReport :
    (let s : State := { at_ .failed 2 (req 0 0 0) with errKind := .transport }
     s.Inv ∧ s.st = .failed ∧ s.rst.head = false ∧ s.takes.head = true ∧ ∃ t, step s = .next t) ∧
    (let s : State := { at_ .failed 2 (req 0 0 0) with errKind := .transport, takes := { coming := [false], after := true } }
     s.Inv ∧ s.st = .failed ∧ s.rst.head = false ∧ s.takes.head = false ∧ ∃ t, step s = .next t) ∧
    (at_ .failed 2 (req 0 0 0)).others.head = none :=
  ⟨⟨failed_inv _ _, rfl, rfl, rfl, _, rfl⟩, ⟨failed_inv _ _, rfl, rfl, rfl, _, rfl⟩, rfl⟩

theorem witness_DataFramesStayInsideTheChip :
    (inData 0 (.sent (inDataFrame 0))).Inv ∧ (inData 1 (.sent (inDataFrame 1))).Inv ∧
    (inData 0 (.sent (inDataFrame 0))).st = .waiting ∧
    decodeFrame (inDataFrame 0) = .ok (.frameRead 0x0100 [0, 0, 0, 0, 0]) ∧
    decodeFrame (inDataFrame 1) = .ok (.frameWrite 0x0100 [0, 0, 0, 0, 0]) ∧
    (inData 0 (.sent (inDataFrame 0))).ChipAgrees ∧ (inData 1 (.sent (inDataFrame 1))).ChipAgrees :=
  ⟨inData_inv (.inl rfl) (.inl rfl), inData_inv (.inr rfl) (.inl rfl), rfl, by decide, by decide,
   inData_agrees (.inl rfl), inData_agrees (.inl rfl)⟩

theorem inData_reference (op : BitVec 3) (x : Xfer) : (inData op x).ReferenceChip :=
  ⟨by simp [inData, onBus, at_, State.reset], rfl⟩

theorem witness_StepKeepsTheInvariant :
    (inData 1 (.sent (inDataFrame 1))).Inv ∧ (∃ t, step (inData 1 (.sent (inDataFrame 1))) = .next t) ∧
    (inData 1 (.sent (inDataFrame 1))).ReferenceChip ∧ (inData 1 (.sent (inDataFrame 1))).ChipAgrees :=
  ⟨inData_inv (.inr rfl) (.inl rfl), ⟨_, rfl⟩, inData_reference _ _, inData_agrees (.inl rfl)⟩

/-- The same Operation behind a Transport that answers as it likes. -/
def freely (s : State) : State :=
  { s with fates := { coming := [], after := .reply .err { sr := none, bytes := [], ptr := none } } }

/-- Not IDLE, with either premise on the chip; IDLE with a request that is refused; IDLE with one that is accepted. -/
theorem witness_AcceptedOperationNeverStops :
    ((inData 0 (.sent (inDataFrame 0))).Inv ∧ (inData 0 (.sent (inDataFrame 0))).st ≠ .idle ∧
      (inData 0 (.sent (inDataFrame 0))).ChipAgrees) ∧
    ((freely (inData 0 (.sent (inDataFrame 0)))).st ≠ .idle ∧
      (freely (inData 0 (.sent (inDataFrame 0)))).fates.head.byChip = false) ∧
    ((offering 0x60000000000#75 (some fiveBytes)).Inv ∧ (offering 0x60000000000#75 (some fiveBytes)).st = .idle ∧
      isRefused (step (offering 0x60000000000#75 (some fiveBytes))) .reservedOperation = true) ∧
    ∃ t, step (offering 0x10000050100#75 (some fiveBytes)) = .next t :=
  ⟨⟨inData_inv (.inl rfl) (.inl rfl), by decide, inData_agrees (.inl rfl)⟩, ⟨by decide, rfl⟩,
   ⟨offering_inv _, rfl, by decide⟩, _, rfl⟩

/-- The reference chip, and answers of the environment's own after a failure. -/
theorem witness_AcceptedOperationReachesItsReport :
    ((inData 0 (.sent (inDataFrame 0))).Inv ∧ (inData 0 (.sent (inDataFrame 0))).st ≠ .idle ∧
      (inData 0 (.sent (inDataFrame 0))).Fair ∧ (inData 0 (.sent (inDataFrame 0))).ReferenceChip ∧
      (inData 0 (.sent (inDataFrame 0))).ChipAgrees) ∧
    (let s : State := freely { at_ .failed 2 (req 0 0 0) with errKind := .transport }
     s.Inv ∧ s.st ≠ .idle ∧ s.Fair ∧ s.FreeAnswers) :=
  ⟨⟨inData_inv (.inl rfl) (.inl rfl), by decide,
    ⟨⟨by simp [inData, onBus, at_, State.reset], rfl⟩, rfl, rfl, by decide⟩, inData_reference _ _, inData_agrees (.inl rfl)⟩,
   ⟨failed_inv _ _, by decide, ⟨⟨by simp [freely, at_, State.reset], rfl⟩, rfl, rfl, by decide⟩, by simp [freely], rfl⟩⟩

/-- The READ and WRITE of five bytes with a buffer of five. -/
theorem witness_ReadReturnsTheChipsBytes :
    (let s := offering 0x00000050100#75 (some fiveBytes)
     s.Inv ∧ s.Prompt ∧ s.SoleUser ∧ s.st = .idle ∧ s.requests.head = some { word := 0x00000050100#75, attach := some fiveBytes } ∧
     decode s.cfg (.request 0x00000050100#75) = .ok (.read (req 0 5 0x0100)) ∧ 1 ≤ (req 0 5 0x0100).len.toNat ∧
     (req 0 5 0x0100).addr.toNat + (req 0 5 0x0100).len.toNat ≤ 32768 ∧ (req 0 5 0x0100).len.toNat ≤ fiveBytes.size) :=
  ⟨offering_inv _, offering_prompt _, rfl, by decide⟩

theorem witness_WriteStoresTheBuffersBytes :
    (let s := offering 0x10000050100#75 (some fiveBytes)
     s.Inv ∧ s.Prompt ∧ s.SoleUser ∧ s.st = .idle ∧ s.requests.head = some { word := 0x10000050100#75, attach := some fiveBytes } ∧
     decode s.cfg (.request 0x10000050100#75) = .ok (.write (req 0 5 0x0100))) :=
  ⟨offering_inv _, offering_prompt _, rfl, by decide⟩

/-- P1 with equal lengths: the two requests one after the other. -/
def writeThenRead : State :=
  { State.reset with requests := { coming := [some { word := 0x10000050100#75, attach := some fiveBytes },
                                             some { word := 0x00000050100#75, attach := some { size := 5, bytes := [] } }], after := none } }

theorem witness_WriteThenReadReturnsTheBytes :
    writeThenRead.Inv ∧ writeThenRead.Prompt ∧ writeThenRead.SoleUser ∧ writeThenRead.st = .idle ∧
    writeThenRead.requests.coming = [some { word := 0x10000050100#75, attach := some fiveBytes },
                                     some { word := 0x00000050100#75, attach := some { size := 5, bytes := [] } }] ∧
    decode writeThenRead.cfg (.request 0x10000050100#75) = .ok (.write (req 0 5 0x0100)) ∧
    decode writeThenRead.cfg (.request 0x00000050100#75) = .ok (.read (req 0 5 0x0100)) := by
  refine ⟨State.Inv.of_idle rfl rfl rfl rfl ?_ rfl rfl rfl (by decide), ⟨rfl, rfl, rfl, rfl⟩, rfl, by decide⟩
  intro q hq b hb
  simp only [writeThenRead, List.mem_cons, Option.some.injEq, List.not_mem_nil, or_false, reduceCtorEq] at hq
  rcases hq with rfl | rfl <;> simp only [Option.some.injEq] at hb <;> subst hb <;> rfl

/-- IDLE with a request and a buffer of that many zero bytes offered, at `LEN_W` = 32. -/
def offeringZeros (w : ReqWord) (size : Nat) : State :=
  { offering w (some { size := size, bytes := [] }) with cfg := { Config.default with lenW := 32 } }

/-- Length 0 at an address above the chip; one byte beyond the end; 65536, each with a buffer of just that length. -/
theorem witness_EmptyAndFailedPlansTouchNothing :
    (let s := offering 0x0000000FFFF#75 (some fiveBytes)
     s.Inv ∧ s.Prompt ∧ s.SoleUser ∧ decode s.cfg (.request 0x0000000FFFF#75) = .ok (.read (req 0 0 0xFFFF)) ∧
       (req 0 0 0xFFFF).len.toNat ≤ fiveBytes.size) ∧
    (let s := offeringZeros 0x100000000027FFF#75 2
     s.Inv ∧ s.Prompt ∧ s.SoleUser ∧ decode s.cfg (.request 0x100000000027FFF#75) = .ok (.write (req 0 2 0x7FFF)) ∧
       32768 < (req 0 2 0x7FFF).addr.toNat + (req 0 2 0x7FFF).len.toNat ∧ (req 0 2 0x7FFF).len.toNat ≤ 2) ∧
    (let s := offeringZeros 0x000100000000#75 65536
     s.Inv ∧ s.Prompt ∧ s.SoleUser ∧ decode s.cfg (.request 0x000100000000#75) = .ok (.read (req 0 65536 0)) ∧
       65536 ≤ (req 0 65536 0).len.toNat ∧ (req 0 65536 0).len.toNat ≤ 65536) :=
  ⟨⟨offering_inv _, offering_prompt _, rfl, by decide⟩,
   ⟨State.Inv.of_idle rfl rfl rfl rfl (offersWf_one rfl) rfl rfl rfl (by decide), ⟨rfl, rfl, rfl, rfl⟩, rfl, by decide⟩,
   State.Inv.of_idle rfl rfl rfl rfl (offersWf_one rfl) rfl rfl rfl (by decide), ⟨rfl, rfl, rfl, rfl⟩, rfl, by decide⟩

theorem witness_StatusOperationsEndToEnd :
    (offering 0x20000000000#75 (some fiveBytes)).Inv ∧ (offering 0x20000000000#75 (some fiveBytes)).Prompt ∧
    (offering 0x20000000000#75 (some fiveBytes)).SoleUser ∧
    decode Config.default (.request 0x20000000000#75) = .ok (.getStatus (req 0 0 0)) ∧
    decode Config.default (.request 0x34100000000#75) = .ok (.setStatus (req 0x41 0 0)) ∧
    decode Config.default (.request 0x40000000000#75) = .ok (.getMode (req 0 0 0)) ∧
    decode Config.default (.request 0x50200000000#75) = .ok (.setMode (req 2 0 0)) :=
  ⟨offering_inv _, offering_prompt _, rfl, by decide⟩

theorem witness_TransportFailureReportsWholeChunks :
    (let s := inData 0 (.answered .err)
     s.Inv ∧ s.st = .waiting ∧ s.xfer = .answered .err ∧ s.rst.head = false ∧ s.rst.pop.head = false ∧ s.takes.head = true ∧ s.SoleUser ∧ s.isData) :=
  ⟨inData_inv (.inl rfl) (.inr rfl), rfl, rfl, rfl, rfl, rfl, rfl, .inl rfl⟩

end Sys2Proof.Tests
end

/-! ### What the operations' transitions leave unchanged, and the other statements of 00_scope.md -/

namespace Sys2Proof.Machine

/-! #### Operation and mode codes -/

/-- Every operation decodes from its code and fields, SETMODE with the reserved mode code excepted (R102, R119). -/
theorem decodeFields_of_isOperation {op : BitVec 3} {r : ReqFields} {i : Instr} (h : IsOperation i op r)
    (hm : op = 0b101#3 → r.data.setWidth 2 ≠ 0b11#2) : decodeFields op r = .ok i := by
  rcases h with ⟨rfl, rfl⟩ | ⟨rfl, rfl⟩ | ⟨rfl, rfl⟩ | ⟨rfl, rfl⟩ | ⟨rfl, rfl⟩ | ⟨rfl, rfl⟩
  case inr.inr.inr.inr.inr => simp [decodeFields, modeReserved, hm rfl]
  all_goals rfl

/-- What decodes as SETMODE has a mode operand that is not reserved (R119). -/
theorem decodeFields_mode_ne_reserved {op : BitVec 3} {r : ReqFields} {i : Instr} (h : decodeFields op r = .ok i)
    (hop : op = 0b101#3) : r.data.setWidth 2 ≠ 0b11#2 := by
  subst hop
  intro hm
  simp [decodeFields, modeReserved, hm] at h

/-- Three distinct two-bit codes other than 0b11 are all of them. -/
theorem modeCode_ne_reserved_iff : ∀ b p q m : BitVec 2, b ≠ p → b ≠ q → p ≠ q →
    b ≠ 0b11#2 → p ≠ 0b11#2 → q ≠ 0b11#2 → (m ≠ 0b11#2 ↔ m = b ∨ m = p ∨ m = q) := by
  intro b p q m
  bv_omega

/-- Settles O6: the decoder's cases in both directions, and the three legal mode codes exhaust what is not 0b11. -/
theorem operationCodesNameTheirOperations : Obligations.OperationCodesNameTheirOperations := by
  refine ⟨fun op r i => ⟨fun h => ⟨decodeFields_isOperation h, decodeFields_mode_ne_reserved h⟩,
    fun h => decodeFields_of_isOperation h.1 h.2⟩, fun c m hl => ?_⟩
  simp only [Config.legal, modeReserved, decide_eq_true_eq, beq_eq_false_iff_ne] at hl
  obtain ⟨-, -, -, -, -, -, -, hbp, hbq, hpq, hb, hp, hq⟩ := hl
  exact modeCode_ne_reserved_iff _ _ _ m hbp hbq hpq hb hp hq

/-! #### Illegal configurations -/

theorem step_illegal {s : State} (hl : s.cfg.legal = false) : step s = .refused .illegalConfig := by
  unfold step
  rw [nextAction_illegal hl]

theorem Config.legal_of_zero_maxChunk {c : Config} (h : c.maxChunk = 0) : c.legal = false := by
  simp [Config.legal, h]

/-- Settles O37: such a configuration is not legal, and `step` refuses what is not. -/
theorem zeroMaxChunkIsRefused : Obligations.ZeroMaxChunkIsRefused :=
  fun _ h => step_illegal (Config.legal_of_zero_maxChunk h)

/-! #### The frame of each transition: the fields it may write -/

/-- `t` is `s` but for what T_PLAN writes (R172, R211). -/
def PlanFrame (s t : State) : Prop :=
  t = { s with st := t.st, curAddr := t.curAddr, remaining := t.remaining, done := t.done, phase := t.phase,
               srTmp := t.srTmp, errKind := t.errKind, ownEdges := t.ownEdges }

/-- `t` is `s` but for what T_ACQUIRE and T_ISSUE write (R173, R174). -/
def BusFrame (s t : State) : Prop :=
  t = { s with st := t.st, owner := t.owner, xfer := t.xfer, grants := t.grants }

/-- `t` is `s` but for what T_OK and T_ERR write (R176 to R181, R216). -/
def AnswerFrame (s t : State) : Prop :=
  t = { s with st := t.st, owner := t.owner, xfer := t.xfer, curAddr := t.curAddr, remaining := t.remaining,
               done := t.done, phase := t.phase, srTmp := t.srTmp, errKind := t.errKind,
               ownEdges := t.ownEdges, buf := t.buf }

/-- `t` is `s` but for what T_REPORT writes (R182). -/
def ReportFrame (s t : State) : Prop :=
  t = { s with st := t.st, takes := t.takes, delivered := t.delivered }

theorem tPlanData_frame (s : State) : PlanFrame s (tPlanData s) := by
  rcases tPlanData_cases s with ⟨-, h⟩ | ⟨-, h⟩ | ⟨-, h⟩ | ⟨-, h⟩ <;> rw [h] <;> rfl

theorem tAcquire_frame (s : State) : BusFrame s (tAcquire s) := by
  rcases tAcquire_cases s with ⟨-, h⟩ | ⟨-, h⟩ <;> rw [h] <;> rfl

theorem tReport_frame (data : State → Byte) (s : State) : ReportFrame s (tReport data s) := by
  rcases tReport_cases data s with ⟨-, h⟩ | ⟨-, h⟩ <;> rw [h] <;> rfl

theorem AnswerFrame.trans {s t u : State} (h : AnswerFrame s t) (h' : AnswerFrame t u) : AnswerFrame s u := by
  unfold AnswerFrame at *
  rw [h', h]

theorem chunkDone_frame (s : State) : AnswerFrame s (chunkDone s) := by
  rcases chunkDone_cases s with ⟨-, h⟩ | ⟨-, h⟩ <;> rw [h] <;> rfl

@[simp] theorem chunkDone_buf (s : State) : (chunkDone s).buf = s.buf := by
  rcases chunkDone_cases s with ⟨-, h⟩ | ⟨-, h⟩ <;> rw [h] <;> rfl

/-- What a transition of an operation may write, for each value of `st` (R170): the status operations leave the chunk
registers alone (R211, R216), and only a READ chunk that lands changes the buffer (20_memory.md R85). -/
theorem operation_frame {i : Instr} {op : BitVec 3} {r : ReqFields} {s t : State} (h : IsOperation i op r)
    (he : exec i s = .next t) :
    (s.st = .idle ∧ t = s.accept op r) ∨
    (s.st = .planning ∧ PlanFrame s t ∧ (¬ IsDataOp i r → t.curAddr = s.curAddr ∧ t.remaining = s.remaining)) ∨
    (s.st = .issuing ∧ BusFrame s t) ∨
    (s.st = .waiting ∧ AnswerFrame s t ∧ (¬ IsDataOp i r → t.curAddr = s.curAddr ∧ t.remaining = s.remaining) ∧
      (t.buf = s.buf ∨ (i = .read r ∧ s.phase = .data ∧ ∃ inb, t.buf = (s.storeChunk inb).buf))) ∨
    ((s.st = .complete ∨ s.st = .failed) ∧ ReportFrame s t) := by
  rcases operation_cases h he with hidle | ⟨hst, hd, rfl⟩ | ⟨hst, -, rfl | rfl⟩ | ⟨hst, -, out, rfl⟩ | ⟨hst, -, rfl⟩ |
    ⟨hst, hw⟩ | ⟨hst, data, rfl⟩
  · exact .inl hidle
  · exact .inr (.inl ⟨hst, tPlanData_frame s, absurd hd⟩)
  · exact .inr (.inl ⟨hst, rfl, fun _ => ⟨rfl, rfl⟩⟩)
  · exact .inr (.inl ⟨hst, rfl, fun _ => ⟨rfl, rfl⟩⟩)
  · exact .inr (.inr (.inl ⟨hst, rfl⟩))
  · exact .inr (.inr (.inl ⟨hst, tAcquire_frame s⟩))
  · refine .inr (.inr (.inr (.inl ⟨hst, ?_⟩)))
    rcases hw with ⟨rfl, -⟩ | ⟨-, rfl⟩ | ⟨inb, -, ⟨-, -, rfl⟩ | ⟨-, -, rfl⟩ | ⟨hi, -, rfl⟩ | ⟨hi, hp, -, rfl⟩ |
      ⟨-, -, b, rfl⟩ | ⟨-, -, b, rfl⟩⟩
    · exact ⟨rfl, fun _ => ⟨rfl, rfl⟩, .inl rfl⟩
    · exact ⟨rfl, fun _ => ⟨rfl, rfl⟩, .inl rfl⟩
    · exact ⟨rfl, fun _ => ⟨rfl, rfl⟩, .inl rfl⟩
    · exact ⟨rfl, fun _ => ⟨rfl, rfl⟩, .inl rfl⟩
    · exact ⟨AnswerFrame.trans (t := s.endTransfer) rfl (chunkDone_frame _), absurd (.inr hi), .inl (chunkDone_buf _)⟩
    · exact ⟨AnswerFrame.trans (t := s.endTransfer.storeChunk inb) rfl (chunkDone_frame _), absurd (.inl hi),
        .inr ⟨hi, hp, inb, chunkDone_buf _⟩⟩
    · exact ⟨rfl, fun _ => ⟨rfl, rfl⟩, .inl rfl⟩
    · exact ⟨rfl, fun _ => ⟨rfl, rfl⟩, .inl rfl⟩
  · exact .inr (.inr (.inr (.inr ⟨hst, tReport_frame data s⟩)))

/-- No operation touches the configuration, the chip, or an input that belongs to another agent (R17). -/
theorem operation_keeps_environment {i : Instr} {op : BitVec 3} {r : ReqFields} {s t : State}
    (h : IsOperation i op r) (he : exec i s = .next t) :
    t.cfg = s.cfg ∧ t.chip = s.chip ∧ t.requests = s.requests ∧ t.fates = s.fates ∧ t.rst = s.rst ∧
    t.draws = s.draws ∧ t.others = s.others := by
  rcases operation_frame h he with ⟨-, ht⟩ | ⟨-, ht, -⟩ | ⟨-, ht⟩ | ⟨-, ht, -⟩ | ⟨-, ht⟩ <;> rw [ht] <;> simp

/-- Each register stays in the states whose transitions do not write it (R171 to R182). -/
theorem operation_keeps_registers {i : Instr} {op : BitVec 3} {r : ReqFields} {s t : State}
    (h : IsOperation i op r) (he : exec i s = .next t) :
    (s.st ≠ .idle → t.opL = s.opL ∧ t.addrL = s.addrL ∧ t.lenL = s.lenL ∧ t.dataL = s.dataL) ∧
    (s.st ≠ .planning → s.st ≠ .waiting →
      t.curAddr = s.curAddr ∧ t.remaining = s.remaining ∧ t.done = s.done ∧ t.phase = s.phase ∧ t.srTmp = s.srTmp ∧
      t.ownEdges = s.ownEdges) ∧
    (s.st ≠ .issuing → s.st ≠ .waiting → t.owner = s.owner ∧ t.xfer = s.xfer) ∧
    (s.st ≠ .idle → s.st ≠ .planning → s.st ≠ .waiting → t.errKind = s.errKind) ∧
    (s.st ≠ .complete → s.st ≠ .failed → t.delivered = s.delivered ∧ t.takes = s.takes) ∧
    (s.st ≠ .issuing → t.grants = s.grants) := by
  rcases operation_frame h he with ⟨hst, ht⟩ | ⟨hst, ht, -⟩ | ⟨hst, ht⟩ | ⟨hst, ht, -⟩ | ⟨hst | hst, ht⟩ <;>
    rw [ht] <;> simp [hst]

/-- The status operations have no use for the chunk registers (R211, R216). -/
theorem statusOperation_keeps_progress {i : Instr} {op : BitVec 3} {r : ReqFields} {s t : State}
    (h : IsOperation i op r) (he : exec i s = .next t) (hd : ¬ IsDataOp i r) :
    t.curAddr = s.curAddr ∧ t.remaining = s.remaining := by
  rcases operation_frame h he with ⟨-, ht⟩ | ⟨-, -, ht⟩ | ⟨-, ht⟩ | ⟨-, -, ht, -⟩ | ⟨-, ht⟩
  · rw [ht]; exact ⟨rfl, rfl⟩
  · exact ht hd
  · rw [ht]; exact ⟨rfl, rfl⟩
  · exact ht hd
  · rw [ht]; exact ⟨rfl, rfl⟩

/-- The buffer stays, or a READ chunk has landed in it (20_memory.md R85). -/
theorem operation_buf {i : Instr} {op : BitVec 3} {r : ReqFields} {s t : State} (h : IsOperation i op r)
    (he : exec i s = .next t) :
    t.buf = s.buf ∨
    (i = .read r ∧ s.st = .waiting ∧ s.phase = .data ∧ ∃ inb, t.buf = (s.storeChunk inb).buf) := by
  rcases operation_frame h he with ⟨-, ht⟩ | ⟨-, ht, -⟩ | ⟨-, ht⟩ | ⟨hst, -, -, hbuf⟩ | ⟨-, ht⟩
  · rw [ht]; exact .inl rfl
  · rw [ht]; exact .inl rfl
  · rw [ht]; exact .inl rfl
  · exact hbuf.imp_right fun ⟨hi, hland⟩ => ⟨hi, hst, hland⟩
  · rw [ht]; exact .inl rfl

@[simp] theorem storeChunk_buf_size (inb : List Byte) (s : State) : (s.storeChunk inb).buf.size = s.buf.size := rfl

/-- Storing a chunk changes bytes inside the chunk only. -/
theorem storeChunk_read_of_outside {s : State} (inb : List Byte) (hwf : s.buf.bytes.wf = true) {k : Nat}
    (hk : k < s.done.toNat ∨ s.done.toNat + s.chunkLen ≤ k) :
    (s.storeChunk inb).buf.bytes.read k = s.buf.bytes.read k := by
  have hlen : (readData inb s.chunkLen).length ≤ s.chunkLen := List.length_take_le ..
  refine Memory.read_writeBytes_of_ne _ k _ 0 hwf fun j _ hj => ?_
  simp only [bufLoc]
  omega

/-- Settles O42: the frame of each transition, and for the buffer that a READ chunk lands at `done` and nowhere else. -/
theorem operationsLeaveTheRestAlone : Obligations.OperationsLeaveTheRestAlone := by
  intro i op r s t h he
  obtain ⟨hcfg, hchip, hrequests, hfates, hrst, hdraws, hothers⟩ := operation_keeps_environment h he
  obtain ⟨hlatches, hprogress, hbus, herr, hresult, hgrants⟩ := operation_keeps_registers h he
  have hstatus : ¬ IsDataOp i r → t.curAddr = s.curAddr ∧ t.remaining = s.remaining ∧ t.buf = s.buf := fun hd =>
    have ⟨hca, hrem⟩ := statusOperation_keeps_progress h he hd
    ⟨hca, hrem, (operation_buf h he).resolve_right fun hland => hd (.inl hland.1)⟩
  refine ⟨hcfg, hchip, hrequests, hfates, hrst, hdraws, hothers, hlatches, hstatus, hprogress, hbus, herr, hresult,
    hgrants, ?_⟩
  rcases operation_buf h he with hbuf | ⟨hi, hst, hphase, inb, hbuf⟩
  · rw [hbuf]
    exact ⟨rfl, fun _ => rfl, fun _ _ _ => rfl⟩
  · refine ⟨by rw [hbuf, storeChunk_buf_size], ?_, fun hwf k hk => ?_⟩
    · rintro (hne | hne | hne)
      · exact absurd hi hne
      · exact absurd hst hne
      · exact absurd hphase hne
    · rw [hbuf, storeChunk_read_of_outside inb hwf hk]

/-! #### The chip between frames -/

/-- A step without a frame in flight leaves the chip, and what other masters will still do, as the edge itself does. -/
theorem step_chip_of_no_frame {s t : State} (h : step s = .next t) (hx : s.st ≠ .waiting ∨ ∀ out, s.xfer ≠ .sent out) :
    t.chip = s.edgeChip ∧ t.others = if s.owner then s.others else s.others.pop := by
  have hfree : s.st = .waiting → ∀ out, s.xfer ≠ .sent out := hx.resolve_left ∘ not_not_intro
  rcases step_cases h with ⟨-, ⟨-, rfl⟩ | ⟨hst, out, -, -, hsent, -⟩⟩ | ⟨-, -, -, rfl⟩ |
    ⟨-, -, q, -, -, -, -, -, -, rfl⟩ | ⟨-, hst, out, -, hsent, -⟩ | ⟨-, -, -, i, hop, he⟩
  · exact ⟨rfl, rfl⟩
  · exact absurd hsent (hfree hst out)
  · exact ⟨rfl, rfl⟩
  · exact ⟨rfl, rfl⟩
  · exact absurd hsent (hfree hst out)
  · obtain ⟨-, hchip, -, -, -, -, hothers⟩ := operation_keeps_environment hop he
    exact ⟨hchip, hothers⟩

theorem State.edgeChip_of_change {s : State} {c : ChipChange} (ho : s.owner = false) (hc : s.others.head = some c) :
    s.edgeChip = s.chip.change c := by
  simp [State.edgeChip, ho, hc]

/-- Settles O45: such a step does to the chip what the edge does, which is another master's doing or nothing. -/
theorem chipChangesOnlyThroughTransfers : Obligations.ChipChangesOnlyThroughTransfers := by
  intro s t h hx
  obtain ⟨hchip, hothers⟩ := step_chip_of_no_frame h hx
  refine ⟨?_, fun c ho hc => ?_, fun hsole => ⟨hsole.of_eq ?_, ?_⟩⟩
  · rintro (ho | hnone)
    · rw [hchip, State.edgeChip_of_owner ho]
    · rw [hchip, State.edgeChip_of_none hnone]
  · rw [hchip, State.edgeChip_of_change ho hc]
  · rw [hothers]
    exact ite_eq_or_eq ..
  · rw [hchip, hsole.edgeChip]

end Sys2Proof.Machine
/-! ### The state of the block (10_state.md): the Transport's step, one step of the machine, and the invariant -/

namespace Sys2Proof.Machine

/-! #### A step of the Transport -/

/-- What a byte sequence that is a frame looks like: a data frame with its payload, or a status frame of two bytes
(40_codec.md R139). -/
theorem decodeFrame_ok {out : List Byte} {i : Instr} (h : decodeFrame out = .ok i) :
    (∃ a p, p ≠ [] ∧ out.length = 3 + p.length ∧ (i = .frameRead a p ∨ i = .frameWrite a p)) ∨
    (out.length = 2 ∧ ((∃ d, i = .frameRdsr d) ∨ ∃ v, i = .frameWrsr v)) := by
  cases out with
  | nil => cases h
  | cons op rest =>
    simp only [decodeFrame] at h
    split at h
    · cases h; exact .inl ⟨_, _, by simp, by simp; omega, .inl rfl⟩
    · cases h; exact .inl ⟨_, _, by simp, by simp; omega, .inr rfl⟩
    · cases h; exact .inr ⟨rfl, .inl ⟨_, rfl⟩⟩
    · cases h; exact .inr ⟨rfl, .inr ⟨_, rfl⟩⟩
    · cases h

/-- The frame of the Transport's step: `t` is `s` but for the Transport's input, the chip, the transfer channel and
the count of draws. -/
def TransportFrame (s t : State) : Prop :=
  t = { s with fates := s.fates.pop, chip := t.chip, xfer := t.xfer, draws := t.draws }

/-- What a step of the Transport leaves on XFER for a frame of `len` bytes: the transfer as it was, or an answer of
that length (10_state.md R44). -/
def TransportAnswer (len : Nat) (s t : State) : Prop :=
  t.xfer = s.xfer ∨ t.xfer = .answered .err ∨ ∃ inb, t.xfer = .answered (.ok inb) ∧ inb.length = len

theorem TransportFrame.cfg_eq {s t : State} (h : TransportFrame s t) : t.cfg = s.cfg := by rw [h]

theorem TransportFrame.fates_eq {s t : State} (h : TransportFrame s t) : t.fates = s.fates.pop := by rw [h]

theorem TransportFrame.buf_eq {s t : State} (h : TransportFrame s t) : t.buf = s.buf := by rw [h]

section Transfer

variable {len : Nat} {inb : List Byte} {drawn : Nat} {after : Chip} {cut : Nat → Chip} {cutDrawn : Nat} {s : State}

theorem transfer_of_busy (h : s.fates.head = .busy) : transfer len inb drawn after cut cutDrawn s = s.popFate := by
  simp [transfer, h]

theorem transfer_of_reply {a : Answer} {did : ChipChange} (h : s.fates.head = .reply a did) :
    transfer len inb drawn after cut cutDrawn s = (s.popFate.setChip (s.chip.change did)).answer (a.fit len) := by
  simp [transfer, h]

theorem transfer_frame : TransportFrame s (transfer len inb drawn after cut cutDrawn s) := by
  rcases transfer_cases len inb drawn after cut cutDrawn s with ⟨-, h⟩ | ⟨-, h⟩ | ⟨n, -, h⟩ | ⟨a, did, -, h⟩ <;>
    rw [h] <;> rfl

theorem transfer_answer (hlen : inb.length = len) :
    TransportAnswer len s (transfer len inb drawn after cut cutDrawn s) := by
  rcases transfer_cases len inb drawn after cut cutDrawn s with ⟨-, h⟩ | ⟨-, h⟩ | ⟨n, -, h⟩ | ⟨a, did, -, h⟩ <;> rw [h]
  · exact .inl rfl
  · exact .inr (.inr ⟨inb, rfl, hlen⟩)
  · exact .inr (.inl rfl)
  · cases a with
    | err => exact .inr (.inl rfl)
    | ok l =>
      obtain ⟨l', hl', hlen'⟩ := Answer.fit_ok len l
      exact .inr (.inr ⟨l', congrArg Xfer.answered hl', hlen'⟩)

/-- What holds of the chip before, of every chip the frame can leave and of every chip the environment can make of it
holds after a step of the Transport. -/
theorem transfer_chip (P : Chip → Prop) (hs : P s.chip) (ha : P after) (hc : ∀ n, P (cut n))
    (hr : ∀ a did, s.fates.head = .reply a did → P (s.chip.change did)) :
    P (transfer len inb drawn after cut cutDrawn s).chip := by
  rcases transfer_cases len inb drawn after cut cutDrawn s with ⟨-, h⟩ | ⟨-, h⟩ | ⟨n, -, h⟩ | ⟨a, did, hf, h⟩ <;> rw [h]
  · exact hs
  · exact ha
  · exact hc _
  · exact hr a did hf

/-- Behind the reference chip `Ok` means that the frame was carried out (20_memory.md R88 to R91). -/
theorem transfer_ok {out l : List Byte} (hf : s.fates.head.isReply = false) (hx : s.xfer = .sent out)
    (hok : (transfer len inb drawn after cut cutDrawn s).xfer = .answered (.ok l)) :
    l = inb ∧ (transfer len inb drawn after cut cutDrawn s).chip = after := by
  rcases transfer_cases len inb drawn after cut cutDrawn s with ⟨-, h⟩ | ⟨-, h⟩ | ⟨n, -, h⟩ | ⟨a, did, hr, -⟩
  · rw [h, State.popFate_xfer, hx] at hok; cases hok
  · rw [h] at hok ⊢; cases hok; exact ⟨rfl, rfl⟩
  · rw [h] at hok; cases hok
  · rw [hr] at hf; cases hf

end Transfer

theorem Chip.wf_iff {k : Chip} : k.wf = true ↔ k.mem.wf = true ∧ k.mem.below Config.chipSize = true := by
  rw [Chip.wf, Bool.and_eq_true]

theorem Chip.wf_change {k : Chip} (c : ChipChange) (h : k.wf = true) : (k.change c).wf = true :=
  have ⟨hw, hb⟩ := Chip.wf_iff.1 h
  Chip.wf_iff.2 (chip_change_wf c hw hb)

/-- Any chip whose memory is that of a canonical one after a frame's bytes have been written is canonical. -/
theorem Chip.wf_of_writeBytes {k k' : Chip} (a : Half) (p : List Byte) (h : k.wf = true)
    (hm : k'.mem = k.mem.writeBytes (chipLoc a) 0 p) : k'.wf = true :=
  have ⟨hw, hb⟩ := Chip.wf_iff.1 h
  Chip.wf_iff.2 ⟨hm ▸ chip_writeBytes_wf a p hw, hm ▸ chip_writeBytes_below a p hb⟩

theorem chipCutWrsr_mem (v : Byte) (got : Nat) (k : Chip) : (chipCutWrsr v got k).mem = k.mem := by
  unfold chipCutWrsr
  split <;> rfl

/-- Every frame is a step of the Transport: its frame, the answer's length, and the chip's canonical form. -/
theorem exec_frame {out : List Byte} {i : Instr} {s t : State} (hd : decodeFrame out = .ok i)
    (he : exec i s = .next t) :
    TransportFrame s t ∧ TransportAnswer out.length s t ∧ (s.chip.wf = true → t.chip.wf = true) := by
  rcases decodeFrame_ok hd with ⟨a, p, -, hlen, rfl | rfl⟩ | ⟨hlen, ⟨d, rfl⟩ | ⟨v, rfl⟩⟩ <;> rw [hlen]
  · obtain ⟨-, -, rfl⟩ := execFrameRead_next he
    exact ⟨transfer_frame, transfer_answer (by simp), fun h =>
      transfer_chip (·.wf = true) h h (fun _ => h) fun _ did _ => Chip.wf_change did h⟩
  · obtain ⟨-, -, rfl⟩ := execFrameWrite_next he
    exact ⟨transfer_frame, transfer_answer (by simp), fun h =>
      transfer_chip (·.wf = true) h (Chip.wf_of_writeBytes a p h rfl) (fun got => Chip.wf_of_writeBytes a _ h rfl)
        fun _ did _ => Chip.wf_change did h⟩
  · cases he
    exact ⟨transfer_frame, transfer_answer (by simp), fun h =>
      transfer_chip (·.wf = true) h h (fun _ => h) fun _ did _ => Chip.wf_change did h⟩
  · cases he
    exact ⟨transfer_frame, transfer_answer (by simp), fun h =>
      transfer_chip (·.wf = true) h h (fun got => by rwa [Chip.wf, chipCutWrsr_mem])
        fun _ did _ => Chip.wf_change did h⟩

theorem dataFrameRefusal_of_not_byChip {p : List Byte} {s : State} (hp : p ≠ []) (hf : s.fates.head.byChip = false) :
    dataFrameRefusal p s = none :=
  dataFrameRefusal_none.2 ⟨hp, by simp [hf]⟩

/-- A data frame that the reference chip receives nothing of is a step of the Transport in every mode (R92, R56). -/
theorem execFrameRead_of_not_byChip {a : Half} {p : List Byte} {s : State} (hp : p ≠ [])
    (hf : s.fates.head.byChip = false) : execFrameRead a p s = .next (transfer (3 + p.length)
      (freeBytes s.draws 3 ++ s.chip.mem.readBytes (chipLoc a) p.length) 3
      (chipAfterRead a p.length s.chip) (fun _ => s.chip) 0 s) := by
  simp [execFrameRead, dataFrameRefusal_of_not_byChip hp hf]

theorem execFrameWrite_of_not_byChip {a : Half} {p : List Byte} {s : State} (hp : p ≠ [])
    (hf : s.fates.head.byChip = false) : execFrameWrite a p s = .next (transfer (3 + p.length)
      (freeBytes s.draws (3 + p.length)) (3 + p.length) (chipAfterWrite a p s.chip)
      (fun got => chipCutWrite a p got s.draws s.chip) 1 s) := by
  simp [execFrameWrite, dataFrameRefusal_of_not_byChip hp hf]

/-- Settles O31: each frame is one `transfer`, and a busy one consumes the Transport's input only. -/
theorem busyTransportChangesNothing : Obligations.BusyTransportChangesNothing := by
  intro a p d v s hbusy
  have hbyChip : s.fates.head.byChip = false := by rw [hbusy]; rfl
  refine ⟨congrArg _ (transfer_of_busy hbusy), congrArg _ (transfer_of_busy hbusy), fun hp => ?_⟩
  have hne : p ≠ [] := List.ne_nil_of_length_pos hp
  exact ⟨(execFrameRead_of_not_byChip hne hbyChip).trans (congrArg _ (transfer_of_busy hbusy)),
    (execFrameWrite_of_not_byChip hne hbyChip).trans (congrArg _ (transfer_of_busy hbusy))⟩

/-- Settles O32: each frame is one `transfer` of its own length, and an answer of that length arrives untouched. -/
theorem transportMayAnswerAnything : Obligations.TransportMayAnswerAnything := by
  intro out i s a did hd hreply hlen
  have hbyChip : s.fates.head.byChip = false := by rw [hreply]; rfl
  have hfit : a.fit out.length = a := Answer.fit_eq hlen
  have htransfer : ∀ inb drawn after cut cutDrawn, transfer out.length inb drawn after cut cutDrawn s =
      (s.popFate.setChip (s.chip.change did)).answer a := fun _ _ _ _ _ => by rw [transfer_of_reply hreply, hfit]
  rcases decodeFrame_ok hd with ⟨adr, p, hp, hl, rfl | rfl⟩ | ⟨hl, ⟨d, rfl⟩ | ⟨v, rfl⟩⟩ <;> rw [hl] at htransfer
  · exact (execFrameRead_of_not_byChip hp hbyChip).trans (congrArg _ (htransfer ..))
  · exact (execFrameWrite_of_not_byChip hp hbyChip).trans (congrArg _ (htransfer ..))
  · exact congrArg _ (htransfer ..)
  · exact congrArg _ (htransfer ..)

/-! #### One step of the machine -/

/-- An edge with `rst` low on which an instruction is fetched. -/
theorem step_of_fetch_run {s u : State} {i : Instr} (hl : s.cfg.legal = true) (hr : s.rst.head = false)
    (hf : fetch s.tick = .run i u) : step s = exec i u := by
  rw [step, nextAction_fetch hl hr, hf]

theorem fetch_of_offer {s : State} {q : Request} {i : Instr} (hst : s.st = .idle) (hq : s.requests.head = some q)
    (hd : decodeRequest s.cfg q.word = .ok i) : fetch s = .run i (s.offer q) := by
  simp [fetch, hst, hq, hd, runDecoded]

theorem fetch_of_nothing_offered {s : State} (hst : s.st = .idle) (hq : s.requests.head = none) :
    fetch s = .settle s.popRequest := by
  simp [fetch, hst, hq]

theorem fetch_of_sent {s : State} {out : List Byte} {i : Instr} (hst : s.st = .waiting) (hx : s.xfer = .sent out)
    (hd : decodeFrame out = .ok i) : fetch s = .run i s := by
  simp [fetch, hst, hx, hd, runDecoded]

theorem fetch_of_latched {s : State} {i : Instr} (hst : s.st ≠ .idle) (hx : s.st = .waiting → ∀ out, s.xfer ≠ .sent out)
    (hd : decodeFields s.opL s.latched = .ok i) : fetch s = .run i s := by
  unfold fetch
  split
  next hidle => exact absurd hidle hst
  next hw =>
    split
    next out hsent => exact absurd hsent (hx hw out)
    next => rw [hd]; rfl
  next => rw [hd]; rfl

/-- Settles O34: the three things that `fetch` runs, each on the state after the edge. -/
theorem stepRunsTheDecodedInstruction : Obligations.StepRunsTheDecodedInstruction := by
  intro s i hl hr
  refine ⟨fun q hst hq hd => ?_, fun out hst hx hd => ?_, fun hst hx hd => ?_⟩
  · exact step_of_fetch_run hl hr (fetch_of_offer (s := s.tick) hst hq hd)
  · exact step_of_fetch_run hl hr (fetch_of_sent (s := s.tick) hst hx hd)
  · exact step_of_fetch_run hl hr (fetch_of_latched (s := s.tick) hst hx hd)

/-- Settles O38: IDLE with nothing offered consumes the inputs of the edge and no more. -/
theorem idleBlockDoesNothing : Obligations.IdleBlockDoesNothing := by
  intro s hl hr hst hq
  rw [step, nextAction_fetch hl hr, fetch_of_nothing_offered (s := s.tick) hst hq]
  rfl

/-- Settles O41: the values of 10_state.md R55 and 00_scope.md R9, R10, read off the literal. -/
theorem resetStateIsIdle : Obligations.ResetStateIsIdle :=
  ⟨rfl, rfl, rfl, rfl, rfl, rfl, rfl, rfl, rfl⟩

/-- Settles O51: in IDLE the invariant asks for canonical forms and a quiet bus only, and the chip has nothing to
agree with. -/
theorem resetMeetsTheInvariant : Obligations.ResetMeetsTheInvariant := by
  refine ⟨State.Inv.of_idle rfl rfl rfl rfl (fun q hq => ?_) rfl rfl rfl (fun h => ?_),
    .of_off_bus (by simp [State.inBus, State.reset]), ⟨fun f hf => ?_, rfl⟩, rfl⟩
  · rcases hq with hq | hq <;> cases hq
  · cases h
  · cases hf

/-- A reset edge that finds the Transport busy puts its own answer in place of that value (R262). -/
theorem cutBusy_eq (s : State) :
    s.cutBusy = { s with fates := s.cutBusy.fates } ∧ s.cutBusy.fates.pop = s.fates.pop := by
  unfold State.cutBusy
  split <;> exact ⟨rfl, rfl⟩

/-- A frame that a reset edge cuts off has the Transport's frame (70_reset_and_hazards.md R262). -/
theorem TransportFrame.of_cutBusy {s t : State} (h : TransportFrame s.cutBusy t) : TransportFrame s t := by
  obtain ⟨hs, hf⟩ := cutBusy_eq s
  unfold TransportFrame at h ⊢
  rw [h, hs]
  simp only [hf]

/-- Settles O44: none of the steps that `step_cases` lists writes `cfg`. -/
theorem configurationIsNeverWritten : Obligations.ConfigurationIsNeverWritten := by
  intro s t h
  rcases step_cases h with ⟨-, ⟨-, rfl⟩ | ⟨-, out, i, u, -, hd, he, rfl⟩⟩ | ⟨-, -, -, rfl⟩ |
    ⟨-, -, q, -, -, -, -, -, -, rfl⟩ | ⟨-, -, out, i, -, hd, he⟩ | ⟨-, -, -, i, hop, he⟩
  · rfl
  · exact (exec_frame hd he).1.of_cutBusy.cfg_eq
  · rfl
  · rfl
  · exact (exec_frame hd he).1.cfg_eq
  · exact (operation_keeps_environment hop he).1

/-! #### The caller's buffer -/

theorem operation_of_waiting {op : BitVec 3} {admission : ReqFields → State → Option Refusal} {planned : State → State}
    {issue : State → Result} {onOk : List Byte → State → Result} {data : State → Byte} {r : ReqFields} {s : State}
    (hst : s.st = .waiting) : operation op admission planned issue onOk data r s = tAnswer onOk s := by
  simp [operation, hst]

/-- An operation that changes the buffer is a READ whose chunk lands (20_memory.md R85,
42_sequencer_data_ops.md R180). -/
theorem operation_changes_buf {i : Instr} {op : BitVec 3} {r : ReqFields} {s t : State} (h : IsOperation i op r)
    (he : exec i s = .next t) (hne : t.buf ≠ s.buf) :
    op = 0b000#3 ∧ s.st = .waiting ∧ s.phase = .data ∧ ∃ inb, s.xfer = .answered (.ok inb) := by
  obtain ⟨rfl, hst, hphase, -⟩ := (operation_buf h he).resolve_left hne
  have hop : op = 0b000#3 := by simpa [IsOperation] using h
  have ha : tAnswer (okData okReadChunk) s = .next t := (operation_of_waiting hst).symm.trans he
  refine ⟨hop, hst, hphase, ?_⟩
  rcases tAnswer_next ha with ⟨inb, hx, -⟩ | ⟨-, rfl⟩ | ⟨-, rfl⟩
  · exact ⟨inb, hx⟩
  · exact absurd rfl hne
  · exact absurd rfl hne

/-- Settles O46: of the steps that `step_cases` lists, only T_ACCEPT of an offer and a READ chunk write `buf`. -/
theorem bufferChangesOnlyWhereAReadChunkLands : Obligations.BufferChangesOnlyWhereAReadChunkLands := by
  intro s t h hne
  rcases step_cases h with ⟨-, ⟨-, rfl⟩ | ⟨-, out, i, u, -, hd, he, rfl⟩⟩ | ⟨-, -, -, rfl⟩ |
    ⟨-, hst, q, _, op, r, hq, -, -, rfl⟩ | ⟨-, -, out, i, -, hd, he⟩ | ⟨-, -, -, i, hop, he⟩
  · exact absurd rfl hne
  · exact absurd (exec_frame hd he).1.of_cutBusy.buf_eq hne
  · exact absurd rfl hne
  · left
    rcases hb : q.attach with _ | b
    · exact absurd (congrArg (·.getD s.buf) hb) hne
    · exact ⟨hst, q, b, hq, hb, congrArg (·.getD s.buf) hb⟩
  · exact absurd (exec_frame hd he).1.buf_eq hne
  · obtain ⟨hread, hst, hphase, hx⟩ := operation_changes_buf hop he hne
    exact .inr ⟨hst, hread, hphase, hx⟩

end Sys2Proof.Machine

/-! ### Every step keeps the invariant (10_state.md R33, 42_sequencer_data_ops.md R189) -/

namespace Sys2Proof.Machine

/-! #### What the invariant asks in each value of `st` -/

/-- What the invariant asks in every state: a legal configuration, latches within their widths, canonical memories. -/
structure State.Form (s : State) : Prop where
  legal : s.cfg.legal = true
  fits : s.latched.fit s.cfg = true
  chipWf : s.chip.wf = true
  bufWf : s.buf.wf = true
  offers : offersWf s.requests

/-- What the invariant asks of the latches once a request is accepted (42_sequencer_data_ops.md R171). -/
structure State.Accepted (s : State) : Prop where
  current : ∃ i, decodeFields s.opL s.latched = .ok i
  room : s.isData → s.lenL.toNat ≤ s.buf.size

/-- The block neither owns the bus nor asks for it, and has no transfer (10_state.md R38, R44). -/
structure State.Released (s : State) : Prop where
  owner : s.owner = false
  xfer : s.xfer = .idle
  edges : s.ownEdges.getLast? ≠ some .rise

/-- What the invariant asks of the registers between T_PLAN and the last answer (42_sequencer_data_ops.md R189). -/
structure State.Working (s : State) : Prop where
  progress : s.isData → s.Progress
  ensured : s.isData → s.phase = .wrsr → isSequential s.cfg s.srTmp = true
  status : ¬ s.isData → s.StatusPhase
  edges : s.ownEdges.getLast? = some .rise

section Stages

variable {s : State}

theorem State.Inv.form (h : s.Inv) : s.Form := ⟨h.legal, h.fits, h.chipWf, h.bufWf, h.offers⟩

theorem State.Inv.accepted (h : s.Inv) (hst : s.st ≠ .idle) : s.Accepted := ⟨h.current hst, h.room hst⟩

theorem State.Inv.working (h : s.Inv) (hb : s.inBus) : s.Working :=
  ⟨h.progress hb, h.ensured hb, h.status hb, h.edges.2 (s.ownReq_iff.2 (hb.imp_right h.window))⟩

theorem State.Inv.released (h : s.Inv) (hb : ¬ s.inBus) : s.Released where
  owner := Bool.eq_false_iff.2 fun ho => hb (h.owned ho)
  xfer := h.quiet fun hw => hb (.inr hw)
  edges hlast := hb ((s.ownReq_iff.1 (h.edges.1 hlast)).elim .inl h.owned)

/-- The invariant from its parts: what every state, an accepted request, the bus and a released bus ask, and what each
value of `st` asks besides. -/
theorem State.Inv.of_parts (form : s.Form) (accepted : s.st ≠ .idle → s.Accepted) (working : s.inBus → s.Working)
    (released : ¬ s.inBus → s.Released) (clean : s.st ≠ .idle → s.st ≠ .failed → s.errKind = .ok)
    (issuing : s.st = .issuing → s.xfer = .idle ∧ (s.owner = false → s.phase = s.firstPhase))
    (waiting : s.st = .waiting → s.owner = true ∧ s.InFlight)
    (complete : s.st = .complete → (s.isData → s.done.toNat = s.lenL.toNat) ∧ (¬ s.isData → s.done = 1#16))
    (failed : s.st = .failed → s.errKind ≠ .ok ∧
      (s.isData → s.done.toNat ≤ s.lenL.toNat ∧ s.cfg.maxChunk ∣ s.done.toNat) ∧ (¬ s.isData → s.done = 0#16)) :
    s.Inv :=
  have owned : s.owner = true → s.inBus := fun ho => by
    by_contra hb
    rw [(released hb).owner] at ho
    cases ho
  { form with
    current := fun h => (accepted h).current
    room := fun h => (accepted h).room
    owned := owned
    window := fun h => (waiting h).1
    edges := by
      rw [s.ownReq_iff]
      refine ⟨fun hlast => ?_, fun h => (working (h.elim .inl owned)).edges⟩
      have hb : s.inBus := by
        by_contra hb
        exact (released hb).edges hlast
      exact hb.imp_right fun hw => (waiting hw).1
    windowStart := fun h => (issuing h).2
    progress := fun h => (working h).progress
    ensured := fun h => (working h).ensured
    status := fun h => (working h).status
    completeData := fun h => (complete h).1
    completeStatus := fun h => (complete h).2
    failedData := fun h => (failed h).2.1
    failedStatus := fun h => (failed h).2.2
    failed := fun h => (failed h).1
    clean := clean
    flight := fun h => (waiting h).2
    quiet := fun hw => by
      by_cases hi : s.st = .issuing
      · exact (issuing hi).1
      · exact (released fun hb => hb.elim hi hw).xfer }

theorem State.Inv.of_planning (hst : s.st = .planning) (hf : s.Form) (ha : s.Accepted) (hr : s.Released)
    (he : s.errKind = .ok) : s.Inv :=
  .of_parts hf (fun _ => ha) (by simp [State.inBus, hst]) (fun _ => hr) (fun _ _ => he) (by simp [hst]) (by simp [hst])
    (by simp [hst]) (by simp [hst])

theorem State.Inv.of_issuing (hst : s.st = .issuing) (hf : s.Form) (ha : s.Accepted) (hw : s.Working)
    (he : s.errKind = .ok) (hx : s.xfer = .idle) (hp : s.owner = false → s.phase = s.firstPhase) : s.Inv :=
  .of_parts hf (fun _ => ha) (fun _ => hw) (absurd (.inl hst)) (fun _ _ => he) (fun _ => ⟨hx, hp⟩) (by simp [hst])
    (by simp [hst]) (by simp [hst])

theorem State.Inv.of_waiting (hst : s.st = .waiting) (hf : s.Form) (ha : s.Accepted) (hw : s.Working)
    (he : s.errKind = .ok) (ho : s.owner = true) (hx : s.InFlight) : s.Inv :=
  .of_parts hf (fun _ => ha) (fun _ => hw) (absurd (.inr hst)) (fun _ _ => he) (by simp [hst]) (fun _ => ⟨ho, hx⟩)
    (by simp [hst]) (by simp [hst])

theorem State.Inv.of_complete (hst : s.st = .complete) (hf : s.Form) (ha : s.Accepted) (hr : s.Released)
    (he : s.errKind = .ok) (hd : s.isData → s.done.toNat = s.lenL.toNat) (hs : ¬ s.isData → s.done = 1#16) : s.Inv :=
  .of_parts hf (fun _ => ha) (by simp [State.inBus, hst]) (fun _ => hr) (fun _ _ => he) (by simp [hst]) (by simp [hst])
    (fun _ => ⟨hd, hs⟩) (by simp [hst])

theorem State.Inv.of_failed (hst : s.st = .failed) (hf : s.Form) (ha : s.Accepted) (hr : s.Released)
    (he : s.errKind ≠ .ok) (hd : s.isData → s.done.toNat ≤ s.lenL.toNat ∧ s.cfg.maxChunk ∣ s.done.toNat)
    (hs : ¬ s.isData → s.done = 0#16) : s.Inv :=
  .of_parts hf (fun _ => ha) (by simp [State.inBus, hst]) (fun _ => hr) (fun _ h => absurd hst h) (by simp [hst])
    (by simp [hst]) (by simp [hst]) (fun _ => ⟨he, hd, hs⟩)

end Stages

/-! #### What the environment does -/

/-- `t` is `s` but for the chip, the transfer channel, the inputs and the count of draws. -/
def EnvironmentFrame (s t : State) : Prop :=
  t = { s with chip := t.chip, xfer := t.xfer, requests := t.requests, takes := t.takes, grants := t.grants,
               fates := t.fates, rst := t.rst, others := t.others, draws := t.draws }

theorem TransportFrame.environmentFrame {s t : State} (h : TransportFrame s t) : EnvironmentFrame s t := by
  rw [EnvironmentFrame, h]

/-- The registers are as before, so the invariant asks only about the chip, the offers and the transfer. -/
theorem State.Inv.of_environmentFrame {s t : State} (h : s.Inv) (hf : EnvironmentFrame s t) (hc : t.chip.wf = true)
    (ho : offersWf t.requests) (hx : s.st = .waiting → t.InFlight) (hq : s.st ≠ .waiting → t.xfer = .idle) : t.Inv := by
  rw [hf] at hx ⊢
  exact { h with
    chipWf := hc
    offers := ho
    progress := fun hb hd => (h.progress hb hd).of_eq rfl rfl rfl rfl rfl rfl
    status := fun hb hd => (h.status hb hd).of_eq rfl rfl rfl
    flight := hx
    quiet := hq }

theorem offersWf.pop {f : Feed (Option Request)} (h : offersWf f) : offersWf f.pop :=
  fun q hq => h q (hq.imp_left List.mem_of_mem_tail)

/-- The buffer that comes with the request offered now is canonical. -/
theorem offersWf.head {f : Feed (Option Request)} (h : offersWf f) {q : Request} (hq : f.head = some q) :
    ∀ b, q.attach = some b → b.wf = true := by
  refine h q ?_
  unfold Feed.head at hq
  cases hc : f.coming with
  | nil => rw [hc] at hq; exact .inr hq
  | cons x xs => rw [hc] at hq; exact .inl (hq ▸ List.mem_cons_self)

theorem State.edgeChip_wf {s : State} (h : s.chip.wf = true) : s.edgeChip.wf = true := by
  unfold State.edgeChip
  split
  · exact h
  · split
    · exact h
    · exact Chip.wf_change _ h

/-- An edge keeps the invariant, whatever another master does at it (70_reset_and_hazards.md R268). -/
theorem State.Inv.tick {s : State} (h : s.Inv) : s.tick.Inv :=
  h.of_environmentFrame rfl (State.edgeChip_wf h.chipWf) h.offers (fun hw => (h.flight hw).of_eq rfl rfl rfl) h.quiet

/-- Another master reaches the chip between windows only, when no data frame and no answer is due. -/
theorem State.ChipAgrees.tick {s : State} (hc : s.ChipAgrees) (h : s.Inv) : s.tick.ChipAgrees := by
  by_cases ho : s.owner = true
  · have hchip : s.tick.chip = s.chip := State.edgeChip_of_owner ho
    refine ⟨fun hb hd hp => ?_, fun hst inb hx hp => ?_, fun hst inb hx hp => ?_⟩ <;> rw [hchip]
    · exact hc.data hb hd hp
    · exact hc.told hst inb hx hp
    · exact hc.stored hst inb hx hp
  · have hwait : s.st ≠ .waiting := fun hst => ho (h.window hst)
    refine .of_no_answer (fun inb hx => ?_) fun hb _ hp => ?_
    · rw [State.tick_xfer, h.quiet hwait] at hx; cases hx
    · have hfirst : s.phase = s.firstPhase := h.windowStart (hb.resolve_right hwait) (Bool.eq_false_iff.2 ho)
      rw [State.tick_phase, hfirst, State.firstPhase] at hp
      cases hop : s.opL == 0b011#3 <;> rw [hop] at hp <;> cases hp

/-- The reference chip stays where the Transport's input moves on by at most one value. -/
theorem State.ReferenceChip.of_fates {s t : State} (h : s.ReferenceChip)
    (hf : t.fates = s.fates ∨ t.fates = s.fates.pop) : t.ReferenceChip := by
  unfold State.ReferenceChip at h ⊢
  rcases hf with hf | hf <;> rw [hf]
  · exact h
  · exact ⟨fun f hm => h.1 f (List.mem_of_mem_tail hm), h.2⟩

theorem State.ReferenceChip.head {s : State} (h : s.ReferenceChip) : s.fates.head.isReply = false := by
  unfold Feed.head
  cases hc : s.fates.coming with
  | nil => exact h.2
  | cons f fs => exact h.1 f (hc ▸ List.mem_cons_self)

/-! #### A reset edge -/

/-- The latches that a reset edge leaves behind fit the configured widths (10_state.md R55). -/
theorem scramble_latched_fit {s : State} (h : s.cfg.legal = true) : s.scramble.latched.fit s.cfg = true := by
  obtain ⟨-, -, -, -, haw, -, hlw⟩ := Config.legal_bounds h
  have hfree : ∀ w x : Nat, w ≤ 32 → (BitVec.ofNat 32 (x % 2 ^ w)).toNat < 2 ^ w := fun w x _ => by
    rw [BitVec.toNat_ofNat]
    exact lt_of_le_of_lt (Nat.mod_le _ _) (Nat.mod_lt _ (by positivity))
  exact Bool.and_eq_true_iff.2 ⟨decide_eq_true (hfree _ _ hlw), decide_eq_true (hfree _ _ haw)⟩

/-- After a reset edge the invariant holds again, whatever the block was doing (10_state.md R55). -/
theorem State.Inv.resetBlock {s : State} (h : s.Inv) : (resetBlock s).Inv := by
  refine .of_idle h.legal (scramble_latched_fit h.legal) h.chipWf h.bufWf h.offers rfl rfl rfl ?_
  show (if s.ownReq = true then s.ownEdges ++ [.fall] else s.ownEdges).getLast? ≠ some .rise
  split
  next => simp
  next hreq => exact fun hlast => hreq (h.edges.1 hlast)

/-! #### A frame on the bus -/

/-- The frame of the phase has the length that its answer must have (30_encoding.md R117, 10_state.md R44). -/
theorem State.frameOut_length (s : State) : s.frameOut.length = s.frameLen := by
  unfold State.frameOut State.frameLen
  cases s.phase with
  | rdsr => rfl
  | wrsr => rfl
  | data => cases s.opL == 0b000#3 <;> simp [State.chunkBytes]

/-- A frame in flight is that of the current phase. -/
theorem State.Inv.sent_eq_frameOut {s : State} {out : List Byte} (h : s.Inv) (hst : s.st = .waiting)
    (hx : s.xfer = .sent out) : out = s.frameOut := by
  rcases h.flight hst with hf | hf | ⟨inb, hf, -⟩ <;> rw [hx] at hf <;> cases hf
  rfl

/-- A step of the Transport keeps the invariant, whatever it answers (10_state.md R56). -/
theorem State.Inv.frame {s t : State} {out : List Byte} (h : s.Inv) (hst : s.st = .waiting)
    (hx : s.xfer = .sent out) (hframe : TransportFrame s t)
    (hanswer : TransportAnswer out.length s t) (hchip : t.chip.wf = true) : t.Inv := by
  have hout := h.sent_eq_frameOut hst hx
  have hsame : t.frameOut = s.frameOut ∧ t.frameLen = s.frameLen ∧ t.requests = s.requests := by
    rw [hframe]; exact ⟨rfl, rfl, rfl⟩
  obtain ⟨hframeOut, hframeLen, hrequests⟩ := hsame
  refine h.of_environmentFrame hframe.environmentFrame hchip (hrequests ▸ h.offers) (fun _ => ?_) (absurd hst)
  rcases hanswer with hx' | hx' | ⟨inb, hx', hlen⟩
  · exact .inl (by rw [hx', hx, hout, hframeOut])
  · exact .inr (.inl hx')
  · exact .inr (.inr ⟨inb, hx', by rw [hlen, hframeLen, hout, s.frameOut_length]⟩)


section ReferenceChip

variable {s t : State}

/-- A data frame leaves the reference chip's status byte alone (20_memory.md R88, R89, R92). -/
theorem exec_dataFrame_sr {a : Half} {p : List Byte} {i : Instr} (hi : i = .frameRead a p ∨ i = .frameWrite a p)
    (he : exec i s = .next t) (hf : s.fates.head.isReply = false) : t.chip.sr = s.chip.sr := by
  have hreply : ∀ a did, s.fates.head = .reply a did → (s.chip.change did).sr = s.chip.sr := fun a did hr => by
    rw [hr] at hf; cases hf
  rcases hi with rfl | rfl
  · obtain ⟨-, -, rfl⟩ := execFrameRead_next he
    exact transfer_chip (·.sr = s.chip.sr) rfl rfl (fun _ => rfl) hreply
  · obtain ⟨-, -, rfl⟩ := execFrameWrite_next he
    exact transfer_chip (·.sr = s.chip.sr) rfl rfl (fun _ => rfl) hreply

/-- `Ok` to an RDSR frame tells the block the reference chip's status byte, which stays (R90). -/
theorem exec_rdsr_told {d : Byte} {out inb : List Byte} (he : exec (.frameRdsr d) s = .next t)
    (hf : s.fates.head.isReply = false) (hx : s.xfer = .sent out) (hok : t.xfer = .answered (.ok inb)) :
    rdsrData inb = t.chip.sr := by
  cases he
  obtain ⟨rfl, hchip⟩ := transfer_ok hf hx hok
  rw [hchip]
  rfl

/-- `Ok` to a WRSR frame means that the reference chip's status byte is the one sent (R91). -/
theorem exec_wrsr_stored {v : Byte} {out inb : List Byte} (he : exec (.frameWrsr v) s = .next t)
    (hf : s.fates.head.isReply = false) (hx : s.xfer = .sent out) (hok : t.xfer = .answered (.ok inb)) :
    t.chip.sr = v := by
  cases he
  obtain ⟨-, hchip⟩ := transfer_ok hf hx hok
  rw [hchip]
  rfl

/-- In the phase PH_DATA of a data operation the frame of the phase is a data frame (42_sequencer_data_ops.md R175). -/
theorem State.Inv.decodeFrame_data {i : Instr} (h : s.Inv) (hst : s.st = .waiting) (hdata : s.isData)
    (hp : s.phase = .data) (hd : decodeFrame s.frameOut = .ok i) :
    ∃ a p, i = .frameRead a p ∨ i = .frameWrite a p := by
  have hprogress := h.progress (.inr hst) hdata
  have hpos : 1 ≤ s.chunkLen := State.chunkLen_pos (Config.legal_bounds h.legal).1 hprogress.some_left
  unfold State.frameOut at hd
  rw [hp] at hd
  cases hop : s.opL == 0b000#3 with
  | true =>
    rw [hop] at hd
    exact ⟨_, _, .inl (Except.ok.inj (hd.symm.trans (decodeFrame_readFrame s.cfg s.curAddr hpos)))⟩
  | false =>
    rw [hop] at hd
    have hne : s.chunkBytes ≠ [] := List.ne_nil_of_length_pos (by rwa [State.chunkBytes, Memory.readBytes_length])
    exact ⟨_, _, .inr (Except.ok.inj (hd.symm.trans (decodeFrame_writeFrame s.curAddr hne)))⟩

/-- A step of the Transport with the reference chip behind it keeps the chip in agreement with the block. -/
theorem State.ChipAgrees.frame {out : List Byte} {i : Instr} (hc : s.ChipAgrees) (h : s.Inv) (hst : s.st = .waiting)
    (hx : s.xfer = .sent out) (hd : decodeFrame out = .ok i) (he : exec i s = .next t)
    (hf : s.fates.head.isReply = false) : t.ChipAgrees := by
  have hout := h.sent_eq_frameOut hst hx
  rw [hout] at hd
  have hframe := (exec_frame hd he).1
  have hsame : t.cfg = s.cfg ∧ t.opL = s.opL ∧ t.phase = s.phase ∧ t.srTmp = s.srTmp := by
    rw [hframe]; exact ⟨rfl, rfl, rfl, rfl⟩
  obtain ⟨hcfg, hop, hphase, hsrTmp⟩ := hsame
  refine ⟨fun _ hdata hp => ?_, fun _ inb hok hp => ?_, fun _ inb hok hp => ?_⟩
  · rw [State.isData, hop] at hdata
    rw [hphase] at hp
    obtain ⟨a, p, hi⟩ := h.decodeFrame_data hst hdata hp hd
    rw [chipSequential, exec_dataFrame_sr hi he hf, hcfg]
    exact hc.data (.inr hst) hdata hp
  · rw [hphase] at hp
    rw [State.frameOut, hp] at hd
    cases hd
    exact exec_rdsr_told he hf hx hok
  · rw [hphase] at hp
    rw [State.frameOut, hp] at hd
    cases hd
    rw [hsrTmp]
    exact exec_wrsr_stored he hf hx hok

end ReferenceChip

/-! #### The transitions of the block -/

/-- The step from `s` to `t` keeps the invariant, and the chip in agreement with the block. -/
def KeepsInv (s t : State) : Prop := t.Inv ∧ (s.ChipAgrees → t.ChipAgrees)

/-- MODE reads back as it was written (30_encoding.md R116). -/
theorem modeOf_withMode {c : Config} (h : c.modeShift ≤ 6) (b : Byte) (m : BitVec 2) :
    modeOf c (withMode c b m) = m := by
  refine BitVec.eq_of_getLsbD_eq fun j hj => ?_
  have hj' : j < 8 := by omega
  have hs : c.modeShift + j < 8 := by omega
  have hmask : (0b11#8).getLsbD j = true := by
    obtain rfl | rfl : j = 0 ∨ j = 1 := by omega
    all_goals rfl
  rw [BitVec.getLsbD_eq_getElem hj'] at hmask
  simp [modeOf, withMode, modeMask, hj, hj', hs, hmask]

/-- The byte that the ensure step writes has MODE SEQUENTIAL (42_sequencer_data_ops.md R178). -/
theorem isSequential_withMode {c : Config} (h : c.legal = true) (b : Byte) :
    isSequential c (withMode c b (Mode.code c .sequential)) = true := by
  obtain ⟨-, -, hs, -⟩ := Config.legal_bounds h
  rw [isSequential, modeOf_withMode hs, beq_self_eq_true]

section Transitions

variable {i : Instr} {r : ReqFields} {s t : State}

/-- A status operation starts in its first phase with nothing done (43_status_ops.md R211, R216). -/
theorem State.statusPhase_start (hd : s.done = 0#16) (hp : s.phase = s.firstPhase) : s.StatusPhase := by
  refine ⟨hd, ?_⟩
  rw [hp, State.firstPhase]
  by_cases hop : s.opL = 0b011#3
  · simp [hop]
  · have hne : s.opL.toNat ≠ 3 := fun h => hop (BitVec.eq_of_toNat_eq h)
    have hb : (s.opL == 0b011#3) = false := beq_eq_false_iff_ne.2 hop
    split
    next h3 => exact absurd h3 hne
    next => simp [hb]
    next => simp [hb]

/-- The current chunk lies in the buffer of an accepted Operation (70_reset_and_hazards.md R266). -/
theorem State.Progress.chunk_le_size (h : s.Progress) (hroom : s.lenL.toNat ≤ s.buf.size) :
    s.done.toNat + s.chunkLen ≤ s.buf.size := by
  have := s.chunkLen_le
  have := h.remaining
  omega

theorem storeChunk_buf_wf (h : s.buf.wf = true) (hsize : s.done.toNat + s.chunkLen ≤ s.buf.size) (inb : List Byte) :
    (s.storeChunk inb).buf.wf = true := by
  rw [Buffer.wf, Bool.and_eq_true] at h ⊢
  have hlen : (readData inb s.chunkLen).length ≤ s.chunkLen := List.length_take_le ..
  refine ⟨Memory.wf_writeBytes _ _ _ h.1, Memory.below_writeBytes _ _ _ (fun j _ hj => ?_) h.2⟩
  simp only [bufLoc, State.storeChunk, State.setBufBytes_buf]
  omega

/-- An Operation keeps the configuration, the latches and the canonical form of all memories (R39, R171). -/
theorem operation_keeps_form (h : s.Inv) (hop : IsOperation i s.opL r) (he : exec i s = .next t) (hst : s.st ≠ .idle) :
    t.Form ∧ t.Accepted := by
  obtain ⟨hcfg, hchip, hrequests, -⟩ := operation_keeps_environment hop he
  obtain ⟨hopL, haddr, hlen, hdata⟩ := (operation_keeps_registers hop he).1 hst
  have hlatched : t.latched = s.latched := by rw [State.latched, haddr, hlen, hdata, State.latched]
  have hbuf : t.buf.size = s.buf.size ∧ t.buf.wf = true := by
    rcases operation_buf hop he with hsame | ⟨rfl, hw, -, inb, hstore⟩
    · exact ⟨congrArg Buffer.size hsame, hsame ▸ h.bufWf⟩
    · have hread : s.isData := hop.isDataOp_iff.1 (.inl rfl)
      rw [hstore]
      exact ⟨rfl, storeChunk_buf_wf h.bufWf ((h.progress (.inr hw) hread).chunk_le_size (h.room hst hread)) inb⟩
  refine ⟨⟨hcfg ▸ h.legal, ?_, hchip ▸ h.chipWf, hbuf.2, hrequests ▸ h.offers⟩, ?_, fun hd => ?_⟩
  · rw [hlatched, hcfg]; exact h.fits
  · rw [hlatched, hopL]; exact h.current hst
  · rw [State.isData, hopL] at hd
    rw [hlen, hbuf.1]
    exact h.room hst hd

/-! What `operation` makes of T_ACCEPT, T_PLAN and T_ISSUE -/

section Operation

variable {op : BitVec 3} {admission : ReqFields → State → Option Refusal} {planned : State → State}
  {issue : State → Result} {onOk : List Byte → State → Result} {data : State → Byte}

theorem accepted_of_operation (hst : s.st = .idle) (he : operation op admission planned issue onOk data r s = .next t) :
    admission r s = none ∧ t = s.accept op r := by
  rcases operation_next he with ⟨-, hadm, ht⟩ | ⟨hst', -⟩ | ⟨hst', -⟩ | ⟨hst', -⟩ | ⟨hst', -⟩ | ⟨hst' | hst', -⟩
  · exact ⟨hadm, ht⟩
  all_goals rw [hst] at hst'; cases hst'

theorem planned_of_operation (hst : s.st = .planning)
    (he : operation op admission planned issue onOk data r s = .next t) :
    t = planned s := by
  simpa [operation, hst, eq_comm] using he

theorem issue_of_operation (hst : s.st = .issuing) (ho : s.owner = true)
    (he : operation op admission planned issue onOk data r s = .next t) : issue s = .next t := by
  simpa [operation, hst, ho] using he

end Operation

/-! T_PLAN -/

/-- T_PLAN of each operation (R172, 43_status_ops.md R211): a data operation is planned, a status operation asks for
the bus with its first phase. -/
theorem operation_plan (hop : IsOperation i s.opL r) (hst : s.st = .planning) (he : exec i s = .next t) :
    (s.isData ∧ t = tPlanData s) ∨
    (¬ s.isData ∧ ∃ b, t = ((s.setDone 0#16).setSrTmp b).request.toPhase s.firstPhase) := by
  unfold State.firstPhase
  rcases hop with ⟨rfl, ho⟩ | ⟨rfl, ho⟩ | ⟨rfl, ho⟩ | ⟨rfl, ho⟩ | ⟨rfl, ho⟩ | ⟨rfl, ho⟩ <;> rw [ho]
  · exact .inl ⟨.inl ho, (planned_of_operation hst he :)⟩
  · exact .inl ⟨.inr ho, (planned_of_operation hst he :)⟩
  · exact .inr ⟨by simp [ho], s.srTmp, (planned_of_operation hst he :)⟩
  · exact .inr ⟨by simp [ho], s.dataL, (planned_of_operation hst he :)⟩
  · exact .inr ⟨by simp [ho], s.srTmp, (planned_of_operation hst he :)⟩
  · exact .inr ⟨by simp [ho], s.srTmp, (planned_of_operation hst he :)⟩

/-- A plan that passes sets the progress registers to the start of the range (R172). -/
theorem loadProgress_progress (hp : planCheck s.addrL.toNat s.lenL.toNat = .chunks) (hd : s.done = 0#16) :
    s.loadProgress.Progress := by
  obtain ⟨hpos, hend⟩ := planCheck_chunks.1 hp
  unfold Config.chipSize at hend
  refine ⟨hp, ?_, ?_, ?_, ?_⟩ <;> simp [hd] <;> omega

/-- T_PLAN ends the Operation without a frame, or asks for the bus in the window's first phase (R172, R189). -/
theorem plan_keepsInv (h : s.Inv) (hop : IsOperation i s.opL r) (hst : s.st = .planning) (he : exec i s = .next t) :
    KeepsInv s t := by
  obtain ⟨hf, ha⟩ := operation_keeps_form h hop he (by simp [hst])
  obtain ⟨ho, hx, hedges⟩ := h.released (by simp [State.inBus, hst])
  have hclean : s.errKind = .ok := h.clean (by simp [hst]) (by simp [hst])
  rcases operation_plan hop hst he with ⟨hd, rfl⟩ | ⟨hd, b, rfl⟩
  · rcases tPlanData_cases s with ⟨-, ht⟩ | ⟨-, ht⟩ | ⟨hp, ht⟩ | ⟨hp, ht⟩ <;> rw [ht] at hf ha ⊢
    · exact ⟨.of_failed rfl hf ha ⟨ho, hx, hedges⟩ (by simp) (fun _ => by simp) (fun _ => rfl),
        fun _ => .of_off_bus (by simp [State.inBus])⟩
    · exact ⟨.of_failed rfl hf ha ⟨ho, hx, hedges⟩ (by simp) (fun _ => by simp) (fun _ => rfl),
        fun _ => .of_off_bus (by simp [State.inBus])⟩
    · exact ⟨.of_complete rfl hf ha ⟨ho, hx, hedges⟩ hclean (fun _ => (planCheck_nothing.1 hp).symm) (absurd hd),
        fun _ => .of_off_bus (by simp [State.inBus])⟩
    · have hprogress := (loadProgress_progress (s := s.setDone 0#16) hp rfl).of_eq rfl rfl rfl rfl rfl rfl
        (t := (s.setDone 0#16).loadProgress.request.toPhase .rdsr)
      refine ⟨.of_issuing rfl hf ha ⟨fun _ => hprogress, by simp, absurd hd, by simp⟩ hclean hx fun _ => ?_,
        fun _ => .of_no_answer (by simp [hx]) (by simp)⟩
      rcases hd with hd | hd <;> simp [State.firstPhase, hd]
  · exact ⟨.of_issuing rfl hf ha ⟨fun hd' => absurd hd' hd, fun hd' => absurd hd' hd,
        fun _ => State.statusPhase_start rfl rfl, by simp⟩ hclean hx fun _ => rfl,
      fun _ => .of_no_answer (by simp [hx]) fun _ hd' => absurd hd' hd⟩

/-! T_ACQUIRE and T_ISSUE -/

/-- T_ISSUE sends the frame of the phase (R174, R175, 43_status_ops.md R216). -/
theorem operation_issue (hop : IsOperation i s.opL r) (hst : s.st = .issuing) (ho : s.owner = true)
    (he : exec i s = .next t) : t = s.send s.frameOut := by
  have hframe : ∀ {body : State → Result}, issueData body s = .next t →
      (s.phase = .data → body s = .next t → t = s.send s.frameOut) → t = s.send s.frameOut := fun hi hbody => by
    rcases issueData_next hi with ⟨hp, ht⟩ | ⟨hp, ht⟩ | ⟨hp, hb⟩
    · rw [ht, State.frameOut, hp]
    · rw [ht, State.frameOut, hp]
    · exact hbody hp hb
  rcases hop with ⟨rfl, hc⟩ | ⟨rfl, hc⟩ | ⟨rfl, hc⟩ | ⟨rfl, hc⟩ | ⟨rfl, hc⟩ | ⟨rfl, hc⟩
  · refine hframe (issue_of_operation hst ho he) fun hp hb => ?_
    cases hb
    rw [State.frameOut, hp, hc]
    rfl
  · refine hframe (issue_of_operation hst ho he) fun hp hb => ?_
    obtain ⟨-, rfl⟩ := issueWriteChunk_next hb
    rw [State.frameOut, hp, hc]
    rfl
  all_goals exact hframe (issue_of_operation hst ho he) fun _ hb => by cases hb

/-- T_ACQUIRE and T_ISSUE leave alone what the invariant asks of the registers on the bus. -/
theorem State.Working.of_busFrame (h : s.Working) (hf : BusFrame s t) : t.Working := by
  rw [hf]
  exact ⟨fun hd => (h.progress hd).of_eq rfl rfl rfl rfl rfl rfl, h.ensured, fun hd => (h.status hd).of_eq rfl rfl rfl,
    h.edges⟩

/-- T_ACQUIRE (R173), granted or not, moves no register but `owner`. -/
theorem acquire_keepsInv (h : s.Inv) (hst : s.st = .issuing) (hf : (tAcquire s).Form) (ha : (tAcquire s).Accepted) :
    KeepsInv s (tAcquire s) := by
  have hw := (h.working (.inl hst)).of_busFrame (tAcquire_frame s)
  have hx : s.xfer = .idle := h.quiet (by simp [hst])
  have hclean : s.errKind = .ok := h.clean (by simp [hst]) (by simp [hst])
  rcases tAcquire_cases s with ⟨-, ht⟩ | ⟨-, ht⟩ <;> rw [ht] at hf ha hw ⊢
  · exact ⟨.of_issuing hst hf ha hw hclean hx (by simp), fun hc => ⟨hc.data, hc.told, hc.stored⟩⟩
  · exact ⟨.of_issuing hst hf ha hw hclean hx (h.windowStart hst), fun hc => ⟨hc.data, hc.told, hc.stored⟩⟩

/-- T_ISSUE (R174) moves no register but `st`, and the frame it sends is that of the phase. -/
theorem issue_keepsInv (h : s.Inv) (hop : IsOperation i s.opL r) (hst : s.st = .issuing) (ho : s.owner = true)
    (he : exec i s = .next t) : KeepsInv s t := by
  obtain ⟨hf, ha⟩ := operation_keeps_form h hop he (by simp [hst])
  obtain rfl := operation_issue hop hst ho he
  exact ⟨.of_waiting rfl hf ha ((h.working (.inl hst)).of_busFrame rfl) (h.clean (by simp [hst]) (by simp [hst])) ho
      (.inl rfl),
    fun hc => .of_no_answer (by simp) fun _ => hc.data (.inl hst)⟩

/-! T_OK and T_ERR -/

/-- The registers after a chunk with another one to come (R180): only whole chunks lie behind them. -/
theorem State.Progress.advance (h : s.Progress) (hne : s.remaining - BitVec.ofNat 16 s.chunkLen ≠ 0#16) :
    (s.advance s.chunkLen).Progress := by
  obtain ⟨hcur, hrem, hdone⟩ := advance_toNat h
  have hleft : (s.advance s.chunkLen).remaining.toNat ≠ 0 := fun h0 => hne (BitVec.eq_of_toNat_eq h0)
  have hchunk : s.chunkLen = s.cfg.maxChunk := by
    rw [hrem] at hleft
    unfold State.chunkLen at hleft ⊢
    omega
  have hc := h.curAddr
  have hr := h.remaining
  have hle := s.chunkLen_le
  refine ⟨h.planned, ?_, ?_, by omega, ?_⟩
  · rw [hcur, hdone, State.advance_addrL]; omega
  · rw [hrem, hdone, State.advance_lenL]; omega
  · rw [hdone, hchunk]
    exact Nat.dvd_add h.whole_chunks dvd_rfl

/-- After the last chunk everything is done (R180, R182). -/
theorem State.Progress.advance_done (h : s.Progress) (h0 : s.remaining - BitVec.ofNat 16 s.chunkLen = 0#16) :
    (s.advance s.chunkLen).done.toNat = s.lenL.toNat := by
  obtain ⟨-, hrem, hdone⟩ := advance_toNat h
  have hzero : (s.advance s.chunkLen).remaining.toNat = 0 := congrArg BitVec.toNat h0
  have hr := h.remaining
  have hle := s.chunkLen_le
  omega

/-- A chunk that has succeeded (R180): the Operation is complete, or asks for the bus for its next chunk. -/
theorem chunkDone_keepsInv (hp : s.Progress) (hd : s.isData) (hx : s.xfer = .idle) (he : s.errKind = .ok)
    (hf : (chunkDone s).Form) (ha : (chunkDone s).Accepted) : (chunkDone s).Inv ∧ (chunkDone s).ChipAgrees := by
  rcases chunkDone_cases s with ⟨h0, ht⟩ | ⟨hne, ht⟩ <;> rw [ht] at hf ha ⊢
  · exact ⟨.of_complete rfl hf ha ⟨rfl, hx, by simp⟩ he (fun _ => hp.advance_done h0) (absurd hd),
      .of_off_bus (by simp [State.inBus])⟩
  · refine ⟨.of_issuing rfl hf ha ⟨fun _ => (hp.advance hne).of_eq rfl rfl rfl rfl rfl rfl, by simp, absurd hd, by simp⟩
      he hx fun _ => ?_, .of_no_answer (by simp [hx]) (by simp)⟩
    rcases hd with hd | hd <;> simp [State.firstPhase, hd]

/-- T_OK of the ensure step (R178, R179): the next frame is that of phase `p`, of a data operation, and the chip is
told to be in SEQUENTIAL mode. -/
theorem ensure_keepsInv {p : Phase} {b : Byte} (h : s.Inv) (hst : s.st = .waiting) (hd : s.isData)
    (ht : t = (s.endTransfer.setSrTmp b).toPhase p) (hf : t.Form) (ha : t.Accepted)
    (hb : p = .wrsr → isSequential s.cfg b = true)
    (hc : s.ChipAgrees → p = .data → chipSequential s.cfg s.chip = true) : KeepsInv s t := by
  subst ht
  obtain ⟨hprogress, -, -, hedges⟩ := h.working (.inr hst)
  have ho := h.window hst
  exact ⟨.of_issuing rfl hf ha ⟨fun _ => (hprogress hd).of_eq rfl rfl rfl rfl rfl rfl, fun _ => hb, absurd hd, hedges⟩
      (h.clean (by simp [hst]) (by simp [hst])) rfl (by simp [ho]),
    fun hagree => .of_no_answer (by simp) fun _ _ => hc hagree⟩

/-- T_ERR (R177): what has been done stays done, in whole chunks (60_exceptions.md R238). -/
theorem err_keepsInv (h : s.Inv) (hst : s.st = .waiting) (hf : (tErr s).Form) (ha : (tErr s).Accepted) :
    KeepsInv s (tErr s) := by
  obtain ⟨hprogress, -, hstatus, -⟩ := h.working (.inr hst)
  refine ⟨.of_failed rfl hf ha ⟨rfl, rfl, by simp [tErr]⟩ (by simp [tErr]) (fun hd => ?_) fun hd => (hstatus hd).done,
    fun _ => .of_off_bus (by simp [State.inBus, tErr])⟩
  have hsum := (hprogress hd).remaining
  exact ⟨show s.done.toNat ≤ s.lenL.toNat by omega, (hprogress hd).whole_chunks⟩

/-- The last answer of a status operation (43_status_ops.md R216). -/
theorem statusDone_keepsInv {b : Byte} (h : s.Inv) (hst : s.st = .waiting) (hd : ¬ s.isData)
    (ht : t = statusDone (s.endTransfer.setSrTmp b)) (hf : t.Form) (ha : t.Accepted) : KeepsInv s t := by
  subst ht
  exact ⟨.of_complete rfl hf ha ⟨rfl, rfl, by simp [statusDone]⟩ (h.clean (by simp [hst]) (by simp [hst]))
      (fun hd' => absurd hd' hd) fun _ => rfl,
    fun _ => .of_off_bus (by simp [State.inBus, statusDone])⟩

/-- The first answer of SETMODE (43_status_ops.md R216): its WRSR frame is due in the same window. -/
theorem setMode_keepsInv {b : Byte} (h : s.Inv) (hst : s.st = .waiting) (hop : s.opL = 0b101#3)
    (ht : t = (s.endTransfer.setSrTmp b).toPhase .wrsr) (hf : t.Form) (ha : t.Accepted) : KeepsInv s t := by
  subst ht
  have hd : ¬ s.isData := by simp [hop]
  obtain ⟨-, -, hstatus, hedges⟩ := h.working (.inr hst)
  have ho := h.window hst
  refine ⟨.of_issuing rfl hf ha
      ⟨fun hd' => absurd hd' hd, fun hd' => absurd hd' hd, fun _ => ⟨(hstatus hd).done, ?_⟩, hedges⟩
      (h.clean (by simp [hst]) (by simp [hst])) rfl (by simp [ho]),
    fun _ => .of_no_answer (by simp) (by simp)⟩
  simp [hop]

/-! T_REPORT -/

/-- T_REPORT (R182): the block is in IDLE again, or holds the result until it is taken. -/
theorem report_keepsInv (h : s.Inv) (hst : s.st = .complete ∨ s.st = .failed) (data : State → Byte) :
    KeepsInv s (tReport data s) := by
  have hoff : ¬ s.inBus := by rcases hst with hst | hst <;> simp [State.inBus, hst]
  obtain ⟨ho, hx, hedges⟩ := h.released hoff
  rcases tReport_cases data s with ⟨-, ht⟩ | ⟨-, ht⟩ <;> rw [ht]
  · exact ⟨.of_idle h.legal h.fits h.chipWf h.bufWf h.offers rfl ho hx hedges,
      fun _ => .of_off_bus (by simp [State.inBus])⟩
  · exact ⟨h.of_environmentFrame rfl h.chipWf h.offers (fun hw => absurd (.inr hw) hoff) fun _ => hx,
      fun _ => .of_off_bus hoff⟩

/-! All of them -/

/-- Every transition of the Operation in the latches keeps the invariant, and the chip in agreement with the block. -/
theorem operation_keepsInv (h : s.Inv) (hop : IsOperation i s.opL r) (he : exec i s = .next t) (hst : s.st ≠ .idle) :
    KeepsInv s t := by
  obtain ⟨hf, ha⟩ := operation_keeps_form h hop he hst
  have hdata : IsDataOp i r ↔ s.isData := hop.isDataOp_iff
  rcases operation_cases hop he with ⟨hidle, -⟩ | ⟨hplan, -⟩ | ⟨hplan, -⟩ | ⟨hissue, ho, -⟩ | ⟨hissue, -, rfl⟩ |
    ⟨hwait, ⟨rfl, -⟩ | ⟨-, rfl⟩ | ⟨inb, hx, hok⟩⟩ | ⟨hend, data, rfl⟩
  · exact absurd hidle hst
  · exact plan_keepsInv h hop hplan he
  · exact plan_keepsInv h hop hplan he
  · exact issue_keepsInv h hop hissue ho he
  · exact acquire_keepsInv h hissue hf ha
  · exact ⟨h, id⟩
  · exact err_keepsInv h hwait hf ha
  · have hclean : s.errKind = .ok := h.clean hst (by simp [hwait])
    rcases hok with ⟨hd, hp, rfl⟩ | ⟨hd, hp, rfl⟩ | ⟨rfl, hp, rfl⟩ | ⟨rfl, hp, -, rfl⟩ | ⟨hd, -, b, ht⟩ |
      ⟨rfl, hp, b, ht⟩
    · refine ensure_keepsInv h hwait (hdata.1 hd) rfl hf ha (fun _ => isSequential_withMode h.legal _)
        fun hc hphase => ?_
      rw [chipSequential, ← hc.told hwait inb hx hp]
      by_contra hseq
      rw [State.endTransfer_cfg, Bool.eq_false_iff.2 hseq] at hphase
      cases hphase
    · refine ensure_keepsInv (b := s.srTmp) h hwait (hdata.1 hd) rfl hf ha nofun fun hc _ => ?_
      rw [chipSequential, hc.stored hwait inb hx hp]
      exact h.ensured (.inr hwait) (hdata.1 hd) hp
    · have hd : s.isData := hdata.1 (.inr rfl)
      have hprogress := (h.progress (.inr hwait) hd).of_eq (t := s.endTransfer) rfl rfl rfl rfl rfl rfl
      exact (chunkDone_keepsInv hprogress hd rfl hclean hf ha).imp_right fun hc _ => hc
    · have hd : s.isData := hdata.1 (.inl rfl)
      have hprogress := (h.progress (.inr hwait) hd).of_eq (t := s.endTransfer.storeChunk inb) rfl rfl rfl rfl rfl rfl
      exact (chunkDone_keepsInv hprogress hd rfl hclean hf ha).imp_right fun hc _ => hc
    · exact statusDone_keepsInv h hwait (hd ∘ hdata.2) ht hf ha
    · exact setMode_keepsInv h hwait (by simpa [IsOperation] using hop) ht hf ha
  · exact report_keepsInv h hend data

end Transitions

/-! #### T_ACCEPT, and the step -/

/-- T_ACCEPT latches the request (R171); an admitted READ or WRITE has a buffer for every byte
(70_reset_and_hazards.md R266). -/
theorem operation_accept {i : Instr} {op : BitVec 3} {r : ReqFields} {s t : State} (hop : IsOperation i op r)
    (hst : s.st = .idle) (he : exec i s = .next t) :
    t = s.accept op r ∧ (op = 0b000#3 ∨ op = 0b001#3 → r.len.toNat ≤ s.buf.size) := by
  rcases hop with ⟨rfl, rfl⟩ | ⟨rfl, rfl⟩ | ⟨rfl, rfl⟩ | ⟨rfl, rfl⟩ | ⟨rfl, rfl⟩ | ⟨rfl, rfl⟩ <;>
    obtain ⟨hadm, ht⟩ := accepted_of_operation hst he
  · exact ⟨ht, fun _ => admitData_none.1 hadm⟩
  · exact ⟨ht, fun _ => admitData_none.1 hadm⟩
  all_goals exact ⟨ht, by simp⟩

/-- A request that is offered and accepted: the buffer that comes with it is canonical, its fields fit the configured
widths (30_encoding.md R101). -/
theorem accept_keepsInv {s t : State} {q : Request} {i : Instr} (h : s.Inv) (hst : s.st = .idle)
    (hq : s.requests.head = some q) (hd : decodeRequest s.cfg q.word = .ok i) (he : exec i (s.offer q) = .next t) :
    KeepsInv s t := by
  have hfields := (decodeRequest_ok hd).2
  obtain ⟨rfl, hroom⟩ := operation_accept (s := s.offer q) (decodeFields_isOperation hfields) hst he
  obtain ⟨-, -, -, -, haw, -, hlw⟩ := Config.legal_bounds h.legal
  obtain ⟨ho, hx, hedges⟩ := h.released (by simp [State.inBus, hst])
  have hbuf : (q.attach.getD s.buf).wf = true := by
    cases hb : q.attach with
    | none => exact h.bufWf
    | some b => exact h.offers.head hq b hb
  exact ⟨.of_planning rfl ⟨h.legal, requestFields_fit s.cfg hlw haw q.word, h.chipWf, hbuf, h.offers.pop⟩
      ⟨⟨i, hfields⟩, hroom⟩ ⟨ho, hx, hedges⟩ rfl,
    fun _ => .of_off_bus (by simp [State.inBus])⟩

/-- A step leaves the Transport's input as it was or moves it on by one value. -/
theorem step_fates {s t : State} (h : step s = .next t) : t.fates = s.fates ∨ t.fates = s.fates.pop := by
  rcases step_cases h with ⟨-, ⟨-, rfl⟩ | ⟨-, out, i, u, -, hd, he, rfl⟩⟩ | ⟨-, -, -, rfl⟩ |
    ⟨-, -, q, -, -, -, -, -, -, rfl⟩ | ⟨-, -, out, i, -, hd, he⟩ | ⟨-, -, -, i, hop, he⟩
  · exact .inl rfl
  · exact .inr (exec_frame hd he).1.of_cutBusy.fates_eq
  · exact .inl rfl
  · exact .inl rfl
  · exact .inr (exec_frame hd he).1.fates_eq
  · obtain ⟨-, -, -, hfates, -⟩ := operation_keeps_environment hop he
    exact .inl hfates

/-- A reset edge that cuts a frame off (70_reset_and_hazards.md R262). -/
theorem State.Inv.cutFrame {s u : State} {out : List Byte} {i : Instr} (h : s.Inv) (hst : s.st = .waiting)
    (hx : s.xfer = .sent out) (hd : decodeFrame out = .ok i) (he : exec i s.cutBusy = .next u) : u.Inv := by
  obtain ⟨hframe, hanswer, hchip⟩ := exec_frame hd he
  obtain ⟨-, -, hcutXfer, hcutChip, -⟩ := cutBusy_fields s
  rw [TransportAnswer, hcutXfer] at hanswer
  rw [hcutChip] at hchip
  exact h.frame hst hx hframe.of_cutBusy hanswer (hchip h.chipWf)

/-- Settles O52: the edge keeps the invariant, and so does each thing that `step_cases` lists after it; the chip goes
on agreeing with the block, as another master reaches it between windows only and every frame tells the truth of it. -/
theorem stepKeepsTheInvariant : Obligations.StepKeepsTheInvariant := by
  intro s t hinv h
  have hi := hinv.tick
  suffices hkeep : t.Inv ∧ (s.ReferenceChip → s.tick.ChipAgrees → t.ChipAgrees) from
    ⟨hkeep.1, fun href hc => ⟨href.of_fates (step_fates h), hkeep.2 href (hc.tick hinv)⟩⟩
  rcases step_cases h with ⟨-, ⟨-, rfl⟩ | ⟨hst, out, i, u, hx, hd, he, rfl⟩⟩ | ⟨-, hst, -, rfl⟩ |
    ⟨hr, hst, q, i, op, r, hq, hd, -, -⟩ | ⟨-, hst, out, i, hx, hd, he⟩ | ⟨-, hst, -, i, hop, he⟩
  · exact ⟨hi.resetBlock, fun _ _ => .of_off_bus (by simp [State.inBus, resetBlock])⟩
  · exact ⟨(hi.cutFrame hst hx hd he).resetBlock, fun _ _ => .of_off_bus (by simp [State.inBus, resetBlock])⟩
  · have hwait : s.tick.st ≠ .waiting := by simp [hst]
    exact ⟨hi.of_environmentFrame rfl hi.chipWf hi.offers.pop (absurd · hwait) fun _ => hi.quiet hwait,
      fun _ _ => .of_off_bus (by simp [State.inBus, hst])⟩
  · rw [step_of_fetch_run hinv.legal hr (fetch_of_offer (s := s.tick) hst hq hd)] at h
    exact (accept_keepsInv hi hst hq hd h).imp_right fun hc _ => hc
  · obtain ⟨hframe, hanswer, hchip⟩ := exec_frame hd he
    exact ⟨hi.frame hst hx hframe hanswer (hchip hi.chipWf), fun href hc => hc.frame hi hst hx hd he href.head⟩
  · exact (operation_keepsInv hi hop he hst).imp_right fun hc _ => hc

end Sys2Proof.Machine

/-! ### The four frames at the reference chip (20_memory.md R87 to R93) -/

namespace Sys2Proof.Machine

/-! #### The chip's mode and its addresses -/

theorem chipSequential_iff {c : Config} {k : Chip} : chipSequential c k = true ↔ modeOf c k.sr = c.modeSeq := by
  rw [chipSequential, isSequential, beq_iff_eq, Mode.code]

/-- R88's address: bit 15 ignored, modulo 32768. -/
theorem chipLoc_eq (a : Half) (j : Nat) : chipLoc a j = (a.toNat % 32768 + j) % 32768 := by
  rw [chipLoc, BitVec.toNat_setWidth, Config.chipSize]

/-- `m'` is `m` with the payload `p` stored from address `a` on, every other byte kept (R89). -/
structure PayloadStored (a : Half) (p : List Byte) (m m' : Memory) : Prop where
  wf : m'.wf = true
  stored : ∀ j, j < p.length → some (m'.read ((a.toNat % 32768 + j) % 32768)) = p[j]?
  kept : ∀ b, (∀ j, j < p.length → b ≠ (a.toNat % 32768 + j) % 32768) → m'.read b = m.read b

theorem chip_writeBytes_read_of_outside {m : Memory} (a : Half) (p : List Byte) (hwf : m.wf = true) {b : Nat}
    (hb : ∀ j, j < p.length → b ≠ chipLoc a j) : (m.writeBytes (chipLoc a) 0 p).read b = m.read b :=
  Memory.read_writeBytes_of_ne _ b p 0 hwf fun j _ hj => hb j (by omega)

/-- A payload of at most 32768 bytes meets no address twice, so each of its bytes stays where it is stored. -/
theorem payloadStored_writeBytes {m : Memory} (a : Half) {p : List Byte} (hlen : p.length ≤ Config.chipSize)
    (hwf : m.wf = true) : PayloadStored a p m (m.writeBytes (chipLoc a) 0 p) where
  wf := chip_writeBytes_wf a p hwf
  stored j hj := by
    have hread := Memory.read_writeBytes (chipLoc a) p 0 hwf
      (fun i k _ hik hk => chipLoc_injective a hik (by omega)) j hj
    rw [Nat.zero_add] at hread
    rw [← chipLoc_eq, hread, List.getElem?_eq_getElem hj]
  kept b hb := chip_writeBytes_read_of_outside a p hwf fun j hj => by rw [chipLoc_eq]; exact hb j hj

/-! #### A data frame that the chip takes, and one that it does not -/

section DataFrame

variable {a : Half} {p : List Byte} {s : State}

theorem execFrameRead_eq_transfer (hp : p ≠ [])
    (hc : s.fates.head.byChip = true → chipSequential s.cfg s.chip = true) :
    execFrameRead a p s = .next (transfer (3 + p.length)
      (freeBytes s.draws 3 ++ s.chip.mem.readBytes (chipLoc a) p.length) 3
      (chipAfterRead a p.length s.chip) (fun _ => s.chip) 0 s) := by
  rw [execFrameRead, dataFrameRefusal_none.2 ⟨hp, hc⟩]

theorem execFrameWrite_eq_transfer (hp : p ≠ [])
    (hc : s.fates.head.byChip = true → chipSequential s.cfg s.chip = true) :
    execFrameWrite a p s = .next (transfer (3 + p.length) (freeBytes s.draws (3 + p.length)) (3 + p.length)
      (chipAfterWrite a p s.chip) (fun got => chipCutWrite a p got s.draws s.chip) 1 s) := by
  rw [execFrameWrite, dataFrameRefusal_none.2 ⟨hp, hc⟩]

theorem dataFrame_refused {why : Refusal} (h : dataFrameRefusal p s = some why) :
    execFrameRead a p s = .refused why ∧ execFrameWrite a p s = .refused why := by
  rw [execFrameRead, execFrameWrite, h]
  exact ⟨rfl, rfl⟩

theorem dataFrameRefusal_nil : dataFrameRefusal [] s = some .notAFrame := rfl

/-- R93: the chip receives a data frame while its MODE is another. -/
theorem dataFrameRefusal_of_not_sequential (hp : p ≠ []) (hf : s.fates.head.byChip = true)
    (hc : ¬ chipSequential s.cfg s.chip = true) : dataFrameRefusal p s = some .dataFrameNotSequential := by
  simp [dataFrameRefusal, hp, hf, hc]

end DataFrame

/-! #### The Transport's step, by what becomes of the transfer -/

section Fates

variable {len : Nat} {inb : List Byte} {drawn : Nat} {after : Chip} {cut : Nat → Chip} {cutDrawn : Nat} {s : State}

theorem transfer_of_complete (h : s.fates.head = .complete) :
    transfer len inb drawn after cut cutDrawn s = ((s.popFate.setChip after).draw drawn).answer (.ok inb) := by
  rw [transfer, h]

theorem transfer_of_fail {n : Nat} (h : s.fates.head = .fail n) :
    transfer len inb drawn after cut cutDrawn s =
      ((s.popFate.setChip (cut (receivedOf len n))).draw cutDrawn).answer .err := by
  rw [transfer, h]

end Fates

/-! #### A transfer that completes (R88 to R91) -/

/-- Settles O27: the frame is taken, as MODE is SEQUENTIAL, and R88's answer is read at the computed addresses. -/
theorem readFrameAnswersTheArray : Obligations.ReadFrameAnswersTheArray := by
  intro a p s hp hmode hf
  have hexec := execFrameRead_eq_transfer (a := a) (List.ne_nil_of_length_pos hp) fun _ => chipSequential_iff.2 hmode
  rw [transfer_of_complete hf, Memory.readBytes] at hexec
  simp only [chipLoc_eq] at hexec
  exact ⟨_, _, _, _, _, hexec⟩

/-- Settles O28: the frame is taken, as MODE is SEQUENTIAL, and what it writes is the payload, once each. -/
theorem writeFrameStoresThePayload : Obligations.WriteFrameStoresThePayload := by
  intro a p s hp hlen hmode hf hwf
  have hexec := execFrameWrite_eq_transfer (a := a) (List.ne_nil_of_length_pos hp) fun _ => chipSequential_iff.2 hmode
  rw [transfer_of_complete hf] at hexec
  have hstored := payloadStored_writeBytes a hlen hwf
  exact ⟨_, _, _, _, hexec, freeBytes_length .., hstored.wf, hstored.stored, hstored.kept⟩

/-- Settles O29: both frames are one `transfer`, with the status byte told (R90) or replaced (R91). -/
theorem statusFramesReadAndWriteTheRegister : Obligations.StatusFramesReadAndWriteTheRegister := by
  intro d v s hf
  exact ⟨⟨_, _, congrArg _ (transfer_of_complete hf)⟩, ⟨_, _, _, congrArg _ (transfer_of_complete hf)⟩⟩

/-! #### A transfer that fails (R92) -/

/-- Of a WRITE frame cut short the chip has stored the payload bytes among those received. -/
theorem chipCutWrite_stores {k : Chip} (a : Half) {p : List Byte} (n draw : Nat) (hlen : p.length ≤ Config.chipSize)
    (hwf : k.mem.wf = true) : PayloadStored a (p.take (min (n - 3) p.length)) k.mem
      (chipCutWrite a p (receivedOf (3 + p.length) n) draw k).mem := by
  have hgot : receivedOf (3 + p.length) n - 3 = min (n - 3) p.length := by
    unfold receivedOf
    omega
  rw [chipCutWrite, hgot]
  exact payloadStored_writeBytes a (by rw [List.length_take]; omega) hwf

theorem chipCutWrsr_cases (v : Byte) (got : Nat) (k : Chip) :
    chipCutWrsr v got k = k ∨ chipCutWrsr v got k = { k with sr := v } := by
  unfold chipCutWrsr
  split
  · exact .inr rfl
  · exact .inl rfl

/-- Settles O30: all four frames are one `transfer`, and a failing one leaves the chip that R92 allows. -/
theorem failedFrameLeavesALeadingPart : Obligations.FailedFrameLeavesALeadingPart := by
  intro a p d v n s hf
  refine ⟨congrArg _ (transfer_of_fail hf), ?_, fun hp hlen hmode hwf => ?_⟩
  · have hexec : exec (.frameWrsr v) s = .next _ := congrArg Host.Outcome.next (transfer_of_fail hf)
    rcases chipCutWrsr_cases v (receivedOf 2 n) s.chip with hcut | hcut <;> rw [hcut] at hexec
    · exact .inl hexec
    · exact .inr hexec
  · have hne : p ≠ [] := List.ne_nil_of_length_pos hp
    have hc : s.fates.head.byChip = true → chipSequential s.cfg s.chip = true := fun hby => by
      rw [hf] at hby
      exact chipSequential_iff.2 (hmode.resolve_right (bne_iff_ne.1 hby))
    have hread := execFrameRead_eq_transfer (a := a) hne hc
    have hwrite := execFrameWrite_eq_transfer (a := a) hne hc
    rw [transfer_of_fail hf] at hread hwrite
    obtain ⟨hwf', hstored, hkept⟩ := chipCutWrite_stores a n s.draws hlen hwf
    rw [List.length_take_of_le (min_le_right ..)] at hstored hkept
    exact ⟨hread, _, _, _, _, rfl, hwrite, hwf',
      fun j hj => (hstored j hj).trans (List.getElem?_take_of_lt hj), hkept⟩

/-! #### What has no meaning (R93) -/

theorem decodeFrame_error {out : List Byte} {e : DecodeError} (h : decodeFrame out = .error e) : e = .notAFrame := by
  cases out with
  | nil => cases h; rfl
  | cons op rest =>
    simp only [decodeFrame] at h
    split at h <;> cases h
    rfl

/-- An edge with `rst` low on which a byte sequence in flight does not decode. -/
theorem step_of_sent_not_a_frame {s : State} {out : List Byte} (hl : s.cfg.legal = true) (hr : s.rst.head = false)
    (hst : s.st = .waiting) (hx : s.xfer = .sent out) (hd : decodeFrame out = .error .notAFrame) :
    step s = .refused .notAFrame := by
  simp [step, nextAction_fetch hl hr, fetch, hst, hx, hd, runDecoded, refusalOf]

/-- Settles O33: the two checks on a data frame in their order, and the decoder's only error. -/
theorem chipRefusesWhatHasNoMeaning : Obligations.ChipRefusesWhatHasNoMeaning := by
  intro a p s
  refine ⟨fun hp hmode hf => ?_, dataFrame_refused (a := a) (s := s) dataFrameRefusal_nil,
    fun out hl hr hst hx hnone => ?_⟩
  · have hby : s.fates.head.byChip = true := by
      rcases hf with hf | ⟨n, hf⟩ <;> rw [hf] <;> rfl
    exact dataFrame_refused
      (dataFrameRefusal_of_not_sequential (List.ne_nil_of_length_pos hp) hby (mt chipSequential_iff.1 hmode))
  · cases hd : decodeFrame out with
    | ok i => exact absurd hd (hnone i)
    | error e => exact step_of_sent_not_a_frame hl hr hst hx (by rw [hd, decodeFrame_error hd])

/-! #### What a frame leaves unchanged -/

/-- What the frame `i` leaves of the reference chip `k`, whole or cut short (R88 to R92). -/
def ChipFrame (i : Instr) (k k' : Chip) : Prop :=
  ((∀ v, i ≠ .frameWrsr v) → k'.sr = k.sr) ∧
  (∀ a p, i = .frameWrite a p → k.mem.wf = true →
    ∀ b, (∀ j, j < p.length → b ≠ chipLoc a j) → k'.mem.read b = k.mem.read b) ∧
  ((∀ a p, i ≠ .frameWrite a p) → k'.mem = k.mem)

theorem ChipFrame.of_mem_sr_eq {i : Instr} {k k' : Chip} (hm : k'.mem = k.mem) (hs : k'.sr = k.sr) :
    ChipFrame i k k' :=
  ⟨fun _ => hs, fun _ _ _ _ _ _ => by rw [hm], fun _ => hm⟩

theorem ChipFrame.wrsr {v : Byte} {k k' : Chip} (hm : k'.mem = k.mem) : ChipFrame (.frameWrsr v) k k' :=
  ⟨fun hne => absurd rfl (hne v), fun _ _ hi => Instr.noConfusion hi, fun _ => hm⟩

/-- A leading part of the payload is stored inside the addresses of the whole. -/
theorem ChipFrame.write {a : Half} {p : List Byte} {k k' : Chip} (n : Nat)
    (hm : k'.mem = k.mem.writeBytes (chipLoc a) 0 (p.take n)) (hs : k'.sr = k.sr) :
    ChipFrame (.frameWrite a p) k k' := by
  refine ⟨fun _ => hs, fun a' p' hi hwf b hb => ?_, fun hne => absurd rfl (hne a p)⟩
  cases hi
  rw [hm]
  exact chip_writeBytes_read_of_outside a _ hwf fun j hj => hb j (hj.trans_le (List.length_take_le' ..))

theorem frame_of_not_isOperation {i : Instr} (h : ∀ op r, ¬ IsOperation i op r) :
    (∃ a p, i = .frameRead a p ∨ i = .frameWrite a p) ∨ (∃ d, i = .frameRdsr d) ∨ ∃ v, i = .frameWrsr v := by
  cases i with
  | frameRead a p => exact .inl ⟨a, p, .inl rfl⟩
  | frameWrite a p => exact .inl ⟨a, p, .inr rfl⟩
  | frameRdsr d => exact .inr (.inl ⟨d, rfl⟩)
  | frameWrsr v => exact .inr (.inr ⟨v, rfl⟩)
  | _ r => simp [IsOperation] at h

/-- Every frame that is not refused is one `transfer`, and each chip it can leave has the frame's own frame. -/
theorem frame_transfer {i : Instr} {s t : State} (hi : ∀ op r, ¬ IsOperation i op r) (he : exec i s = .next t) :
    ∃ len inb drawn after cut cutDrawn, t = transfer len inb drawn after cut cutDrawn s ∧
      ChipFrame i s.chip after ∧ ∀ got, ChipFrame i s.chip (cut got) := by
  rcases frame_of_not_isOperation hi with ⟨a, p, rfl | rfl⟩ | ⟨d, rfl⟩ | ⟨v, rfl⟩
  · obtain ⟨-, -, rfl⟩ := execFrameRead_next he
    exact ⟨_, _, _, _, _, _, rfl, .of_mem_sr_eq rfl rfl, fun _ => .of_mem_sr_eq rfl rfl⟩
  · obtain ⟨-, -, rfl⟩ := execFrameWrite_next he
    exact ⟨_, _, _, _, _, _, rfl, .write p.length (by rw [List.take_length]; rfl) rfl,
      fun got => .write (got - 3) rfl rfl⟩
  · cases he
    exact ⟨_, _, _, _, _, _, rfl, .of_mem_sr_eq rfl rfl, fun _ => .of_mem_sr_eq rfl rfl⟩
  · cases he
    exact ⟨_, _, _, _, _, _, rfl, .wrsr rfl, fun got => .wrsr (chipCutWrsr_mem v got s.chip)⟩

/-- Settles O43: a frame is one `transfer`, which writes the Transport's input, XFER and the chip only. -/
theorem framesLeaveTheRestAlone : Obligations.FramesLeaveTheRestAlone := by
  intro i s t hi he
  obtain ⟨len, inb, drawn, after, cut, cutDrawn, ht, hafter, hcut⟩ := frame_transfer hi he
  have hframe : TransportFrame s t := ht ▸ transfer_frame
  have hreply : ∀ a did, s.fates.head = .reply a did → t.chip = s.chip.change did := fun a did hf => by
    rw [ht, transfer_of_reply hf]
    rfl
  have hchip : s.fates.head.isReply = false → ChipFrame i s.chip t.chip := fun hf =>
    ht ▸ transfer_chip (ChipFrame i s.chip) (.of_mem_sr_eq rfl rfl) hafter hcut fun a did hr => by
      rw [hr] at hf
      cases hf
  refine ⟨?_, ?_, ?_, ?_, ?_, ?_, ?_, ?_, ?_, ?_, ?_, ?_, ?_, ?_, ?_, ?_, ?_, ?_, ?_, ?_, ?_, ?_, hreply, hchip⟩ <;>
    rw [hframe]

end Sys2Proof.Machine

/-! ### The encodings (30_encoding.md, 40_codec.md): the decoder and the encoder undo each other -/

namespace Sys2Proof.Machine

/-! #### The bits of a request word (30_encoding.md R101) -/

/-- The field right above the low one. -/
theorem bitField_add_self (x y k width : Nat) (h : y < 2 ^ k) :
    bitField (x * 2 ^ k + y) k width = bitField x 0 width := bitField_add x y k 0 width h

theorem bitField_of_lt {v width : Nat} (h : v < 2 ^ width) : bitField v 0 width = v := by
  rw [bitField, pow_zero, Nat.div_one, Nat.mod_eq_of_lt h]

/-- A field and the one below it are one field. -/
theorem bitField_join (v lo k width : Nat) :
    bitField v (lo + k) width * 2 ^ k + bitField v lo k = bitField v lo (width + k) := by
  unfold bitField
  rw [pow_add, ← Nat.div_div_eq_div_mul, Nat.add_comm width, pow_add, Nat.mod_mul]
  ring

/-- A field below `2 ^ k` under one of `j` bits takes `j + k` bits. -/
theorem mul_two_pow_add_lt {x y j k : Nat} (hx : x < 2 ^ j) (hy : y < 2 ^ k) : x * 2 ^ k + y < 2 ^ (j + k) := by
  rw [pow_add]
  nlinarith

/-- A field taken as a word of any width is the bits of the word it lies in. -/
theorem ofNat_bitField {n : Nat} (w : BitVec n) (lo width m : Nat) :
    BitVec.ofNat m (bitField w.toNat lo width) = (w.extractLsb' lo width).setWidth m := by
  apply BitVec.eq_of_toNat_eq
  rw [BitVec.toNat_ofNat, BitVec.toNat_setWidth, BitVec.extractLsb'_toNat, Nat.shiftRight_eq_div_pow, bitField]

theorem toNat_ofNat_bitField {v lo width m : Nat} (h : width ≤ m) :
    (BitVec.ofNat m (bitField v lo width)).toNat = bitField v lo width := by
  rw [BitVec.toNat_ofNat, Nat.mod_eq_of_lt ((bitField_lt ..).trans_le (Nat.pow_le_pow_right Nat.two_pos h))]

/-- Settles O5: each field is one `bitField`, which is `extractLsb'` of the word. -/
theorem requestFieldsLieWhereTheLayoutSays : Obligations.RequestFieldsLieWhereTheLayoutSays := by
  intro c w _
  exact ⟨(ofNat_bitField ..).trans (BitVec.setWidth_eq _), (ofNat_bitField ..).trans (BitVec.setWidth_eq _),
    ofNat_bitField .., ofNat_bitField ..⟩

theorem decodeRequest_of_lt {c : Config} {w : ReqWord} (hw : w.toNat < 2 ^ reqBits c) :
    decodeRequest c w = decodeFields (requestOp c w) (requestFields c w) := if_pos hw

theorem ReqFields.fit_iff {c : Config} {r : ReqFields} :
    r.fit c = true ↔ r.len.toNat < 2 ^ c.lenW ∧ r.addr.toNat < 2 ^ c.addrW := by
  rw [ReqFields.fit, Bool.and_eq_true, decide_eq_true_eq, decide_eq_true_eq]

section Packed

variable {c : Config} {r : ReqFields} (hl : c.legal = true) (op : BitVec 3) (hf : r.fit c = true)
include hl hf

/-- The four fields laid one above the other fit the container of 75 bits (assumption log 18). -/
theorem packRequest_toNat : (packRequest c op r).toNat =
    ((op.toNat * 2 ^ 8 + r.data.toNat) * 2 ^ c.lenW + r.len.toNat) * 2 ^ c.addrW + r.addr.toNat := by
  obtain ⟨-, -, -, -, haw, -, hlw⟩ := Config.legal_bounds hl
  obtain ⟨hlen, haddr⟩ := ReqFields.fit_iff.1 hf
  have hlt := mul_two_pow_add_lt (mul_two_pow_add_lt (mul_two_pow_add_lt op.isLt r.data.isLt) hlen) haddr
  rw [packRequest, BitVec.toNat_ofNat,
    Nat.mod_eq_of_lt (hlt.trans_le (Nat.pow_le_pow_right Nat.two_pos (by omega)))]

theorem requestOp_packRequest : requestOp c (packRequest c op r) = op := by
  obtain ⟨hlen, haddr⟩ := ReqFields.fit_iff.1 hf
  rw [requestOp, packRequest_toNat hl op hf, Nat.add_assoc, bitField_add _ _ _ _ _ haddr,
    bitField_add _ _ _ _ _ hlen, bitField_add_self _ _ _ _ r.data.isLt, bitField_of_lt op.isLt,
    BitVec.ofNat_toNat, BitVec.setWidth_eq]

theorem requestFields_packRequest : requestFields c (packRequest c op r) = r := by
  obtain ⟨hlen, haddr⟩ := ReqFields.fit_iff.1 hf
  simp only [requestFields, packRequest_toNat hl op hf, bitField_add _ _ _ _ _ haddr,
    bitField_add_self _ _ _ _ haddr, bitField_add_self _ _ _ _ hlen, bitField_zero_add haddr,
    bitField_zero_add hlen, bitField_zero_add r.data.isLt, BitVec.ofNat_toNat, BitVec.setWidth_eq]

theorem decodeRequest_packRequest : decodeRequest c (packRequest c op r) = decodeFields op r := by
  rw [decodeRequest_of_lt (Laws.packRequest_lt hl op hf), requestOp_packRequest hl op hf,
    requestFields_packRequest hl op hf]

end Packed

/-- Packing the fields of a word gives the word back: they join to all of its bits. -/
theorem packRequest_requestFields {c : Config} (hl : c.legal = true) {w : ReqWord} (hw : w.toNat < 2 ^ reqBits c) :
    packRequest c (requestOp c w) (requestFields c w) = w := by
  obtain ⟨-, -, -, -, haw, -, hlw⟩ := Config.legal_bounds hl
  apply BitVec.eq_of_toNat_eq
  rw [packRequest_toNat hl _ (requestFields_fit c hlw haw w)]
  simp only [requestOp, requestFields, toNat_ofNat_bitField le_rfl, toNat_ofNat_bitField hlw,
    toNat_ofNat_bitField haw]
  have haddr := bitField_join w.toNat 0 c.addrW (3 + 8 + c.lenW)
  rw [Nat.zero_add] at haddr
  rw [bitField_join, bitField_join, haddr]
  exact bitField_of_lt hw

/-! #### Requests (R102) -/

/-- An operation is encoded as its code and its fields (R102). -/
theorem IsOperation.encode_eq {i : Instr} {op : BitVec 3} {r : ReqFields} (h : IsOperation i op r) (c : Config) :
    encode c i = .request (packRequest c op r) := by
  rcases h with ⟨rfl, rfl⟩ | ⟨rfl, rfl⟩ | ⟨rfl, rfl⟩ | ⟨rfl, rfl⟩ | ⟨rfl, rfl⟩ | ⟨rfl, rfl⟩ <;> rfl

/-- An operation is well formed if its fields fit and, for SETMODE, its operand names a mode (R101, R119). -/
theorem IsOperation.wellFormed_iff {i : Instr} {op : BitVec 3} {r : ReqFields} (h : IsOperation i op r) (c : Config) :
    i.wellFormed c = true ↔ r.fit c = true ∧ (op = 0b101#3 → r.data.setWidth 2 ≠ 0b11#2) := by
  rcases h with ⟨rfl, rfl⟩ | ⟨rfl, rfl⟩ | ⟨rfl, rfl⟩ | ⟨rfl, rfl⟩ | ⟨rfl, rfl⟩ | ⟨rfl, rfl⟩ <;>
    simp [Instr.wellFormed, modeReserved]

theorem decode_encode_of_isOperation {c : Config} {i : Instr} {op : BitVec 3} {r : ReqFields} (h : IsOperation i op r)
    (hl : c.legal = true) (hw : i.wellFormed c = true) : decode c (encode c i) = .ok i := by
  obtain ⟨hfit, hmode⟩ := (h.wellFormed_iff c).1 hw
  rw [h.encode_eq]
  exact (decodeRequest_packRequest hl op hfit).trans (decodeFields_of_isOperation h hmode)

theorem encode_of_decodeRequest {c : Config} {w : ReqWord} {i : Instr} (hl : c.legal = true)
    (h : decodeRequest c w = .ok i) : encode c i = .request w := by
  obtain ⟨hlt, hd⟩ := decodeRequest_ok h
  rw [(decodeFields_isOperation hd).encode_eq, packRequest_requestFields hl hlt]

theorem wellFormed_of_decodeRequest {c : Config} {w : ReqWord} {i : Instr} (hl : c.legal = true)
    (h : decodeRequest c w = .ok i) : i.wellFormed c = true := by
  obtain ⟨-, -, -, -, haw, -, hlw⟩ := Config.legal_bounds hl
  obtain ⟨-, hd⟩ := decodeRequest_ok h
  exact ((decodeFields_isOperation hd).wellFormed_iff c).2
    ⟨requestFields_fit c hlw haw w, decodeFields_mode_ne_reserved hd⟩

/-! #### Frames (40_codec.md R131, R132, R139) -/

theorem commandOf_eq_some {b : Byte} {cmd : Command} (h : commandOf b = some cmd) : b = cmd.opcode := by
  unfold commandOf at h
  split_ifs at h <;> cases h <;> assumption

theorem encodeHeader_append (cmd : Command) (ah al : Byte) : encodeHeader cmd (ah ++ al) = [cmd.opcode, ah, al] := by
  rw [encodeHeader, BitVec.extractLsb'_append_eq_left, BitVec.extractLsb'_append_eq_right]

theorem decodeFrame_readHeader (a : Half) {p : List Byte} (hp : p ≠ []) :
    decodeFrame (encodeHeader .read a ++ p) = .ok (.frameRead a p) := by
  obtain ⟨d, ds, rfl⟩ := List.exists_cons_of_ne_nil hp
  simp [encodeHeader, decodeFrame, Command.opcode, header_address]

/-- What a frame decodes to is encoded as that frame: the command is the first byte's, and the address the two that
follow it. -/
theorem encode_of_decodeFrame {out : List Byte} {i : Instr} (c : Config) (h : decodeFrame out = .ok i) :
    encode c i = .frame out := by
  cases out with
  | nil => cases h
  | cons op rest =>
    simp only [decodeFrame] at h
    split at h
    · next hop => cases h; rw [commandOf_eq_some hop, encode, encodeHeader_append]; rfl
    · next hop => cases h; rw [commandOf_eq_some hop, encode, encodeHeader_append]; rfl
    · next hop => cases h; rw [commandOf_eq_some hop]; rfl
    · next hop => cases h; rw [commandOf_eq_some hop]; rfl
    · cases h

/-- A data frame is well formed if it has a payload no longer than a chunk (R111, R112, R120). -/
theorem wellFormed_dataFrame_iff {c : Config} {a : Half} {p : List Byte} {i : Instr}
    (hi : i = .frameRead a p ∨ i = .frameWrite a p) : i.wellFormed c = true ↔ p ≠ [] ∧ p.length ≤ c.maxChunk := by
  rcases hi with rfl | rfl <;> simp [Instr.wellFormed, Nat.one_le_iff_ne_zero]

theorem decode_encode_of_not_isOperation {c : Config} {i : Instr} (hi : ∀ op r, ¬ IsOperation i op r)
    (hw : i.wellFormed c = true) : decode c (encode c i) = .ok i := by
  rcases frame_of_not_isOperation hi with ⟨a, p, rfl | rfl⟩ | ⟨d, rfl⟩ | ⟨v, rfl⟩
  · exact decodeFrame_readHeader a ((wellFormed_dataFrame_iff (.inl rfl)).1 hw).1
  · exact decodeFrame_writeFrame a ((wellFormed_dataFrame_iff (.inr rfl)).1 hw).1
  · rfl
  · rfl

theorem wellFormed_of_decodeFrame {c : Config} {out : List Byte} {i : Instr} (hlen : out.length ≤ 3 + c.maxChunk)
    (h : decodeFrame out = .ok i) : i.wellFormed c = true := by
  rcases decodeFrame_ok h with ⟨a, p, hp, hl, hi⟩ | ⟨-, ⟨d, rfl⟩ | ⟨v, rfl⟩⟩
  · exact (wellFormed_dataFrame_iff hi).2 ⟨hp, by omega⟩
  · rfl
  · rfl

/-! #### Both formats -/

/-- Settles O1: an instruction is an operation, whose fields are read back from the packed word, or a frame. -/
theorem encodeThenDecodeIsIdentity : Obligations.EncodeThenDecodeIsIdentity := by
  intro c i hl hw
  by_cases hi : ∃ op r, IsOperation i op r
  · obtain ⟨op, r, hop⟩ := hi
    exact decode_encode_of_isOperation hop hl hw
  · push Not at hi
    exact decode_encode_of_not_isOperation hi hw

/-- Settles O2: the fields of a word pack to the word, and the bytes of a frame are its header and its payload. -/
theorem decodeThenEncodeIsIdentity : Obligations.DecodeThenEncodeIsIdentity := by
  intro c k i hl h
  cases k with
  | request w => exact encode_of_decodeRequest hl h
  | frame out => exact encode_of_decodeFrame c h

/-- Settles O3: what is decoded fits the widths it was cut from, and the decoder checks the rest. -/
theorem decodedInstructionIsWellFormed : Obligations.DecodedInstructionIsWellFormed :=
  fun _ hl => ⟨fun _ _ h => wellFormed_of_decodeRequest hl h, fun _ _ hlen h => wellFormed_of_decodeFrame hlen h⟩

/-! #### The MODE field (30_encoding.md R116) -/

/-- `MODE_MASK` is the two bits from `MODE_SHIFT` up. -/
theorem getLsbD_modeMask (c : Config) {j : Nat} (hj : j < 8) :
    (modeMask c).getLsbD j = decide (c.modeShift ≤ j ∧ j < c.modeShift + 2) := by
  have hfield : ∀ k, k < 8 → (0b11#8).getLsbD k = decide (k < 2) := by decide
  rw [modeMask, BitVec.getLsbD_shiftLeft, hfield _ (by omega)]
  by_cases h : c.modeShift ≤ j
  · simp [h, hj, Nat.not_lt.2 h, Nat.sub_lt_iff_lt_add' h]
  · simp [h, Nat.lt_of_not_le h]

/-- `with_mode` takes the bits of the field from the mode and all others from the byte. -/
theorem getLsbD_withMode (c : Config) (s : Byte) (m : BitVec 2) {j : Nat} (hj : j < 8) :
    (withMode c s m).getLsbD j = bif (modeMask c).getLsbD j then m.getLsbD (j - c.modeShift) else s.getLsbD j := by
  rw [withMode, BitVec.getLsbD_or, BitVec.getLsbD_and, BitVec.getLsbD_not, BitVec.getLsbD_shiftLeft,
    BitVec.getLsbD_setWidth, getLsbD_modeMask c hj]
  by_cases h : c.modeShift ≤ j ∧ j < c.modeShift + 2
  · have hk : j - c.modeShift < 8 := by omega
    simp [h, hj, hk]
  · have hout : j < c.modeShift ∨ 2 ≤ j - c.modeShift := by omega
    rcases hout with hlow | hhigh
    · simp [h, hj, hlow]
    · simp [h, hj, BitVec.getLsbD_of_ge m _ hhigh]

/-- `mode_of` reads the two bits from `MODE_SHIFT` up. -/
theorem modeOf_eq_extractLsb' {c : Config} (h : c.modeShift ≤ 6) (s : Byte) :
    modeOf c s = s.extractLsb' c.modeShift 2 := by
  refine BitVec.eq_of_getLsbD_eq fun j hj => ?_
  have hmask : (modeMask c).getLsbD (c.modeShift + j) = true := by
    rw [getLsbD_modeMask c (by omega)]
    exact decide_eq_true (by omega)
  rw [modeOf, BitVec.getLsbD_setWidth, BitVec.getLsbD_ushiftRight, BitVec.getLsbD_and, hmask,
    BitVec.getLsbD_extractLsb', Bool.and_true]

/-- At the default layout the field is the two bits at the top (00_scope.md R12). -/
theorem withMode_default (s : Byte) (m : BitVec 2) : withMode Config.default s m = m ++ s.extractLsb' 0 6 := by
  refine BitVec.eq_of_getLsbD_eq fun j hj => ?_
  rw [getLsbD_withMode _ _ _ hj, getLsbD_modeMask _ hj, BitVec.getLsbD_append, BitVec.getLsbD_extractLsb']
  by_cases h : j < 6
  · simp [h, Nat.not_le.2 h, Config.default]
  · simp [h, hj, Nat.not_lt.1 h, Config.default]

theorem withMode_other_bits (c : Config) (s : Byte) (m : BitVec 2) :
    withMode c s m &&& ~~~(modeMask c) = s &&& ~~~(modeMask c) := by
  refine BitVec.eq_of_getLsbD_eq fun j hj => ?_
  rw [BitVec.getLsbD_and, BitVec.getLsbD_and, getLsbD_withMode c s m hj]
  cases h : (modeMask c).getLsbD j <;> simp [h]

/-- Settles O9: the formulas are the definitions; what is read back and what stays follow bit by bit. -/
theorem modeFieldIsReplacedAlone : Obligations.ModeFieldIsReplacedAlone := by
  intro c s m hl
  obtain ⟨-, -, hshift, -⟩ := Config.legal_bounds hl
  exact ⟨rfl, rfl, modeOf_withMode hshift s m, withMode_other_bits c s m,
    modeOf_eq_extractLsb' le_rfl s, withMode_default s m⟩

/-! #### Reserved requests (30_encoding.md R118, R119) -/

theorem decodeFields_reservedOperation {op : BitVec 3} (r : ReqFields) (h : op = 0b110#3 ∨ op = 0b111#3) :
    decodeFields op r = .error .reservedOperation := by
  rcases h with rfl | rfl <;> rfl

theorem decodeFields_reservedMode {r : ReqFields} (h : r.data.setWidth 2 = 0b11#2) :
    decodeFields 0b101#3 r = .error .reservedMode := by
  simp [decodeFields, modeReserved, h]

/-- An edge with `rst` low on which an offered request does not decode. -/
theorem step_of_offer_error {s : State} {q : Request} {e : DecodeError} (hl : s.cfg.legal = true)
    (hr : s.rst.head = false) (hst : s.st = .idle) (hq : s.requests.head = some q)
    (hd : decodeRequest s.cfg q.word = .error e) : step s = .refused (refusalOf e) := by
  simp [step, nextAction_fetch hl hr, fetch, hst, hq, hd, runDecoded]

/-- Settles O35: the decoder rejects the reserved codes by name, and the step refuses what it rejects. -/
theorem reservedRequestsAreRefused : Obligations.ReservedRequestsAreRefused := by
  intro s q hl hr hst hq hlt
  have hdecode := decodeRequest_of_lt hlt
  refine ⟨fun hop => ?_, fun hop hmode => ?_⟩
  · exact step_of_offer_error hl hr hst hq (hdecode.trans (decodeFields_reservedOperation _ hop))
  · rw [hop] at hdecode
    exact step_of_offer_error hl hr hst hq (hdecode.trans (decodeFields_reservedMode hmode))

end Sys2Proof.Machine

/-! ### The codec (40_codec.md): the frames it builds and reads, and the data frames that are ever in flight -/

namespace Sys2Proof.Machine

/-! #### Frames byte by byte (R131 to R136, R139) -/

/-- Settles O7: a frame is the encoding of what it decodes to, and the decoder has only one error. -/
theorem frameDecodingIsExact : Obligations.FrameDecodingIsExact := by
  refine fun out => ⟨fun i => ⟨fun hd => ?_, ?_⟩, fun hnone => ?_⟩
  · have hcode : encode Config.default i = .frame out := encode_of_decodeFrame _ hd
    rcases decodeFrame_ok hd with ⟨a, p, hp, -, rfl | rfl⟩ | ⟨-, ⟨d, rfl⟩ | ⟨v, rfl⟩⟩ <;> cases hcode
    · exact .inl ⟨a, p, List.length_pos_iff.2 hp, rfl, rfl⟩
    · exact .inr (.inl ⟨a, p, List.length_pos_iff.2 hp, rfl, rfl⟩)
    · exact .inr (.inr (.inl ⟨d, rfl, rfl⟩))
    · exact .inr (.inr (.inr ⟨v, rfl, rfl⟩))
  · rintro (⟨a, p, hp, rfl, rfl⟩ | ⟨a, p, hp, rfl, rfl⟩ | ⟨d, rfl, rfl⟩ | ⟨v, rfl, rfl⟩)
    · exact decodeFrame_readHeader a (List.length_pos_iff.1 hp)
    · exact decodeFrame_writeFrame a (List.length_pos_iff.1 hp)
    · rfl
    · rfl
  · cases hd : decodeFrame out with
    | ok i => exact absurd hd (hnone i)
    | error e => rw [decodeFrame_error hd]

theorem readData_length {inb : List Byte} {n : Nat} (h : inb.length = 3 + n) : (readData inb n).length = n := by
  rw [readData, List.length_take_of_le (by rw [List.length_drop]; omega)]

theorem readData_getElem? (inb : List Byte) {n j : Nat} (h : j < n) : (readData inb n)[j]? = inb[3 + j]? := by
  rw [readData, List.getElem?_take_of_lt h, List.getElem?_drop]

theorem getElem?_one_eq_rdsrData {inb : List Byte} (h : inb.length = 2) : inb[1]? = some (rdsrData inb) := by
  have hlt : 1 < inb.length := by omega
  rw [rdsrData, List.getD_eq_getElem _ _ hlt, List.getElem?_eq_getElem hlt]

/-- Settles O8: the builders are R133 to R136 as they stand; the extractors follow index by index. -/
theorem codecBuildsAndReadsFrames : Obligations.CodecBuildsAndReadsFrames :=
  fun _ _ _ _ _ inb => ⟨rfl, rfl, rfl, rfl, fun h => ⟨readData_length h, fun _ => readData_getElem? inb⟩,
    getElem?_one_eq_rdsrData⟩

/-! #### A data frame in flight (40_codec.md R138, 42_sequencer_data_ops.md R191) -/

section DataFrameInFlight

variable {s : State}

/-- A status operation has no data phase (43_status_ops.md R216). -/
theorem State.StatusPhase.phase_ne_data (h : s.StatusPhase) : s.phase ≠ .data := by
  have hphase := h.phase
  split at hphase
  · rw [hphase]; decide
  · exact hphase
  · rw [hphase]; decide

/-- Only the phase PH_DATA of a data operation issues a data frame, and then it is that of the current chunk
(42_sequencer_data_ops.md R175). -/
theorem State.Inv.dataFrame_eq {a : Half} {p : List Byte} {i : Instr} (h : s.Inv) (hst : s.st = .waiting)
    (hd : decodeFrame s.frameOut = .ok i) (hi : i = .frameRead a p ∨ i = .frameWrite a p) :
    s.isData ∧ s.phase = .data ∧ a = s.curAddr ∧ p.length = s.chunkLen := by
  have hphase : s.phase = .data := by
    cases hp : s.phase with
    | data => rfl
    | rdsr | wrsr => rw [State.frameOut, hp] at hd; cases hd; simp at hi
  have hdata : s.isData := by
    by_contra hnot
    exact (h.status (.inr hst) hnot).phase_ne_data hphase
  have hpos : 1 ≤ s.chunkLen :=
    State.chunkLen_pos (Config.legal_bounds h.legal).1 (h.progress (.inr hst) hdata).some_left
  refine ⟨hdata, hphase, ?_⟩
  rw [State.frameOut, hphase] at hd
  cases hop : s.opL == 0b000#3 with
  | true =>
    rw [hop] at hd
    cases (decodeFrame_readFrame s.cfg s.curAddr hpos).symm.trans hd
    obtain ⟨rfl, rfl⟩ : s.curAddr = a ∧ List.replicate s.chunkLen s.cfg.dummy = p := by simpa using hi
    exact ⟨rfl, List.length_replicate ..⟩
  | false =>
    rw [hop] at hd
    have hlen : s.chunkBytes.length = s.chunkLen := Memory.readBytes_length ..
    cases (decodeFrame_writeFrame s.curAddr (List.ne_nil_of_length_pos (hlen ▸ hpos))).symm.trans hd
    obtain ⟨rfl, rfl⟩ : s.curAddr = a ∧ s.chunkBytes = p := by simpa using hi
    exact ⟨rfl, hlen⟩

/-- The current chunk ends inside the chip (41_chunk_planner.md R158, R160). -/
theorem State.Progress.chunk_le_chipSize (h : s.Progress) : s.curAddr.toNat + s.chunkLen ≤ Config.chipSize := by
  obtain ⟨-, hplan⟩ := planCheck_chunks.1 h.planned
  have := s.chunkLen_le
  have := h.curAddr
  have := h.remaining
  omega

end DataFrameInFlight

/-- Settles O50: the frame in flight is that of the current chunk, which the plan keeps inside the chip. -/
theorem dataFramesStayInsideTheChip : Obligations.DataFramesStayInsideTheChip := by
  intro s out a p h hst hx hd
  obtain rfl := h.sent_eq_frameOut hst hx
  obtain ⟨hdata, hphase, rfl, hlen⟩ : s.isData ∧ s.phase = .data ∧ a = s.curAddr ∧ p.length = s.chunkLen :=
    hd.elim (h.dataFrame_eq hst · (.inl rfl)) (h.dataFrame_eq hst · (.inr rfl))
  have hprogress := h.progress (.inr hst) hdata
  have hpos : 1 ≤ s.chunkLen := State.chunkLen_pos (Config.legal_bounds h.legal).1 hprogress.some_left
  have hmax : s.chunkLen ≤ s.cfg.maxChunk := s.chunkLen_le_maxChunk
  have hend : s.curAddr.toNat + s.chunkLen ≤ 32768 := hprogress.chunk_le_chipSize
  have hframe : s.frameOut.length = 3 + s.chunkLen := by rw [s.frameOut_length, State.frameLen, hphase]
  have hbit : s.curAddr.getLsbD 15 = false := Nat.testBit_lt_two_pow (by omega)
  rw [hlen, hframe]
  exact ⟨hpos, hmax, hend, hbit, by omega, fun hc => chipSequential_iff.1 (hc.data (.inr hst) hdata hphase)⟩

end Sys2Proof.Machine

/-! ### The planner (41_chunk_planner.md): its closed form, the range it tiles, and the registers that consume it -/

namespace Sys2Proof.Machine

/-! #### The loop, chunk by chunk (R155) -/

/-- Chunk number `k` of `r` bytes from address `c` on (R156). -/
def planChunk (m c r k : Nat) : Nat × Nat := (c + k * m, min m (r - k * m))

theorem planLoop_succ {m c r : Nat} (fuel : Nat) (h : r ≠ 0) :
    planLoop m (fuel + 1) c r = (c, min r m) :: planLoop m fuel (c + min r m) (r - min r m) := if_neg h

theorem planLoop_zero_bytes (m fuel c : Nat) : planLoop m fuel c 0 = [] := by
  cases fuel <;> rfl

section Loop

variable {m fuel r : Nat}

/-- The chunks are those whose first byte lies in the range: `k * m < r` (R156). -/
theorem planLoop_getElem? (hm : 1 ≤ m) (hf : r ≤ fuel) (c k : Nat) :
    (planLoop m fuel c r)[k]? = if k * m < r then some (planChunk m c r k) else none := by
  induction fuel generalizing c r k with
  | zero =>
    obtain rfl : r = 0 := Nat.le_zero.1 hf
    simp [planLoop_zero_bytes]
  | succ fuel ih =>
    by_cases h0 : r = 0
    · simp [h0, planLoop_zero_bytes]
    rw [planLoop_succ fuel h0]
    cases k with
    | zero => simp [planChunk, Nat.pos_of_ne_zero h0, Nat.min_comm]
    | succ k =>
      have hmul : (k + 1) * m = k * m + m := Nat.succ_mul k m
      rw [List.getElem?_cons_succ, ih (by omega), planChunk, planChunk, hmul]
      rcases Nat.le_total r m with hle | hle
      · rw [if_neg (by omega), if_neg (by omega)]
      · rw [Nat.min_eq_right hle, Nat.sub_sub, Nat.add_assoc, Nat.add_comm m]
        exact if_congr (by omega) rfl rfl

theorem planLoop_getElem?_eq_some (hm : 1 ≤ m) (hf : r ≤ fuel) {c k : Nat} {p : Nat × Nat} :
    (planLoop m fuel c r)[k]? = some p ↔ k * m < r ∧ p = planChunk m c r k := by
  rw [planLoop_getElem? hm hf, Option.ite_none_right_eq_some, Option.some_inj, eq_comm (b := p)]

/-- There are `ceil(r / m)` chunks (R156). -/
theorem planLoop_eq_map_range (hm : 1 ≤ m) (hf : r ≤ fuel) (c : Nat) :
    planLoop m fuel c r = (List.range ((r + m - 1) / m)).map (planChunk m c r) := by
  refine List.ext_getElem? fun k => ?_
  have hk : k < (r + m - 1) / m ↔ k * m < r := by
    rw [← Nat.ceilDiv_eq_add_pred_div, ← not_le, ceilDiv_le_iff_le_mul hm, Nat.mul_comm, not_le]
  rw [planLoop_getElem? hm hf, List.getElem?_map]
  split
  next hlt => rw [List.getElem?_range (hk.2 hlt)]; rfl
  next hge => rw [List.getElem?_eq_none (by simpa using hk.not.2 hge)]; rfl

/-- More fuel than bytes makes no difference. -/
theorem planLoop_fuel (hm : 1 ≤ m) (hf : r ≤ fuel) (c : Nat) : planLoop m fuel c r = planLoop m r c r :=
  (planLoop_eq_map_range hm hf c).trans (planLoop_eq_map_range hm le_rfl c).symm

/-- The loop hands out every byte once (R157). -/
theorem planLoop_sum (hm : 1 ≤ m) (hf : r ≤ fuel) (c : Nat) : ((planLoop m fuel c r).map (·.2)).sum = r := by
  induction fuel generalizing c r with
  | zero => exact (Nat.le_zero.1 hf).symm
  | succ fuel ih =>
    by_cases h0 : r = 0
    · simp [h0, planLoop_zero_bytes]
    rw [planLoop_succ fuel h0, List.map_cons, List.sum_cons, ih (by omega)]
    exact Nat.add_sub_of_le (Nat.min_le_left r m)

/-- Every chunk has a byte, at most `m`, and lies in the range (R157, R158). -/
theorem planLoop_bounds (hm : 1 ≤ m) (hf : r ≤ fuel) {c : Nat} {p : Nat × Nat} (hp : p ∈ planLoop m fuel c r) :
    1 ≤ p.2 ∧ p.2 ≤ m ∧ p.1 + p.2 ≤ c + r := by
  obtain ⟨k, hk⟩ := List.mem_iff_getElem?.1 hp
  obtain ⟨hlt, rfl⟩ := (planLoop_getElem?_eq_some hm hf).1 hk
  simp only [planChunk]
  omega

theorem planLoop_head? (hm : 1 ≤ m) (hf : r ≤ fuel) {c : Nat} {p : Nat × Nat}
    (hp : (planLoop m fuel c r).head? = some p) : p.1 = c := by
  rw [List.head?_eq_getElem?] at hp
  obtain ⟨-, rfl⟩ := (planLoop_getElem?_eq_some hm hf).1 hp
  simp [planChunk]

/-- The last chunk is the one after which no other starts in the range, so it ends where the range does (R157). -/
theorem planLoop_getLast? (hm : 1 ≤ m) (hf : r ≤ fuel) {c : Nat} {p : Nat × Nat}
    (hp : (planLoop m fuel c r).getLast? = some p) : p.1 + p.2 = c + r := by
  rw [List.getLast?_eq_getElem?] at hp
  obtain ⟨hlt, rfl⟩ := (planLoop_getElem?_eq_some hm hf).1 hp
  have hnext := planLoop_getElem? hm hf c ((planLoop m fuel c r).length - 1 + 1)
  rw [List.getElem?_eq_none (by omega), Nat.succ_mul] at hnext
  have hend := (ite_eq_right_iff.1 hnext.symm).mt (by simp)
  simp only [planChunk]
  omega

/-- A chunk ends where the next one starts (R157). -/
theorem planLoop_contiguous (hm : 1 ≤ m) (hf : r ≤ fuel) {c k : Nat} {p p' : Nat × Nat}
    (hp : (planLoop m fuel c r)[k]? = some p) (hp' : (planLoop m fuel c r)[k + 1]? = some p') :
    p'.1 = p.1 + p.2 := by
  obtain ⟨-, rfl⟩ := (planLoop_getElem?_eq_some hm hf).1 hp
  obtain ⟨hlt, rfl⟩ := (planLoop_getElem?_eq_some hm hf).1 hp'
  rw [Nat.succ_mul] at hlt
  simp only [planChunk, Nat.succ_mul]
  omega

/-- Of two chunks the earlier one ends at or before the start of the later one (R158). -/
theorem planLoop_disjoint (hm : 1 ≤ m) (hf : r ≤ fuel) {c j k : Nat} {p p' : Nat × Nat} (hjk : j < k)
    (hp : (planLoop m fuel c r)[j]? = some p) (hp' : (planLoop m fuel c r)[k]? = some p') : p.1 + p.2 ≤ p'.1 := by
  obtain ⟨-, rfl⟩ := (planLoop_getElem?_eq_some hm hf).1 hp
  obtain ⟨-, rfl⟩ := (planLoop_getElem?_eq_some hm hf).1 hp'
  have hstart : (j + 1) * m ≤ k * m := Nat.mul_le_mul_right m hjk
  rw [Nat.succ_mul] at hstart
  simp only [planChunk]
  omega

end Loop

/-! #### PLAN (R150 to R158) -/

/-- The three checks, and the loop where they pass (R152 to R155). -/
theorem plan_eq (cmd : Command) (a n m : Nat) :
    plan cmd a n m =
      if 65536 ≤ n then .error .invalidLength
      else if n = 0 then .ok []
      else if Config.chipSize < a + n then .error .addressRange
      else .ok (planLoop m n a n) := by
  unfold plan planCheck
  split_ifs <;> rfl

theorem plan_of_chunks {a n : Nat} (h : planCheck a n = .chunks) (cmd : Command) (m : Nat) :
    plan cmd a n m = .ok (planLoop m n a n) := by
  rw [plan, h]

/-- A successful plan is the loop's, empty or inside the chip. -/
theorem plan_ok {cmd : Command} {a n m : Nat} {cs : List (Nat × Nat)} (h : plan cmd a n m = .ok cs) :
    cs = planLoop m n a n ∧ (n = 0 ∨ a + n ≤ Config.chipSize) := by
  rw [plan_eq] at h
  split_ifs at h with hlen h0 hrange <;> cases h
  · subst h0; exact ⟨rfl, .inl rfl⟩
  · exact ⟨rfl, .inr (not_lt.1 hrange)⟩

/-- A plan that passes starts with its first chunk, and goes on with the loop over what that leaves (R155, R161). -/
theorem plan_eq_cons {a n m : Nat} (hm : 1 ≤ m) (h : planCheck a n = .chunks) (cmd : Command) :
    plan cmd a n m = .ok ((a, min n m) :: planLoop m (n - min n m) (a + min n m) (n - min n m)) := by
  obtain ⟨hpos, -⟩ := planCheck_chunks.1 h
  obtain ⟨fuel, rfl⟩ := Nat.exists_eq_add_of_le' hpos
  rw [plan_of_chunks h, planLoop_succ fuel (Nat.succ_ne_zero fuel), planLoop_fuel hm (by omega)]

/-- Settles O10: the checks are PLAN's own, and the loop's chunks are those that start in the range. -/
theorem planIsTheClosedForm : Obligations.PlanIsTheClosedForm := by
  intro cmd a n m hm
  rw [plan_eq, planLoop_eq_map_range hm le_rfl]
  rfl

/-- Settles O11: a successful plan is the loop's, whose chunks are known by their numbers. -/
theorem planChunksTileTheRange : Obligations.PlanChunksTileTheRange := by
  intro cmd a n m cs hm hplan
  obtain ⟨rfl, hrange⟩ := plan_ok hplan
  refine ⟨planLoop_sum hm le_rfl a, fun p hp => ?_, fun p => planLoop_head? hm le_rfl,
    fun p => planLoop_getLast? hm le_rfl, fun k p p' => planLoop_contiguous hm le_rfl,
    fun j k p p' => planLoop_disjoint hm le_rfl⟩
  obtain ⟨hpos, hmax, hend⟩ := planLoop_bounds hm le_rfl hp
  rcases hrange with rfl | hchip
  · rw [planLoop_zero_bytes] at hp; cases hp
  · exact ⟨hpos, hmax, hend.trans hchip⟩

/-! #### The registers consume the plan (R161) -/

/-- Between its chunks an Operation has a range left that passes the plan's checks (R160, R161). -/
theorem State.Progress.planCheck_left {s : State} (h : s.Progress) :
    planCheck s.curAddr.toNat s.remaining.toNat = .chunks := by
  obtain ⟨-, hend⟩ := planCheck_chunks.1 h.planned
  have hcur := h.curAddr
  have hrem := h.remaining
  exact planCheck_chunks.2 ⟨h.some_left, by omega⟩

/-- The end of a chunk takes the head off the plan (R155, R161, 42_sequencer_data_ops.md R180). -/
theorem chunkDone_consumes_plan {s : State} (hm : 1 ≤ s.cfg.maxChunk) (h : s.Progress) (cmd : Command) :
    ∃ rest, plan cmd s.curAddr.toNat s.remaining.toNat s.cfg.maxChunk = .ok ((s.curAddr.toNat, s.chunkLen) :: rest) ∧
      (((chunkDone s).st = .complete ∧ rest = []) ∨
       ((chunkDone s).st = .issuing ∧ (chunkDone s).phase = .rdsr ∧
         plan cmd (chunkDone s).curAddr.toNat (chunkDone s).remaining.toNat (chunkDone s).cfg.maxChunk = .ok rest)) := by
  obtain ⟨hcur, hrem, -⟩ := advance_toNat h
  refine ⟨_, plan_eq_cons hm h.planCheck_left cmd, ?_⟩
  change _ ∧ planLoop _ (s.remaining.toNat - s.chunkLen) (s.curAddr.toNat + s.chunkLen) _ = [] ∨ _
  rcases chunkDone_cases s with ⟨h0, ht⟩ | ⟨hne, ht⟩ <;> rw [ht]
  · have hleft : s.remaining.toNat - s.chunkLen = 0 := hrem.symm.trans (congrArg BitVec.toNat h0)
    exact .inl ⟨rfl, by rw [hleft]; rfl⟩
  · refine .inr ⟨rfl, rfl, (plan_of_chunks (h.advance hne).planCheck_left cmd _).trans ?_⟩
    rw [hcur, hrem]
    rfl

/-- T_OK of the data frame is the rule of the data operation's own (42_sequencer_data_ops.md R176, R180). -/
theorem operation_dataFrame_ok {op : BitVec 3} {admission : ReqFields → State → Option Refusal}
    {planned : State → State} {issue : State → Result} {chunk : List Byte → State → Result} {data : State → Byte}
    {r : ReqFields} {s t : State} {inb : List Byte} (hst : s.st = .waiting) (hphase : s.phase = .data)
    (hx : s.xfer = .answered (.ok inb))
    (he : operation op admission planned issue (okData chunk) data r s = .next t) :
    chunk inb s.endTransfer = .next t := by
  rw [operation_of_waiting hst] at he
  rcases tAnswer_next he with ⟨inb', hx', -, hok⟩ | ⟨hx', -⟩ | ⟨hx', -⟩
  · cases hx.symm.trans hx'
    rcases okData_next hok with ⟨hp, -⟩ | ⟨hp, -⟩ | ⟨-, hchunk⟩
    · cases hphase.symm.trans hp
    · cases hphase.symm.trans hp
    · exact hchunk
  · cases hx.symm.trans hx'
  · exact absurd hx (hx' _)

/-- Settles O12: T_OK of a data frame ends the chunk, after a READ has stored its bytes. -/
theorem sequencerConsumesThePlan : Obligations.SequencerConsumesThePlan := by
  rintro i r s t cmd inb hi hl hp hst hphase hx he
  have hm := (Config.legal_bounds hl).1
  rcases hi with rfl | rfl <;> have hok := operation_dataFrame_ok hst hphase hx he
  · obtain ⟨-, rfl⟩ := okReadChunk_next hok
    exact chunkDone_consumes_plan (s := s.endTransfer.storeChunk inb) hm (hp.of_eq rfl rfl rfl rfl rfl rfl) cmd
  · cases hok
    exact chunkDone_consumes_plan (s := s.endTransfer) hm (hp.of_eq rfl rfl rfl rfl rfl rfl) cmd

/-! #### Plans without a chunk (R152 to R154, R162) -/

/-- The error kind that a verdict ends an Operation with (R152, R154); `ok` where it names none. -/
def Verdict.errKind : Verdict → ErrKind
  | .invalidLength => .invalidLength
  | .addressRange => .addressRange
  | .nothing | .chunks => .ok

/-- A plan without a chunk ends the Operation at T_PLAN, with nothing done and no bus asked for
(42_sequencer_data_ops.md R172, R182). -/
theorem tPlanData_of_no_chunks {s : State} {v : Verdict} (hv : planCheck s.addrL.toNat s.lenL.toNat = v)
    (hne : v ≠ .chunks) :
    ((tPlanData s).st = .complete ∨ (tPlanData s).st = .failed) ∧ (tPlanData s).ownEdges = s.ownEdges ∧
    resultWord 0x00#8 (tPlanData s) = packResult v.errKind.code 0#16 0#16 0x00#8 := by
  subst hv
  rcases tPlanData_cases s with ⟨hv, ht⟩ | ⟨hv, ht⟩ | ⟨hv, ht⟩ | ⟨hv, -⟩
  · rw [ht, hv]; exact ⟨.inr rfl, rfl, rfl⟩
  · rw [ht, hv]; exact ⟨.inr rfl, rfl, rfl⟩
  · rw [ht, hv]; exact ⟨.inl rfl, rfl, rfl⟩
  · exact absurd hv hne

theorem planCheck_invalidLength {a n : Nat} (h : 65536 ≤ n) : planCheck a n = .invalidLength := if_pos h

theorem planCheck_addressRange {a n : Nat} (hpos : 1 ≤ n) (hlt : n < 65536) (h : Config.chipSize < a + n) :
    planCheck a n = .addressRange := by
  rw [planCheck, if_neg (by omega), if_neg (by omega), if_pos h]

/-! The transitions of an operation outside the bus (42_sequencer_data_ops.md R171, R172, R182) -/

section Operation

variable {op : BitVec 3} {admission : ReqFields → State → Option Refusal} {planned : State → State}
  {issue : State → Result} {onOk : List Byte → State → Result} {data : State → Byte} {r : ReqFields} {s : State}

theorem operation_of_idle (hst : s.st = .idle) (ha : admission r s = none) :
    operation op admission planned issue onOk data r s = .next (s.accept op r) := by
  simp [operation, hst, tAccept, ha]

theorem operation_of_planning (hst : s.st = .planning) :
    operation op admission planned issue onOk data r s = .next (planned s) := by
  simp [operation, hst]

theorem operation_of_ended (hst : s.st = .complete ∨ s.st = .failed) :
    operation op admission planned issue onOk data r s = .next (tReport data s) := by
  rcases hst with hst | hst <;> simp [operation, hst]

end Operation

/-- READ and WRITE differ in their code and in their chunks only (42_sequencer_data_ops.md R183, R184). -/
theorem IsDataOp.exec_eq {i : Instr} {r : ReqFields} (h : IsDataOp i r) :
    ∃ op issue onOk, decodeFields op r = .ok i ∧ exec i = operation op admitData tPlanData issue onOk noData r := by
  rcases h with rfl | rfl
  · exact ⟨0b000#3, issueData issueReadChunk, okData okReadChunk, rfl, rfl⟩
  · exact ⟨0b001#3, issueData issueWriteChunk, okData okWriteChunk, rfl, rfl⟩

/-- An edge on which the Operation in the latches takes a transition that is not about a transfer. -/
theorem step_of_latched {s : State} {i : Instr} (hl : s.cfg.legal = true) (hr : s.rst.head = false)
    (hidle : s.st ≠ .idle) (hwait : s.st ≠ .waiting) (hd : decodeFields s.opL s.latched = .ok i) :
    step s = exec i s.tick :=
  step_of_fetch_run hl hr (fetch_of_latched (s := s.tick) hidle (absurd · hwait) hd)

/-- An input whose every value is the same is not changed by looking at it. -/
theorem Feed.eq_of_constant {α : Type} {f g : Feed α} {a : α} (hf : f = { coming := [], after := a })
    (h : g = f ∨ g = f.pop) : g = { coming := [], after := a } := by
  subst hf
  exact h.elim id id

/-- A prompt environment stays one, whichever of its inputs are looked at. -/
theorem State.Prompt.of_eq {s t : State} (h : s.Prompt) (hrst : t.rst = s.rst ∨ t.rst = s.rst.pop)
    (hgrants : t.grants = s.grants ∨ t.grants = s.grants.pop) (htakes : t.takes = s.takes ∨ t.takes = s.takes.pop)
    (hfates : t.fates = s.fates ∨ t.fates = s.fates.pop) : t.Prompt :=
  ⟨Feed.eq_of_constant h.rst hrst, Feed.eq_of_constant h.grants hgrants, Feed.eq_of_constant h.takes htakes,
    Feed.eq_of_constant h.fates hfates⟩

theorem State.Prompt.rst_head {s : State} (h : s.Prompt) : s.rst.head = false := by rw [h.rst]; rfl

theorem State.Prompt.takes_head {s : State} (h : s.Prompt) : s.takes.head = true := by rw [h.takes]; rfl

theorem tReport_of_take {data : State → Byte} {s : State} (h : s.takes.head = true) :
    tReport data s = s.popTake.deliver (resultWord (data s) s) := if_pos h

/-! One edge of a READ or WRITE outside the bus -/

section DataOperation

variable {s : State} {i : Instr}

/-- T_ACCEPT of an offered READ or WRITE with a buffer for every byte (42_sequencer_data_ops.md R171,
70_reset_and_hazards.md R266). -/
theorem step_of_offered_dataOp {q : Request} {r : ReqFields} (hl : s.cfg.legal = true) (hr : s.rst.head = false)
    (hst : s.st = .idle) (hq : s.requests.head = some q) (hd : decodeRequest s.cfg q.word = .ok i) (hi : IsDataOp i r)
    (hroom : r.len.toNat ≤ (q.attach.getD s.buf).size) :
    ∃ op, decodeFields op r = .ok i ∧ step s = .next ((s.tick.offer q).accept op r) := by
  obtain ⟨op, issue, onOk, hfields, hexec⟩ := hi.exec_eq
  refine ⟨op, hfields, (step_of_fetch_run hl hr (fetch_of_offer (s := s.tick) hst hq hd)).trans ?_⟩
  rw [hexec]
  exact operation_of_idle (s := s.tick.offer q) hst (admitData_none.2 hroom)

variable (hl : s.cfg.legal = true) (hr : s.rst.head = false) (hi : IsDataOp i s.latched)
  (hd : decodeFields s.opL s.latched = .ok i)
include hl hr hi hd

/-- T_PLAN of a READ or WRITE (42_sequencer_data_ops.md R172). -/
theorem step_of_planning_dataOp (hst : s.st = .planning) : step s = .next (tPlanData s.tick) := by
  obtain ⟨op, issue, onOk, -, hexec⟩ := hi.exec_eq
  rw [step_of_latched hl hr (by simp [hst]) (by simp [hst]) hd, hexec]
  exact operation_of_planning (s := s.tick) hst

/-- T_REPORT of a READ or WRITE whose result is taken (42_sequencer_data_ops.md R182). -/
theorem step_of_ended_dataOp (hst : s.st = .complete ∨ s.st = .failed) (htake : s.takes.head = true) :
    step s = .next (s.tick.popTake.deliver (resultWord 0x00#8 s)) := by
  obtain ⟨op, issue, onOk, -, hexec⟩ := hi.exec_eq
  rw [step_of_latched hl hr (fun e => by simp [e] at hst) (fun e => by simp [e] at hst) hd, hexec]
  exact (operation_of_ended (s := s.tick) hst).trans (congrArg _ (tReport_of_take (s := s.tick) htake))

end DataOperation

/-- A READ or WRITE whose plan has no chunk, from PLANNING to its result: neither the bus nor the buffer nor the chip is
touched (R152 to R154, R162). -/
theorem runSteps_planning_of_no_chunks {s : State} {i : Instr} {v : Verdict} (hl : s.cfg.legal = true) (hp : s.Prompt)
    (hsole : s.SoleUser) (hst : s.st = .planning) (hi : IsDataOp i s.latched) (hd : decodeFields s.opL s.latched = .ok i)
    (hv : planCheck s.addrL.toNat s.lenL.toNat = v) (hne : v ≠ .chunks) :
    ∃ t, runSteps 2 s = .next t ∧ t.st = .idle ∧ t.chip = s.chip ∧ t.xfer = s.xfer ∧ t.owner = s.owner ∧
      t.buf = s.buf ∧ t.grants = s.grants ∧ t.ownEdges = s.ownEdges ∧
      t.delivered = s.delivered ++ [packResult v.errKind.code 0#16 0#16 0x00#8] := by
  have hplan : step s = .next (tPlanData s.tick) := step_of_planning_dataOp hl hp.rst_head hi hd hst
  obtain ⟨hended, hedges, hword⟩ := tPlanData_of_no_chunks (s := s.tick) hv hne
  have hframe : PlanFrame s.tick (tPlanData s.tick) := tPlanData_frame s.tick
  generalize tPlanData s.tick = u at *
  obtain ⟨hcfg, hop, hlatched⟩ : u.cfg = s.cfg ∧ u.opL = s.opL ∧ u.latched = s.latched := by
    rw [hframe]; exact ⟨rfl, rfl, rfl⟩
  have hpu : u.Prompt := by rw [hframe]; exact hp.of_eq (.inr rfl) (.inl rfl) (.inl rfl) (.inl rfl)
  have hsu : u.SoleUser := by rw [hframe]; exact hsole.of_eq (ite_eq_or_eq ..)
  have hreport := step_of_ended_dataOp (s := u) (by rw [hcfg, hl]) hpu.rst_head (by rwa [hlatched])
    (by rwa [hop, hlatched]) hended hpu.takes_head
  have hchip : u.chip = s.edgeChip := by rw [hframe]; rfl
  obtain ⟨hxfer, howner, hbuf, hgrants, hdelivered⟩ : u.xfer = s.xfer ∧ u.owner = s.owner ∧ u.buf = s.buf ∧
      u.grants = s.grants ∧ u.delivered = s.delivered := by
    rw [hframe]; exact ⟨rfl, rfl, rfl, rfl, rfl⟩
  refine ⟨_, (runSteps_succ hplan).trans (runSteps_succ hreport), rfl, ?_, hxfer, howner, hbuf, hgrants, hedges, ?_⟩
  · exact (hsu.edgeChip.trans hchip).trans hsole.edgeChip
  · rw [hword]
    exact congrArg (· ++ _) hdelivered

/-- A READ or WRITE whose plan has no chunk, from request to result (R152 to R154, R162). -/
theorem runSteps_offered_of_no_chunks {s : State} {q : Request} {i : Instr} {r : ReqFields} {v : Verdict} (h : s.Inv)
    (hp : s.Prompt) (hsole : s.SoleUser) (hst : s.st = .idle) (hq : s.requests.head = some q)
    (hd : decode s.cfg (.request q.word) = .ok i) (hi : IsDataOp i r)
    (hroom : r.len.toNat ≤ (q.attach.getD s.buf).size) (hv : planCheck r.addr.toNat r.len.toNat = v)
    (hne : v ≠ .chunks) :
    ∃ t, runSteps 3 s = .next t ∧ t.st = .idle ∧ t.chip = s.chip ∧ t.xfer = .idle ∧ t.owner = false ∧
      t.buf = q.attach.getD s.buf ∧ t.grants = s.grants ∧ t.ownEdges = s.ownEdges ∧
      t.delivered = s.delivered ++ [packResult v.errKind.code 0#16 0#16 0x00#8] := by
  obtain ⟨op, hfields, haccept⟩ := step_of_offered_dataOp h.legal hp.rst_head hst hq hd hi hroom
  obtain ⟨howner, hxfer, -⟩ := h.released (by simp [State.inBus, hst])
  have hp' : ((s.tick.offer q).accept op r).Prompt := hp.of_eq (.inr rfl) (.inl rfl) (.inl rfl) (.inl rfl)
  have hsole' : ((s.tick.offer q).accept op r).SoleUser := hsole.of_eq (ite_eq_or_eq ..)
  obtain ⟨t, hrun, hidle, hchip, hx, ho, hrest⟩ :=
    runSteps_planning_of_no_chunks (s := (s.tick.offer q).accept op r) h.legal hp' hsole' rfl hi hfields hv hne
  exact ⟨t, (runSteps_succ haccept).trans hrun, hidle, hchip.trans hsole.edgeChip, hx.trans hxfer, ho.trans howner,
    hrest⟩

/-- Settles O58: each of the three ranges is one verdict, and no verdict but `chunks` asks for the bus. -/
theorem emptyAndFailedPlansTouchNothing : Obligations.EmptyAndFailedPlansTouchNothing := by
  intro s q i r h hp hsole hst hq hd hi hroom
  have hends {v : Verdict} := runSteps_offered_of_no_chunks (v := v) h hp hsole hst hq hd hi hroom
  refine ⟨fun h0 => ?_, fun hpos hlt hchip => ?_, fun hlen => ?_⟩
  · exact hends (v := .nothing) (planCheck_nothing.2 h0) (by decide)
  · exact hends (v := .addressRange) (planCheck_addressRange hpos hlt hchip) (by decide)
  · exact hends (v := .invalidLength) (planCheck_invalidLength hlen) (by decide)

end Sys2Proof.Machine

/-! ### The sequencer of the data operations (42_sequencer_data_ops.md): transitions, the bus, whole Operations -/

namespace Sys2Proof.Machine

/-! #### What an operation does in each value of `st` (R170) -/

section Operation

variable {op : BitVec 3} {admission : ReqFields → State → Option Refusal} {planned : State → State}
  {issue : State → Result} {onOk : List Byte → State → Result} {data : State → Byte} {r : ReqFields} {s : State}

theorem operation_of_owned (hst : s.st = .issuing) (ho : s.owner = true) :
    operation op admission planned issue onOk data r s = issue s := by
  simp [operation, hst, ho]

theorem operation_of_unowned (hst : s.st = .issuing) (ho : s.owner = false) :
    operation op admission planned issue onOk data r s = .next (tAcquire s) := by
  simp [operation, hst, ho]

theorem operation_of_ok {inb : List Byte} (hst : s.st = .waiting) (hx : s.xfer = .answered (.ok inb))
    (hlen : inb.length = s.frameLen) :
    operation op admission planned issue onOk data r s = onOk inb s.endTransfer := by
  simp [operation_of_waiting hst, tAnswer, hx, hlen]

theorem operation_of_err (hst : s.st = .waiting) (hx : s.xfer = .answered .err) :
    operation op admission planned issue onOk data r s = .next (tErr s) := by
  simp [operation_of_waiting hst, tAnswer, hx]

end Operation

/-- The six operations are one scheme with parts of their own (R170). -/
theorem IsOperation.exec_eq {i : Instr} {op : BitVec 3} {r : ReqFields} (h : IsOperation i op r) :
    ∃ admission planned issue onOk data, exec i = operation op admission planned issue onOk data r := by
  rcases h with ⟨rfl, rfl⟩ | ⟨rfl, rfl⟩ | ⟨rfl, rfl⟩ | ⟨rfl, rfl⟩ | ⟨rfl, rfl⟩ | ⟨rfl, rfl⟩ <;>
    exact ⟨_, _, _, _, _, rfl⟩

/-! #### T_ACCEPT, T_PLAN, T_ACQUIRE -/

theorem admitMode_none {r : ReqFields} {s : State} (h : r.data.setWidth 2 ≠ 0b11#2) : admitMode r s = none := by
  simp [admitMode, modeReserved, modeOperand, h]

/-- Settles O13: the admission of each operation passes, and T_ACCEPT is the same for all six. -/
theorem acceptLatchesTheRequest : Obligations.AcceptLatchesTheRequest := by
  intro i op r s h hst hroom hmode
  rcases h with ⟨rfl, rfl⟩ | ⟨rfl, rfl⟩ | ⟨rfl, rfl⟩ | ⟨rfl, rfl⟩ | ⟨rfl, rfl⟩ | ⟨rfl, rfl⟩
  · exact operation_of_idle hst (admitData_none.2 (hroom (.inl rfl)))
  · exact operation_of_idle hst (admitData_none.2 (hroom (.inr rfl)))
  · exact operation_of_idle hst rfl
  · exact operation_of_idle hst rfl
  · exact operation_of_idle hst rfl
  · exact operation_of_idle hst (admitMode_none (hmode rfl))

/-- Settles O14: T_PLAN is a case split on the planner's verdict, and each of the four ranges has one. -/
theorem planOfDataOperations : Obligations.PlanOfDataOperations := by
  intro i r s hi hst
  obtain ⟨op, issue, onOk, -, hexec⟩ := hi.exec_eq
  have hplan : exec i s = .next (tPlanData s) := by rw [hexec, operation_of_planning hst]
  unfold tPlanData at hplan
  refine ⟨fun hlen => ?_, fun h0 => ?_, fun hpos hlt hend => ?_, fun hpos hend => ?_⟩
  · rw [hplan, planCheck_invalidLength hlen]; rfl
  · rw [hplan, planCheck_nothing.2 h0]; rfl
  · rw [hplan, planCheck_addressRange hpos hlt hend]; rfl
  · rw [hplan, planCheck_chunks.2 ⟨hpos, hend⟩]; rfl

/-- Settles O16: in ISSUING without the bus every operation is T_ACQUIRE, which looks at the grant only. -/
theorem acquireOnGrantElseWait : Obligations.AcquireOnGrantElseWait := by
  intro i op r s h hst ho
  obtain ⟨admission, planned, issue, onOk, data, hexec⟩ := h.exec_eq
  have hacq : exec i s = .next (tAcquire s) := by rw [hexec, operation_of_unowned hst ho]
  refine ⟨s.ownReq_iff.2 (.inl hst), fun hg => ?_, fun hg => ?_⟩ <;> rw [hacq, tAcquire, hg] <;> rfl

/-! #### T_ISSUE -/

section Issue

variable {body : State → Result} {s : State}

theorem issueData_of_rdsr (h : s.phase = .rdsr) : issueData body s = .next (s.send (rdsrFrame s.cfg)) := by
  rw [issueData, h]

theorem issueData_of_wrsr (h : s.phase = .wrsr) : issueData body s = .next (s.send (wrsrFrame s.srTmp)) := by
  rw [issueData, h]

theorem issueData_of_data (h : s.phase = .data) : issueData body s = body s := by
  rw [issueData, h]

theorem issueWriteChunk_of_le (h : s.done.toNat + s.chunkLen ≤ s.buf.size) :
    issueWriteChunk s = .next (s.send (writeFrame s.curAddr s.chunkBytes)) :=
  if_pos (decide_eq_true h)

end Issue

/-- Settles O17: with the bus owned READ and WRITE are their frame selections, and each phase has one frame. -/
theorem issueOfDataOperations : Obligations.IssueOfDataOperations := by
  intro i r s hi hst ho
  refine ⟨fun hp => ?_, fun hp => ?_, ?_, ?_⟩
  · rcases hi with rfl | rfl <;> exact (operation_of_owned hst ho).trans (issueData_of_rdsr hp)
  · rcases hi with rfl | rfl <;> exact (operation_of_owned hst ho).trans (issueData_of_wrsr hp)
  · rintro hp rfl
    exact (operation_of_owned hst ho).trans (issueData_of_data hp)
  · rintro hp rfl hle
    exact (operation_of_owned hst ho).trans ((issueData_of_data hp).trans (issueWriteChunk_of_le hle))

/-! #### T_OK and T_ERR -/

section Answer

variable {chunk : List Byte → State → Result} {inb : List Byte} {i : Instr} {r : ReqFields} {s : State}

theorem okData_of_rdsr (h : s.phase = .rdsr) : okData chunk inb s = .next (okEnsure inb s) := by
  rw [okData, h]

theorem okData_of_wrsr (h : s.phase = .wrsr) : okData chunk inb s = .next (s.toPhase .data) := by
  rw [okData, h]

theorem okData_of_data (h : s.phase = .data) : okData chunk inb s = chunk inb s := by
  rw [okData, h]

theorem frameLen_of_data (h : s.phase = .data) : s.frameLen = 3 + s.chunkLen := by
  rw [State.frameLen, h]

theorem frameLen_of_ne_data (h : s.phase ≠ .data) : s.frameLen = 2 := by
  unfold State.frameLen
  split
  next hp => exact absurd hp h
  next => rfl

/-- T_OK of the RDSR frame (R178), the same for READ and WRITE. -/
theorem exec_of_rdsr_answer (hi : IsDataOp i r) (hst : s.st = .waiting) (hp : s.phase = .rdsr)
    (hx : s.xfer = .answered (.ok inb)) (hlen : inb.length = 2) :
    exec i s = .next (okEnsure inb s.endTransfer) := by
  have hlen' : inb.length = s.frameLen := hlen.trans (frameLen_of_ne_data (by simp [hp])).symm
  rcases hi with rfl | rfl <;> exact (operation_of_ok hst hx hlen').trans (okData_of_rdsr hp)

/-- T_OK of the WRSR frame (R179), the same for READ and WRITE. -/
theorem exec_of_wrsr_answer (hi : IsDataOp i r) (hst : s.st = .waiting) (hp : s.phase = .wrsr)
    (hx : s.xfer = .answered (.ok inb)) (hlen : inb.length = 2) :
    exec i s = .next (s.endTransfer.toPhase .data) := by
  have hlen' : inb.length = s.frameLen := hlen.trans (frameLen_of_ne_data (by simp [hp])).symm
  rcases hi with rfl | rfl <;> exact (operation_of_ok hst hx hlen').trans (okData_of_wrsr hp)

/-- The bytes of a READ chunk stand in the buffer in the order of the answer (R180). -/
theorem storeChunk_read_of_inside (hwf : s.buf.bytes.wf = true) (hlen : inb.length = 3 + s.chunkLen) {j : Nat}
    (hj : j < s.chunkLen) : some ((s.storeChunk inb).buf.bytes.read (s.done.toNat + j)) = inb[3 + j]? := by
  have hj' : j < (readData inb s.chunkLen).length := by rwa [readData_length hlen]
  have hread := Memory.read_writeBytes (bufLoc s.done.toNat) (readData inb s.chunkLen) 0 hwf
    (fun _ _ _ hik _ => bufLoc_injective _ hik) j hj'
  rw [Nat.zero_add] at hread
  rw [← readData_getElem? inb hj, List.getElem?_eq_getElem hj', ← hread]
  rfl

/-- Nothing remains after the chunk exactly if the chunk is all that remained (R180). -/
theorem remaining_sub_chunkLen_eq_zero :
    s.remaining - BitVec.ofNat 16 s.chunkLen = 0#16 ↔ s.remaining.toNat = s.chunkLen := by
  have hle := s.chunkLen_le
  rw [← BitVec.toNat_inj, half_sub_toNat _ hle, BitVec.toNat_ofNat]
  omega

theorem chunkDone_of_last (h : s.remaining.toNat = s.chunkLen) :
    chunkDone s = ((s.advance s.chunkLen).release).finish :=
  if_pos (remaining_sub_chunkLen_eq_zero.2 h)

theorem chunkDone_of_more (h : s.remaining.toNat ≠ s.chunkLen) :
    chunkDone s = ((s.advance s.chunkLen).release).request.toPhase .rdsr :=
  if_neg (remaining_sub_chunkLen_eq_zero.not.2 h)

/-- The buffer's bytes after T_OK of a data frame of `i` (R180): a READ has stored its chunk, a WRITE nothing. -/
def chunkStored (i : Instr) (inb : List Byte) (s : State) : Memory :=
  match i with
  | .read _ => (s.storeChunk inb).buf.bytes
  | _ => s.buf.bytes

theorem chunkStored_wf (hwf : s.buf.bytes.wf = true) : (chunkStored i inb s).wf = true := by
  unfold chunkStored
  split
  · exact Memory.wf_writeBytes _ _ _ hwf
  · exact hwf

/-- T_OK of a data frame (R180, R181): the chunk is stored, then the registers advance. -/
theorem exec_of_chunk_answer (hi : IsDataOp i r) (hst : s.st = .waiting) (hp : s.phase = .data)
    (hx : s.xfer = .answered (.ok inb)) (hlen : inb.length = 3 + s.chunkLen)
    (hroom : s.done.toNat + s.chunkLen ≤ s.buf.size) :
    exec i s = .next (chunkDone (s.endTransfer.setBufBytes (chunkStored i inb s))) := by
  have hlen' : inb.length = s.frameLen := hlen.trans (frameLen_of_data hp).symm
  rcases hi with rfl | rfl
  · exact ((operation_of_ok hst hx hlen').trans (okData_of_data hp)).trans (if_pos (decide_eq_true hroom))
  · exact (operation_of_ok hst hx hlen').trans (okData_of_data hp)

end Answer

/-- Settles O19: T_OK of the RDSR frame goes on with the phase that the byte's mode asks for. -/
theorem ensureStepReadsTheMode : Obligations.EnsureStepReadsTheMode := by
  intro i r s x b hi hst hp hx
  have hok : exec i s = .next (okEnsure [x, b] s.endTransfer) := exec_of_rdsr_answer hi hst hp hx rfl
  refine ⟨fun hmode => ?_, fun hmode => ?_⟩
  · have hseq : isSequential s.cfg b = true := beq_iff_eq.2 hmode
    rw [hok, okEnsure, State.endTransfer_cfg, rdsrData, List.getD_cons_succ, List.getD_cons_zero, hseq]
    rfl
  · have hseq : isSequential s.cfg b = false := beq_eq_false_iff_ne.2 hmode
    rw [hok, okEnsure, State.endTransfer_cfg, rdsrData, List.getD_cons_succ, List.getD_cons_zero, hseq]
    rfl

/-- Settles O20: T_OK of the WRSR frame does not look at the answer. -/
theorem ensureStepWritesTheMode : Obligations.EnsureStepWritesTheMode :=
  fun _ _ _ _ _ hi hst hp hx => exec_of_wrsr_answer hi hst hp hx rfl

/-- Settles O21: T_OK of a data frame stores the chunk and ends it, with or without another one to come. -/
theorem dataChunkSuccess : Obligations.DataChunkSuccess := by
  intro i r s inb hi hst hp hx hlen hroom hwf
  have hok := exec_of_chunk_answer hi hst hp hx hlen hroom
  refine ⟨chunkStored i inb s, ⟨fun hlast => ?_, fun hmore => ?_⟩, chunkStored_wf hwf, ?_, ?_⟩
  · rw [hok, chunkDone_of_last (s := s.endTransfer.setBufBytes _) hlast]; rfl
  · rw [hok, chunkDone_of_more (s := s.endTransfer.setBufBytes _) hmore]; rfl
  · rintro rfl; rfl
  · rintro rfl
    exact ⟨fun j hj => storeChunk_read_of_inside hwf hlen hj, fun k hk => storeChunk_read_of_outside inb hwf hk⟩

/-- Settles O23: T_ERR is the same for every operation and looks at no phase. -/
theorem transportErrorIsRaised : Obligations.TransportErrorIsRaised := by
  intro i op r s h hst hx
  obtain ⟨admission, planned, issue, onOk, data, hexec⟩ := h.exec_eq
  rw [hexec, operation_of_err hst hx]
  rfl

/-! #### T_REPORT -/

theorem resultWord_of_failed {s : State} (h : s.st = .failed) (data : Byte) :
    resultWord data s = packResult s.errKind.code s.done s.done 0x00#8 := by
  rw [resultWord, h]

theorem resultWord_of_complete {s : State} (h : s.st = .complete) (data : Byte) :
    resultWord data s = packResult (ErrKind.code .ok) 0#16 s.done data := by
  rw [resultWord, h]

/-- The `data` field of a success (R182, 43_status_ops.md R217). -/
def successData (i : Instr) (s : State) : Byte :=
  match i with
  | .getStatus _ => s.srTmp
  | .setStatus _ => s.srTmp
  | .setMode _ => s.srTmp
  | .getMode _ => (modeOf s.cfg s.srTmp).setWidth 8
  | _ => 0x00#8

/-- T_REPORT of each operation: the same transition with the operation's own success data (R182). -/
theorem IsOperation.exec_ended {i : Instr} {op : BitVec 3} {r : ReqFields} {s : State} (h : IsOperation i op r)
    (hst : s.st = .complete ∨ s.st = .failed) : exec i s = .next (tReport (successData i) s) := by
  rcases h with ⟨rfl, rfl⟩ | ⟨rfl, rfl⟩ | ⟨rfl, rfl⟩ | ⟨rfl, rfl⟩ | ⟨rfl, rfl⟩ | ⟨rfl, rfl⟩ <;>
    exact operation_of_ended hst

/-- Settles O24: T_REPORT of a result that is taken; the word is that of FAILED or that of COMPLETE. -/
theorem reportDeliversTheResult : Obligations.ReportDeliversTheResult := by
  intro i op r s h htake
  refine ⟨fun hst => ?_, fun hst => ?_⟩
  · rw [h.exec_ended (.inr hst), tReport_of_take htake, resultWord_of_failed hst]
    rfl
  · rw [h.exec_ended (.inl hst), tReport_of_take htake, resultWord_of_complete hst]
    rfl

end Sys2Proof.Machine

namespace Sys2Proof.Machine

/-! #### When a frame is issued and when the bus is released (R174, R181) -/

@[simp] theorem chunkDone_xfer (s : State) : (chunkDone s).xfer = s.xfer := by
  rcases chunkDone_cases s with ⟨-, h⟩ | ⟨-, h⟩ <;> rw [h] <;> rfl

@[simp] theorem chunkDone_owner (s : State) : (chunkDone s).owner = false := by
  rcases chunkDone_cases s with ⟨-, h⟩ | ⟨-, h⟩ <;> rw [h] <;> rfl

/-- The first edge of `own_req` after a data frame is a fall (R181). -/
theorem chunkDone_ownEdges (s : State) : ∃ later, (chunkDone s).ownEdges = s.ownEdges ++ .fall :: later := by
  rcases chunkDone_cases s with ⟨-, h⟩ | ⟨-, h⟩ <;> rw [h]
  · exact ⟨[], rfl⟩
  · exact ⟨[.rise], List.append_assoc ..⟩

/-- The three places of R181: T_ERR, T_OK of a data frame, T_OK of the last frame of a status operation. -/
def State.Releases (s : State) : Prop :=
  s.st = .waiting ∧
    (s.xfer = .answered .err ∨
     (∃ inb, s.xfer = .answered (.ok inb)) ∧
      ((s.isData ∧ s.phase = .data) ∨ (¬ s.isData ∧ (s.opL = 0b101#3 → s.phase = .wrsr))))

theorem State.not_releases_of_not_waiting {s : State} (h : s.st ≠ .waiting) : ¬ s.Releases := fun hr => h hr.1

theorem State.not_releases_of_no_answer {s : State} (h : ∀ a, s.xfer ≠ .answered a) : ¬ s.Releases := by
  rintro ⟨-, hx | ⟨⟨inb, hx⟩, -⟩⟩
  · exact h _ hx
  · exact h _ hx

/-- What the step from `s` to `t` does to the bus: a release clears `owner` and lets `own_req` fall, any other step
keeps an owned bus and adds a rise at most. -/
def BusStep (s t : State) : Prop :=
  (s.Releases ∧ t.owner = false ∧ ∃ later, t.ownEdges = s.ownEdges ++ .fall :: later) ∨
  (¬ s.Releases ∧ (s.owner = true → t.owner = true) ∧ (t.ownEdges = s.ownEdges ∨ t.ownEdges = s.ownEdges ++ [.rise]))

theorem BusStep.of_same {s t : State} (hr : ¬ s.Releases) (ho : t.owner = s.owner) (he : t.ownEdges = s.ownEdges) :
    BusStep s t := .inr ⟨hr, fun h => ho.trans h, .inl he⟩

section Bus

variable {i : Instr} {op : BitVec 3} {r : ReqFields} {s t : State}

/-- A transition of an operation puts a frame in flight with the bus owned, or it puts none (R174). -/
theorem operation_xfer (h : IsOperation i op r) (he : exec i s = .next t) :
    (s.st = .issuing ∧ s.owner = true ∧ t.st = .waiting ∧ t.owner = true) ∨ t.xfer = s.xfer ∨ t.xfer = .idle := by
  rcases operation_cases h he with ⟨-, rfl⟩ | ⟨-, -, rfl⟩ | ⟨-, -, rfl | rfl⟩ | ⟨hst, ho, out, rfl⟩ | ⟨-, -, rfl⟩ |
    ⟨-, hw⟩ | ⟨-, data, rfl⟩
  · exact .inr (.inl rfl)
  · exact .inr (.inl (by rw [tPlanData_frame s]))
  · exact .inr (.inl rfl)
  · exact .inr (.inl rfl)
  · exact .inl ⟨hst, ho, rfl, ho⟩
  · refine .inr (.inl ?_)
    rcases tAcquire_cases s with ⟨-, ht⟩ | ⟨-, ht⟩ <;> rw [ht] <;> rfl
  · rcases hw with ⟨rfl, -⟩ | ⟨-, rfl⟩ | ⟨inb, -, ⟨-, -, rfl⟩ | ⟨-, -, rfl⟩ | ⟨-, -, rfl⟩ | ⟨-, -, -, rfl⟩ |
      ⟨-, -, b, rfl⟩ | ⟨-, -, b, rfl⟩⟩
    · exact .inr (.inl rfl)
    · exact .inr (.inr rfl)
    · exact .inr (.inr rfl)
    · exact .inr (.inr rfl)
    · exact .inr (.inr (chunkDone_xfer _))
    · exact .inr (.inr (chunkDone_xfer _))
    · exact .inr (.inr rfl)
    · exact .inr (.inr rfl)
  · exact .inr (.inl (by rw [tReport_frame data s]))

theorem tPlanData_bus (s : State) : (tPlanData s).owner = s.owner ∧
    ((tPlanData s).ownEdges = s.ownEdges ∨ (tPlanData s).ownEdges = s.ownEdges ++ [.rise]) := by
  rcases tPlanData_cases s with ⟨-, h⟩ | ⟨-, h⟩ | ⟨-, h⟩ | ⟨-, h⟩ <;> rw [h]
  · exact ⟨rfl, .inl rfl⟩
  · exact ⟨rfl, .inl rfl⟩
  · exact ⟨rfl, .inl rfl⟩
  · exact ⟨rfl, .inr rfl⟩

/-- Outside WAITING no transition of an operation releases the bus (R171 to R174, R182). -/
theorem operation_busStep_of_not_waiting (h : IsOperation i op r) (he : exec i s = .next t) (hst : s.st ≠ .waiting) :
    BusStep s t := by
  have hr := State.not_releases_of_not_waiting hst
  rcases operation_cases h he with ⟨-, rfl⟩ | ⟨-, -, rfl⟩ | ⟨-, -, rfl | rfl⟩ | ⟨-, -, out, rfl⟩ | ⟨-, ho, rfl⟩ |
    ⟨hw, -⟩ | ⟨-, data, rfl⟩
  · exact .of_same hr rfl rfl
  · obtain ⟨ho, hedges⟩ := tPlanData_bus s
    exact .inr ⟨hr, fun h => ho.trans h, hedges⟩
  · exact .inr ⟨hr, id, .inr rfl⟩
  · exact .inr ⟨hr, id, .inr rfl⟩
  · exact .of_same hr rfl rfl
  · exact .inr ⟨hr, fun how => absurd how (by simp [ho]), .inl (by rw [tAcquire_frame s])⟩
  · exact absurd hw hst
  · rw [tReport_frame data s]
    exact .of_same hr rfl rfl

/-- In WAITING the three places of R181 release the bus, and no other transition does. -/
theorem operation_busStep_of_waiting (h : IsOperation i s.opL r) (he : exec i s = .next t) (hst : s.st = .waiting) :
    BusStep s t := by
  have hdata : IsDataOp i r ↔ s.isData := h.isDataOp_iff
  have hw := operation_cases h he
  simp only [hst, reduceCtorEq, false_and, false_or, or_false, true_and] at hw
  rcases hw with ⟨rfl, hx⟩ | ⟨hx, rfl⟩ | ⟨inb, hx, hok⟩
  · exact .of_same (State.not_releases_of_no_answer hx) rfl rfl
  · exact .inl ⟨⟨hst, .inl hx⟩, rfl, [], rfl⟩
  · have hkeep : s.phase ≠ .data → (s.isData ∨ s.opL = 0b101#3 ∧ s.phase ≠ .wrsr) → ¬ s.Releases := by
      rintro hp hcase ⟨-, hx' | ⟨-, ⟨-, hp'⟩ | ⟨hd, hlast⟩⟩⟩
      · cases hx.symm.trans hx'
      · exact hp hp'
      · exact hcase.elim hd fun ⟨hop, hw⟩ => hw (hlast hop)
    rcases hok with ⟨hd, hp, rfl⟩ | ⟨hd, hp, rfl⟩ | ⟨rfl, hp, rfl⟩ | ⟨rfl, hp, -, rfl⟩ | ⟨hd, hlast, b, rfl⟩ |
      ⟨rfl, hp, b, rfl⟩
    · exact .of_same (hkeep (by simp [hp]) (.inl (hdata.1 hd))) rfl rfl
    · exact .of_same (hkeep (by simp [hp]) (.inl (hdata.1 hd))) rfl rfl
    · exact .inl ⟨⟨hst, .inr ⟨⟨inb, hx⟩, .inl ⟨hdata.1 (.inr rfl), hp⟩⟩⟩, chunkDone_owner _, chunkDone_ownEdges _⟩
    · exact .inl ⟨⟨hst, .inr ⟨⟨inb, hx⟩, .inl ⟨hdata.1 (.inl rfl), hp⟩⟩⟩, chunkDone_owner _, chunkDone_ownEdges _⟩
    · refine .inl ⟨⟨hst, .inr ⟨⟨inb, hx⟩, .inr ⟨hd ∘ hdata.2, fun hop => hlast ?_⟩⟩⟩, rfl, [], rfl⟩
      simpa [IsOperation, hop] using h
    · have hop : s.opL = 0b101#3 := by simpa [IsOperation] using h
      exact .of_same (hkeep (by simp [hp]) (.inr ⟨hop, by simp [hp]⟩)) rfl rfl

end Bus

/-- Settles O47: of the steps that `step_cases` lists only T_ISSUE puts another frame in flight. -/
theorem framesAreIssuedInsideAWindow : Obligations.FramesAreIssuedInsideAWindow := by
  intro s t out h hsent hnew
  rcases step_cases h with ⟨-, ⟨-, rfl⟩ | ⟨-, out', i, u, -, -, -, rfl⟩⟩ | ⟨-, -, -, rfl⟩ |
    ⟨-, -, q, i, op, r, -, -, -, rfl⟩ | ⟨-, -, out', i, hx, hd, he⟩ | ⟨-, -, -, i, hop, he⟩
  · cases hsent
  · cases hsent
  · exact absurd hsent hnew
  · exact absurd hsent hnew
  · obtain ⟨-, hanswer, -⟩ := exec_frame hd he
    rcases hanswer with hsame | herr | ⟨inb, hok, -⟩
    · exact absurd (hsame.symm.trans hsent) hnew
    · cases herr.symm.trans hsent
    · cases hok.symm.trans hsent
  · rcases operation_xfer hop he with ⟨hst, ho, hst', ho'⟩ | hsame | hidle
    · exact ⟨hst, ho, hst', ho', t.ownReq_iff.2 (.inr ho')⟩
    · exact absurd (hsame.symm.trans hsent) hnew
    · cases hidle.symm.trans hsent

/-- Without a reset every step does to the bus what R181 allows. -/
theorem step_busStep {s t : State} (hr : s.rst.head = false) (h : step s = .next t) : BusStep s t := by
  rcases step_cases h with ⟨hr', -⟩ | ⟨-, hst, -, rfl⟩ | ⟨-, hst, q, -, -, -, -, -, -, rfl⟩ |
    ⟨-, -, out, i, hx, hd, he⟩ | ⟨-, -, -, i, hop, he⟩
  · cases hr.symm.trans hr'
  · exact .of_same (State.not_releases_of_not_waiting (by simp [hst])) rfl rfl
  · exact .of_same (State.not_releases_of_not_waiting (by simp [hst])) rfl rfl
  · have hrel : ¬ s.Releases := State.not_releases_of_no_answer fun a => by simp [hx]
    rw [(exec_frame hd he).1]
    exact .of_same hrel rfl rfl
  · by_cases hst : s.st = .waiting
    · exact operation_busStep_of_waiting (s := s.tick) hop he hst
    · exact operation_busStep_of_not_waiting (s := s.tick) hop he hst

/-- Settles O48: a step is a release with a fall of `own_req`, or it is none and its first edge is no fall. -/
theorem busIsReleasedAtThreePlaces : Obligations.BusIsReleasedAtThreePlaces := by
  intro s t _ hr h
  change (s.owner = true → (t.owner = false ↔ s.Releases)) ∧
    ((∃ later, t.ownEdges = s.ownEdges ++ .fall :: later) ↔ s.Releases)
  rcases step_busStep hr h with ⟨hrel, ho, hfall⟩ | ⟨hrel, ho, hedges⟩
  · exact ⟨fun _ => iff_of_true ho hrel, iff_of_true hfall hrel⟩
  · refine ⟨fun how => iff_of_false (by simp [ho how]) hrel, iff_of_false ?_ hrel⟩
    rintro ⟨later, hfall⟩
    rcases hedges with hsame | hrise
    · simp [hsame] at hfall
    · simp [hrise] at hfall

/-! #### A transport failure, from T_ERR to the result (R177, R182, 60_exceptions.md R238) -/

/-- An edge with `rst` low on which the Operation in the latches takes a transition. -/
theorem step_of_operation {s : State} {i : Instr} (hl : s.cfg.legal = true) (hr : s.rst.head = false)
    (hst : s.st ≠ .idle) (hx : s.st = .waiting → ∀ out, s.xfer ≠ .sent out)
    (hd : decodeFields s.opL s.latched = .ok i) : step s = exec i s.tick :=
  step_of_fetch_run hl hr (fetch_of_latched (s := s.tick) hst hx hd)

/-- An edge with `Err` on XFER is T_ERR (R177). -/
theorem step_of_err {s : State} (h : s.Inv) (hst : s.st = .waiting) (hx : s.xfer = .answered .err)
    (hr : s.rst.head = false) : step s = .next (tErr s.tick) := by
  obtain ⟨i, hd⟩ := h.current (by simp [hst])
  obtain ⟨admission, planned, issue, onOk, data, hexec⟩ := (decodeFields_isOperation hd).exec_eq
  rw [step_of_operation h.legal hr (by simp [hst]) (by simp [hx]) hd, hexec]
  exact operation_of_err (s := s.tick) hst hx

/-- An edge in FAILED at which the caller takes the result (R182). -/
theorem step_of_failed {s : State} (h : s.Inv) (hst : s.st = .failed) (hr : s.rst.head = false)
    (htake : s.takes.head = true) :
    step s = .next (s.tick.popTake.deliver (packResult s.errKind.code s.done s.done 0x00#8)) := by
  obtain ⟨i, hd⟩ := h.current (by simp [hst])
  rw [step_of_operation h.legal hr (by simp [hst]) (by simp [hst]) hd,
    (decodeFields_isOperation hd).exec_ended (s := s.tick) (.inr hst), tReport_of_take (s := s.tick) htake,
    resultWord_of_failed (s := s.tick) hst]
  rfl

/-- Settles O60: T_ERR and T_REPORT; the invariant has the registers at whole chunks. -/
theorem transportFailureReportsWholeChunks : Obligations.TransportFailureReportsWholeChunks := by
  intro s h hst hx hr hr' htake
  have herr : step s = .next (tErr s.tick) := step_of_err h hst hx hr
  have hinv : (tErr s.tick).Inv := (stepKeepsTheInvariant s _ h herr).1
  have hreport := step_of_failed hinv rfl hr' htake
  refine ⟨_, (runSteps_succ herr).trans (runSteps_succ hreport), rfl, rfl, rfl, fun hsole => ?_, rfl, rfl, rfl,
    fun hd => ?_⟩
  · have hsole' : (tErr s.tick).SoleUser := hsole.of_eq (ite_eq_or_eq ..)
    exact hsole'.edgeChip.trans hsole.edgeChip
  · have hp := h.progress (.inr hst) hd
    have hleft := hp.some_left
    have hsum := hp.remaining
    exact ⟨hp.whole_chunks, by omega⟩

end Sys2Proof.Machine

namespace Sys2Proof.Machine

/-! #### Nothing stops an accepted Operation (R189, 93_implementation_defined.md U1 to U5) -/

section Frames

variable {f : Instr} {s : State} {out : List Byte}

/-- The frame of the phase is one of the four (40_codec.md R139). -/
theorem State.Inv.decodeFrame_frameOut (h : s.Inv) (hst : s.st = .waiting) : ∃ f, decodeFrame s.frameOut = .ok f := by
  unfold State.frameOut
  cases hp : s.phase with
  | rdsr => exact ⟨_, decodeFrame_rdsrFrame _⟩
  | wrsr => exact ⟨_, decodeFrame_wrsrFrame _⟩
  | data =>
    have hdata : s.isData := by
      by_contra hnot
      exact (h.status (.inr hst) hnot).phase_ne_data hp
    have hpos : 1 ≤ s.chunkLen :=
      State.chunkLen_pos (Config.legal_bounds h.legal).1 (h.progress (.inr hst) hdata).some_left
    cases s.opL == 0b000#3 with
    | true => exact ⟨_, decodeFrame_readFrame _ _ hpos⟩
    | false =>
      have hlen : s.chunkBytes.length = s.chunkLen := Memory.readBytes_length ..
      exact ⟨_, decodeFrame_writeFrame _ (List.ne_nil_of_length_pos (hlen ▸ hpos))⟩

/-- The chip takes the frame `f` if it receives any of it: MODE is SEQUENTIAL where `f` is a data frame (R93). -/
def State.ChipTakes (f : Instr) (s : State) : Prop :=
  ∀ a p, f = .frameRead a p ∨ f = .frameWrite a p → s.fates.head.byChip = true → chipSequential s.cfg s.chip = true

/-- A frame that the chip takes is never refused. -/
theorem exec_frame_of_chipTakes (hd : decodeFrame out = .ok f) (hc : s.ChipTakes f) : ∃ t, exec f s = .next t := by
  rcases decodeFrame_ok hd with ⟨a, p, hp, -, rfl | rfl⟩ | ⟨-, ⟨d, rfl⟩ | ⟨v, rfl⟩⟩
  · exact execFrameRead_of_sequential hp (hc a p (.inl rfl))
  · exact execFrameWrite_of_sequential hp (hc a p (.inr rfl))
  · exact ⟨_, rfl⟩
  · exact ⟨_, rfl⟩

/-- A chip that agrees with the block takes the frame of the phase, and so does any chip that receives none of it. -/
theorem State.Inv.chipTakes_frameOut (h : s.Inv) (hst : s.st = .waiting) (hd : decodeFrame s.frameOut = .ok f)
    (hc : s.ChipAgrees ∨ s.fates.head.byChip = false) : s.ChipTakes f := by
  intro a p hf hby
  obtain ⟨hdata, hphase, -⟩ := h.dataFrame_eq hst hd hf
  rcases hc with hc | hno
  · exact hc.data (.inr hst) hdata hphase
  · cases hby.symm.trans hno

theorem cutFrame_eq (hd : decodeFrame out = .ok f) : cutFrame f s = exec f s.cutBusy := by
  rcases decodeFrame_ok hd with ⟨a, p, -, -, rfl | rfl⟩ | ⟨-, ⟨d, rfl⟩ | ⟨v, rfl⟩⟩ <;> rfl

/-- What a reset edge makes of a busy Transport, the chip receives nothing of (70_reset_and_hazards.md R262). -/
theorem State.ChipTakes.cutBusy (h : s.ChipTakes f) : s.cutBusy.ChipTakes f := by
  unfold State.cutBusy
  split
  next => exact fun _ _ _ hby => by cases hby
  next => exact h

/-- A reset edge is never turned away where the chip takes the frame it finds in flight. -/
theorem resetEdge_settles (h : s.st = .waiting → ∀ out, s.xfer = .sent out →
    ∃ f, decodeFrame out = .ok f ∧ s.ChipTakes f) : ∃ t, resetEdge s = .settle t := by
  unfold resetEdge
  split
  next out hst hx =>
    obtain ⟨f, hd, hc⟩ := h hst out hx
    obtain ⟨t, ht⟩ := exec_frame_of_chipTakes hd hc.cutBusy
    rw [hd]
    simp only [cutFrame_eq hd, ht]
    exact ⟨_, rfl⟩
  next => exact ⟨_, rfl⟩

end Frames

theorem step_of_resetEdge {s t : State} (hl : s.cfg.legal = true) (hr : s.rst.head = true)
    (h : resetEdge s.tick = .settle t) : step s = .next t := by
  rw [step, nextAction_rst hl hr, h]

section Operation

variable {i : Instr} {op : BitVec 3} {r : ReqFields} {s : State}

theorem exec_of_short_buffer (hi : IsDataOp i r) (hst : s.st = .idle) (h : s.buf.size < r.len.toNat) :
    exec i s = .refused .bufferTooShort := by
  obtain ⟨op, issue, onOk, -, hexec⟩ := hi.exec_eq
  simp [hexec, operation, hst, tAccept, admitData, h]

/-- T_ISSUE has a frame for every phase that the invariant allows (R175, 43_status_ops.md R216). -/
theorem issue_answers (h : s.Inv) (hop : IsOperation i s.opL r) (hst : s.st = .issuing) (ho : s.owner = true) :
    ∃ t, exec i s = .next t := by
  have hissue : ∀ body, exec i s = issueData body s → (s.phase = .data → ∃ t, body s = .next t) →
      ∃ t, exec i s = .next t := by
    intro body hexec hbody
    rw [hexec]
    cases hp : s.phase with
    | rdsr => exact ⟨_, issueData_of_rdsr hp⟩
    | wrsr => exact ⟨_, issueData_of_wrsr hp⟩
    | data => rw [issueData_of_data hp]; exact hbody hp
  have hstatus : ¬ s.isData → s.phase ≠ .data := fun hnot => (h.status (.inl hst) hnot).phase_ne_data
  rcases hop with ⟨rfl, hc⟩ | ⟨rfl, hc⟩ | ⟨rfl, hc⟩ | ⟨rfl, hc⟩ | ⟨rfl, hc⟩ | ⟨rfl, hc⟩
  · exact hissue _ (operation_of_owned hst ho) fun _ => ⟨_, rfl⟩
  · have hroom := (h.progress (.inl hst) (.inr hc)).chunk_le_size (h.room (by simp [hst]) (.inr hc))
    exact hissue _ (operation_of_owned hst ho) fun _ => ⟨_, issueWriteChunk_of_le hroom⟩
  all_goals exact hissue _ (operation_of_owned hst ho) fun hp => absurd hp (hstatus (by simp [hc]))

theorem okGet_of_rdsr {inb : List Byte} (h : s.phase = .rdsr) :
    okGet inb s = .next (statusDone (s.setSrTmp (rdsrData inb))) := by
  rw [okGet, h]

theorem okSetStatus_of_wrsr {inb : List Byte} (h : s.phase = .wrsr) : okSetStatus inb s = .next (statusDone s) := by
  rw [okSetStatus, h]

theorem okSetMode_of_rdsr {inb : List Byte} (h : s.phase = .rdsr) : okSetMode inb s =
    .next ((s.setSrTmp (withMode s.cfg (rdsrData inb) (modeOperand s.dataL))).toPhase .wrsr) := by
  rw [okSetMode, h]

theorem okSetMode_of_wrsr {inb : List Byte} (h : s.phase = .wrsr) : okSetMode inb s = .next (statusDone s) := by
  rw [okSetMode, h]

/-- T_OK has a rule for every phase that the invariant allows (R178 to R180, 43_status_ops.md R216). -/
theorem answer_answers {inb : List Byte} (h : s.Inv) (hop : IsOperation i s.opL r) (hst : s.st = .waiting)
    (hx : s.xfer = .answered (.ok inb)) (hlen : inb.length = s.frameLen) : ∃ t, exec i s = .next t := by
  by_cases hd : s.isData
  · have hi : IsDataOp i r := hop.isDataOp_iff.2 hd
    cases hp : s.phase with
    | rdsr => exact ⟨_, exec_of_rdsr_answer hi hst hp hx (hlen.trans (frameLen_of_ne_data (by simp [hp])))⟩
    | wrsr => exact ⟨_, exec_of_wrsr_answer hi hst hp hx (hlen.trans (frameLen_of_ne_data (by simp [hp])))⟩
    | data =>
      exact ⟨_, exec_of_chunk_answer hi hst hp hx (hlen.trans (frameLen_of_data hp))
        ((h.progress (.inr hst) hd).chunk_le_size (h.room (by simp [hst]) hd))⟩
  · have hphase := (h.status (.inr hst) hd).phase
    rcases hop with ⟨rfl, hc⟩ | ⟨rfl, hc⟩ | ⟨rfl, hc⟩ | ⟨rfl, hc⟩ | ⟨rfl, hc⟩ | ⟨rfl, hc⟩ <;> rw [hc] at hphase
    · exact absurd (.inl hc) hd
    · exact absurd (.inr hc) hd
    · exact ⟨_, (operation_of_ok hst hx hlen).trans (okGet_of_rdsr (s := s.endTransfer) hphase)⟩
    · exact ⟨_, (operation_of_ok hst hx hlen).trans (okSetStatus_of_wrsr (s := s.endTransfer) hphase)⟩
    · exact ⟨_, (operation_of_ok hst hx hlen).trans (okGet_of_rdsr (s := s.endTransfer) hphase)⟩
    · cases hp : s.phase with
      | rdsr => exact ⟨_, (operation_of_ok hst hx hlen).trans (okSetMode_of_rdsr (s := s.endTransfer) hp)⟩
      | wrsr => exact ⟨_, (operation_of_ok hst hx hlen).trans (okSetMode_of_wrsr (s := s.endTransfer) hp)⟩
      | data => exact absurd hp hphase

/-- The Operation in the latches has an enabled transition, or it waits (R170). -/
theorem operation_answers (h : s.Inv) (hop : IsOperation i s.opL r) (hidle : s.st ≠ .idle)
    (hx : s.st = .waiting → ∀ out, s.xfer ≠ .sent out) : ∃ t, exec i s = .next t := by
  obtain ⟨admission, planned, issue, onOk, data, hexec⟩ := hop.exec_eq
  cases hst : s.st with
  | idle => exact absurd hst hidle
  | planning => exact ⟨_, hexec ▸ operation_of_planning hst⟩
  | issuing =>
    cases ho : s.owner with
    | true => exact issue_answers h hop hst ho
    | false => exact ⟨_, hexec ▸ operation_of_unowned hst ho⟩
  | waiting =>
    rcases h.flight hst with hsent | herr | ⟨inb, hok, hlen⟩
    · exact absurd hsent (hx hst _)
    · exact ⟨_, hexec ▸ operation_of_err hst herr⟩
    · exact answer_answers h hop hst hok hlen
  | complete => exact ⟨_, hexec ▸ operation_of_ended (.inl hst)⟩
  | failed => exact ⟨_, hexec ▸ operation_of_ended (.inr hst)⟩

end Operation

/-- A step outside IDLE answers a next state, a reset edge among them. -/
theorem step_answers {s : State} (h : s.Inv) (hidle : s.st ≠ .idle)
    (hc : s.ChipAgrees ∨ s.fates.head.byChip = false) : ∃ t, step s = .next t := by
  have hi := h.tick
  have hframe : s.st = .waiting → ∀ out, s.xfer = .sent out → ∃ f, decodeFrame out = .ok f ∧ s.tick.ChipTakes f := by
    intro hst out hx
    obtain ⟨f, hd⟩ := hi.decodeFrame_frameOut hst
    exact ⟨f, hi.sent_eq_frameOut hst hx ▸ hd, hi.chipTakes_frameOut hst hd (hc.imp_left fun hc => hc.tick h)⟩
  cases hr : s.rst.head with
  | true =>
    obtain ⟨t, ht⟩ := resetEdge_settles (s := s.tick) hframe
    exact ⟨t, step_of_resetEdge h.legal hr ht⟩
  | false =>
    by_cases hsent : s.st = .waiting ∧ ∃ out, s.xfer = .sent out
    · obtain ⟨hst, out, hx⟩ := hsent
      obtain ⟨f, hd, htakes⟩ := hframe hst out hx
      rw [step_of_fetch_run h.legal hr (fetch_of_sent (s := s.tick) hst hx hd)]
      exact exec_frame_of_chipTakes hd htakes
    · obtain ⟨i, hd⟩ := h.current hidle
      have hx : s.st = .waiting → ∀ out, s.xfer ≠ .sent out := fun hst out hx => hsent ⟨hst, out, hx⟩
      rw [step_of_operation h.legal hr hidle hx hd]
      exact operation_answers hi (decodeFields_isOperation hd) hidle hx

/-- A refusal that a caller brings about by what it offers (30_encoding.md R118, R119, 70_reset_and_hazards.md R266,
assumption log 18). -/
def Refusal.ofRequest (why : Refusal) : Prop :=
  why = .reservedOperation ∨ why = .reservedMode ∨ why = .requestTooWide ∨ why = .bufferTooShort

theorem decodeFields_error {op : BitVec 3} {r : ReqFields} {e : DecodeError} (h : decodeFields op r = .error e) :
    e = .reservedOperation ∨ e = .reservedMode := by
  unfold decodeFields at h
  split at h
  case h_6 => split at h <;> cases h; exact .inr rfl
  case h_7 => cases h; exact .inl rfl
  all_goals cases h

theorem decodeRequest_error {c : Config} {w : ReqWord} {e : DecodeError} (h : decodeRequest c w = .error e) :
    (refusalOf e).ofRequest := by
  unfold decodeRequest at h
  split at h
  · rcases decodeFields_error h with rfl | rfl
    · exact .inl rfl
    · exact .inr (.inl rfl)
  · cases h
    exact .inr (.inr (.inl rfl))

/-- A request that decodes is accepted, but for a READ or WRITE with a short buffer (R171, 93_implementation_defined.md
U5). -/
theorem exec_of_decoded {c : Config} {w : ReqWord} {i : Instr} {s : State} (hst : s.st = .idle)
    (hd : decodeRequest c w = .ok i) : (∃ t, exec i s = .next t) ∨ exec i s = .refused .bufferTooShort := by
  have hfields := (decodeRequest_ok hd).2
  have hop := decodeFields_isOperation hfields
  by_cases hshort : IsDataOp i (requestFields c w) ∧ s.buf.size < (requestFields c w).len.toNat
  · exact .inr (exec_of_short_buffer hshort.1 hst hshort.2)
  · refine .inl ⟨_, acceptLatchesTheRequest i _ _ s hop hst (fun hi => ?_) fun hi => ?_⟩
    · exact not_lt.1 fun hlt => hshort ⟨hi, hlt⟩
    · exact decodeFields_mode_ne_reserved hfields (by simpa [IsOperation, hi] using hop)

/-- Settles O53: outside IDLE every step has a rule; in IDLE only the offered request can be turned away. -/
theorem acceptedOperationNeverStops : Obligations.AcceptedOperationNeverStops := by
  refine fun s h => ⟨step_answers h, fun hst => ?_⟩
  cases hr : s.rst.head with
  | true =>
    obtain ⟨t, ht⟩ := resetEdge_settles (s := s.tick) fun hw => by simp [hst] at hw
    exact .inl ⟨t, step_of_resetEdge h.legal hr ht⟩
  | false =>
    cases hq : s.requests.head with
    | none => exact .inl ⟨_, idleBlockDoesNothing s h.legal hr hst hq⟩
    | some q =>
      cases hd : decodeRequest s.cfg q.word with
      | error e => exact .inr ⟨q, _, rfl, step_of_offer_error h.legal hr hst hq hd, decodeRequest_error hd⟩
      | ok i =>
        rw [step_of_fetch_run h.legal hr (fetch_of_offer (s := s.tick) hst hq hd)]
        rcases exec_of_decoded (s := s.tick.offer q) hst hd with hnext | hshort
        · exact .inl hnext
        · exact .inr ⟨q, _, rfl, hshort, .inr (.inr (.inr rfl))⟩

end Sys2Proof.Machine

namespace Sys2Proof.Machine

/-! #### Runs -/

/-- Some number of steps leads from `s` to `t`. -/
def Reaches (s t : State) : Prop := ∃ k, runSteps k s = .next t

theorem Reaches.refl (s : State) : Reaches s s := ⟨0, rfl⟩

theorem Reaches.head {s u t : State} (h : step s = .next u) : Reaches u t → Reaches s t :=
  fun ⟨k, hk⟩ => ⟨k + 1, (runSteps_succ h).trans hk⟩

theorem Reaches.single {s t : State} (h : step s = .next t) : Reaches s t := .head h (.refl t)

theorem Reaches.trans {s u t : State} : Reaches s u → Reaches u t → Reaches s t :=
  fun ⟨j, hj⟩ ⟨k, hk⟩ => ⟨j + k, (runSteps_trans hj).trans hk⟩

/-! #### Under a fair environment an accepted Operation ends (R190) -/

theorem Feed.head_of_forall {α : Type} {P : α → Prop} {f : Feed α} (hc : ∀ x ∈ f.coming, P x) (ha : P f.after) :
    P f.head := by
  unfold Feed.head
  cases hf : f.coming with
  | nil => exact ha
  | cons x xs => exact hc x (hf ▸ List.mem_cons_self)

/-- `g` is the input `f`, or `f` after one value of it has been looked at. -/
def Feed.Follows {α : Type} (f g : Feed α) : Prop := g = f ∨ g = f.pop

theorem Feed.Follows.after_eq {α : Type} {f g : Feed α} (h : f.Follows g) : g.after = f.after := by
  rcases h with rfl | rfl <;> rfl

theorem Feed.Follows.mem {α : Type} {f g : Feed α} (h : f.Follows g) {x : α} (hx : x ∈ g.coming) : x ∈ f.coming := by
  rcases h with rfl | rfl
  · exact hx
  · exact List.mem_of_mem_tail hx

theorem Feed.Follows.length_le {α : Type} {f g : Feed α} (h : f.Follows g) : g.coming.length ≤ f.coming.length := by
  rcases h with rfl | rfl
  · exact le_rfl
  · rw [Feed.pop, List.length_tail]; omega

/-- A value that is not the lasting one is one of those still to come, and looking at it leaves one less. -/
theorem Feed.length_pop_lt {α : Type} {f : Feed α} (h : f.head ≠ f.after) :
    f.pop.coming.length < f.coming.length := by
  have hne : f.coming ≠ [] := fun hnil => h (by rw [Feed.head, hnil]; rfl)
  have hpos := List.length_pos_iff.2 hne
  rw [Feed.pop, List.length_tail]
  omega

/-- From `s` to `t` each input of the block has been looked at once at most. -/
structure InputsFollow (s t : State) : Prop where
  rst : s.rst.Follows t.rst
  grants : s.grants.Follows t.grants
  takes : s.takes.Follows t.takes
  fates : s.fates.Follows t.fates

theorem State.Fair.of_follow {s t : State} (h : s.Fair) (hf : InputsFollow s t) : t.Fair where
  rst := ⟨fun b hb => h.rst.1 b (hf.rst.mem hb), hf.rst.after_eq.trans h.rst.2⟩
  grants := hf.grants.after_eq.trans h.grants
  takes := hf.takes.after_eq.trans h.takes
  fates := hf.fates.after_eq ▸ h.fates

theorem State.Fair.rst_head {s : State} (h : s.Fair) : s.rst.head = false := Feed.head_of_forall h.rst.1 h.rst.2

theorem State.FreeAnswers.of_follow {s t : State} (h : s.FreeAnswers) (hf : InputsFollow s t) : t.FreeAnswers :=
  ⟨fun f hm => h.1 f (hf.fates.mem hm), hf.fates.after_eq ▸ h.2⟩

theorem State.FreeAnswers.head {s : State} (h : s.FreeAnswers) : s.fates.head.byChip = false :=
  Feed.head_of_forall h.1 h.2

/-- How many values of its inputs the block can still wait for. -/
def State.waits (s : State) : Nat := s.grants.coming.length + s.takes.coming.length + s.fates.coming.length

theorem InputsFollow.waits_le {s t : State} (h : InputsFollow s t) : t.waits ≤ s.waits := by
  have hg := h.grants.length_le
  have ht := h.takes.length_le
  have hf := h.fates.length_le
  unfold State.waits
  omega

/-- How many frames of the window are still to come after that of the phase, at most (R178, R179). -/
def Phase.framesAfter : Phase → Nat
  | .rdsr => 2
  | .wrsr => 1
  | .data => 0

/-- A bound on the transitions from `s` to IDLE that no delay can raise: a frame takes three (T_ISSUE, its transfer,
T_OK), T_ACQUIRE is one more, and a byte that remains is worth a window of three frames. -/
def State.rank (s : State) : Nat :=
  match s.st with
  | .idle => 0
  | .planning => 10 * 65536 + 12
  | .issuing => 10 * s.remaining.toNat + 3 * s.phase.framesAfter + (if s.owner then 4 else 5)
  | .waiting => 10 * s.remaining.toNat + 3 * s.phase.framesAfter +
      (match s.xfer with
       | .answered _ => 2
       | _ => 3)
  | .complete => 1
  | .failed => 1

/-- The measure of R190's claim: the transitions still to take and the delays still to come. -/
def State.measure (s : State) : Nat := s.rank + s.waits

section Rank

variable {s : State}

theorem State.rank_of_planning (h : s.st = .planning) : s.rank = 10 * 65536 + 12 := by
  simp [State.rank, h]

theorem State.rank_of_owned (h : s.st = .issuing) (ho : s.owner = true) :
    s.rank = 10 * s.remaining.toNat + 3 * s.phase.framesAfter + 4 := by
  simp [State.rank, h, ho]

theorem State.rank_of_unowned (h : s.st = .issuing) (ho : s.owner = false) :
    s.rank = 10 * s.remaining.toNat + 3 * s.phase.framesAfter + 5 := by
  simp [State.rank, h, ho]

theorem State.rank_of_sent {out : List Byte} (h : s.st = .waiting) (hx : s.xfer = .sent out) :
    s.rank = 10 * s.remaining.toNat + 3 * s.phase.framesAfter + 3 := by
  simp [State.rank, h, hx]

theorem State.rank_of_answered {a : Answer} (h : s.st = .waiting) (hx : s.xfer = .answered a) :
    s.rank = 10 * s.remaining.toNat + 3 * s.phase.framesAfter + 2 := by
  simp [State.rank, h, hx]

theorem State.rank_of_ended (h : s.st = .complete ∨ s.st = .failed) : s.rank = 1 := by
  rcases h with h | h <;> simp [State.rank, h]

theorem Phase.framesAfter_le (p : Phase) : p.framesAfter ≤ 2 := by cases p <;> decide

/-- The bus is worth less than the plan it follows. -/
theorem State.rank_issuing_lt (h : s.st = .issuing) : s.rank < 10 * 65536 + 12 := by
  have hp := s.phase.framesAfter_le
  have hr := s.remaining.isLt
  cases ho : s.owner with
  | true => rw [State.rank_of_owned h ho]; omega
  | false => rw [State.rank_of_unowned h ho]; omega

end Rank

/-- The step from `s` to `t` ends the Operation with its result, or it stays in it and comes closer to that. -/
def Nears (s t : State) : Prop :=
  (t.st = .idle ∧ ∃ w, t.delivered = s.delivered ++ [w]) ∨
  (t.st ≠ .idle ∧ t.delivered = s.delivered ∧ t.measure < s.measure)

section Progress

variable {i : Instr} {op : BitVec 3} {r : ReqFields} {s t : State}

theorem Nears.of_rank_lt (hst : t.st ≠ .idle) (hd : t.delivered = s.delivered) (hr : t.rank < s.rank)
    (hf : InputsFollow s t) : Nears s t :=
  .inr ⟨hst, hd, Nat.add_lt_add_of_lt_of_le hr hf.waits_le⟩

theorem Nears.of_waits_lt (hst : t.st ≠ .idle) (hd : t.delivered = s.delivered) (hr : t.rank = s.rank)
    (hw : t.waits < s.waits) : Nears s t :=
  .inr ⟨hst, hd, Nat.add_lt_add_of_le_of_lt hr.le hw⟩

theorem PlanFrame.inputsFollow (h : PlanFrame s t) : InputsFollow s t := by
  rw [h]
  exact ⟨.inl rfl, .inl rfl, .inl rfl, .inl rfl⟩

theorem AnswerFrame.inputsFollow (h : AnswerFrame s t) : InputsFollow s t := by
  rw [h]
  exact ⟨.inl rfl, .inl rfl, .inl rfl, .inl rfl⟩

theorem TransportFrame.inputsFollow (h : TransportFrame s t) : InputsFollow s t := by
  rw [h]
  exact ⟨.inl rfl, .inl rfl, .inl rfl, .inr rfl⟩

theorem operation_answerFrame (h : IsOperation i op r) (he : exec i s = .next t) (hst : s.st = .waiting) :
    AnswerFrame s t := by
  have hframe := operation_frame h he
  simp only [hst, reduceCtorEq, false_and, false_or, or_false, true_and] at hframe
  exact hframe.1

/-- T_PLAN ends the Operation or asks for the bus (R172, 43_status_ops.md R211). -/
theorem plan_nears (hop : IsOperation i s.opL r) (hst : s.st = .planning) (he : exec i s = .next t) :
    InputsFollow s t ∧ Nears s t := by
  have hframe : PlanFrame s t ∧ (t.st = .issuing ∨ t.st = .complete ∨ t.st = .failed) := by
    rcases operation_plan hop hst he with ⟨-, rfl⟩ | ⟨-, b, rfl⟩
    · refine ⟨tPlanData_frame s, ?_⟩
      rcases tPlanData_cases s with ⟨-, ht⟩ | ⟨-, ht⟩ | ⟨-, ht⟩ | ⟨-, ht⟩ <;> rw [ht]
      · exact .inr (.inr rfl)
      · exact .inr (.inr rfl)
      · exact .inr (.inl rfl)
      · exact .inl rfl
    · exact ⟨rfl, .inl rfl⟩
  obtain ⟨hframe, hst'⟩ := hframe
  have hrank : t.rank < s.rank := by
    rw [State.rank_of_planning hst]
    rcases hst' with hissue | hend
    · exact State.rank_issuing_lt hissue
    · rw [State.rank_of_ended hend]; decide
  refine ⟨hframe.inputsFollow, .of_rank_lt (fun hidle => ?_) (by rw [hframe]) hrank hframe.inputsFollow⟩
  simp [hidle] at hst'

/-- T_ISSUE hands the frame over (R174). -/
theorem issue_nears (hop : IsOperation i s.opL r) (hst : s.st = .issuing) (ho : s.owner = true)
    (he : exec i s = .next t) : InputsFollow s t ∧ Nears s t := by
  obtain rfl := operation_issue hop hst ho he
  have hf : InputsFollow s (s.send s.frameOut) := ⟨.inl rfl, .inl rfl, .inl rfl, .inl rfl⟩
  refine ⟨hf, .of_rank_lt (by simp) rfl ?_ hf⟩
  rw [State.rank_of_owned hst ho, State.rank_of_sent rfl rfl]
  exact Nat.lt_succ_self _

/-- T_ACQUIRE takes the grant, or one of the delays of the grant is over (R173). -/
theorem acquire_nears (hg : s.grants.after = true) (hop : IsOperation i op r) (hst : s.st = .issuing)
    (ho : s.owner = false) (he : exec i s = .next t) : InputsFollow s t ∧ Nears s t := by
  obtain ⟨admission, planned, issue, onOk, data, hexec⟩ := hop.exec_eq
  rw [hexec, operation_of_unowned hst ho] at he
  cases he
  rcases tAcquire_cases s with ⟨-, ht⟩ | ⟨hwait, ht⟩ <;> rw [ht]
  · have hf : InputsFollow s s.popGrant.acquire := ⟨.inl rfl, .inr rfl, .inl rfl, .inl rfl⟩
    refine ⟨hf, .of_rank_lt (by simp [hst]) rfl ?_ hf⟩
    rw [State.rank_of_unowned hst ho, State.rank_of_owned (s := s.popGrant.acquire) hst rfl]
    exact Nat.lt_succ_self _
  · have hlt := Feed.length_pop_lt (f := s.grants) (by simp [hwait, hg])
    exact ⟨⟨.inl rfl, .inr rfl, .inl rfl, .inl rfl⟩,
      .of_waits_lt (by simp [hst]) rfl rfl (Nat.add_lt_add_right (Nat.add_lt_add_right hlt _) _)⟩

/-- A chunk that has succeeded leaves less to do, whether or not another one follows (R180). -/
theorem chunkDone_rank_le (hp : s.Progress) (hm : 1 ≤ s.cfg.maxChunk) :
    (chunkDone s).rank ≤ 10 * s.remaining.toNat + 1 := by
  obtain ⟨-, hrem, -⟩ := advance_toNat hp
  have hpos := State.chunkLen_pos hm hp.some_left
  have hle := s.chunkLen_le
  rcases chunkDone_cases s with ⟨-, ht⟩ | ⟨-, ht⟩ <;> rw [ht]
  · rw [State.rank_of_ended (.inl rfl)]
    omega
  · rw [State.rank_of_unowned rfl rfl]
    simp only [State.toPhase_remaining, State.request_remaining, State.release_remaining, State.toPhase_phase,
      Phase.framesAfter, hrem]
    omega

theorem chunkDone_st_ne_idle (s : State) : (chunkDone s).st ≠ .idle := by
  rcases chunkDone_cases s with ⟨-, ht⟩ | ⟨-, ht⟩ <;> rw [ht] <;> simp

/-- T_OK and T_ERR end the frame (R176 to R180, 43_status_ops.md R216). -/
theorem answer_nears {a : Answer} (h : s.Inv) (hop : IsOperation i s.opL r) (hst : s.st = .waiting)
    (hx : s.xfer = .answered a) (he : exec i s = .next t) : InputsFollow s t ∧ Nears s t := by
  have hframe := operation_answerFrame hop he hst
  have ho := h.window hst
  have hm := (Config.legal_bounds h.legal).1
  have hprogress : IsDataOp i r → s.Progress := fun hi => h.progress (.inr hst) (hop.isDataOp_iff.1 hi)
  suffices hnear : t.st ≠ .idle ∧ t.rank < s.rank from
    ⟨hframe.inputsFollow, .of_rank_lt hnear.1 (by rw [hframe]) hnear.2 hframe.inputsFollow⟩
  rw [State.rank_of_answered hst hx]
  have hw := operation_cases hop he
  simp only [hst, reduceCtorEq, false_and, false_or, or_false, true_and] at hw
  rcases hw with ⟨-, hno⟩ | ⟨-, rfl⟩ | ⟨inb, -, ⟨-, hp, rfl⟩ | ⟨-, hp, rfl⟩ | ⟨rfl, -, rfl⟩ | ⟨rfl, -, -, rfl⟩ |
    ⟨-, -, b, rfl⟩ | ⟨-, hp, b, rfl⟩⟩
  · exact absurd hx (hno a)
  · rw [State.rank_of_ended (.inr rfl)]
    exact ⟨by simp [tErr], by omega⟩
  · refine ⟨by simp [okEnsure], ?_⟩
    rw [State.rank_of_owned (s := okEnsure inb s.endTransfer) rfl ho, hp]
    cases hseq : isSequential s.cfg (rdsrData inb) <;> simp [okEnsure, hseq, Phase.framesAfter]
  · refine ⟨by simp, ?_⟩
    rw [State.rank_of_owned (s := s.endTransfer.toPhase .data) rfl ho, hp]
    simp [Phase.framesAfter]
  · have hle := chunkDone_rank_le (s := s.endTransfer) ((hprogress (.inr rfl)).of_eq rfl rfl rfl rfl rfl rfl) hm
    rw [State.endTransfer_remaining] at hle
    exact ⟨chunkDone_st_ne_idle _, by omega⟩
  · have hle := chunkDone_rank_le (s := s.endTransfer.storeChunk inb)
      ((hprogress (.inl rfl)).of_eq rfl rfl rfl rfl rfl rfl) hm
    rw [State.storeChunk, State.setBufBytes_remaining, State.endTransfer_remaining] at hle
    exact ⟨chunkDone_st_ne_idle _, by rw [State.storeChunk]; omega⟩
  · rw [State.rank_of_ended (.inl rfl)]
    exact ⟨by simp [statusDone], by omega⟩
  · refine ⟨by simp, ?_⟩
    rw [State.rank_of_owned (s := (s.endTransfer.setSrTmp b).toPhase .wrsr) rfl ho, hp]
    simp [Phase.framesAfter]

/-- T_REPORT delivers the result, or one of the delays of the caller is over (R182, 70_reset_and_hazards.md R272). -/
theorem report_nears (htakes : s.takes.after = true) (hop : IsOperation i op r)
    (hst : s.st = .complete ∨ s.st = .failed) (he : exec i s = .next t) : InputsFollow s t ∧ Nears s t := by
  have hidle : s.st ≠ .idle := by rcases hst with hst | hst <;> simp [hst]
  rw [hop.exec_ended hst] at he
  cases he
  rcases tReport_cases (successData i) s with ⟨-, ht⟩ | ⟨hwait, ht⟩ <;> rw [ht]
  · exact ⟨⟨.inl rfl, .inl rfl, .inr rfl, .inl rfl⟩, .inl ⟨rfl, _, rfl⟩⟩
  · have hlt := Feed.length_pop_lt (f := s.takes) (by simp [hwait, htakes])
    exact ⟨⟨.inl rfl, .inl rfl, .inr rfl, .inl rfl⟩,
      .of_waits_lt hidle rfl rfl (Nat.add_lt_add_right (Nat.add_lt_add_left hlt _) _)⟩

/-- Every transition of the Operation in the latches brings its result nearer. -/
theorem operation_nears (h : s.Inv) (hfair : s.Fair) (hop : IsOperation i s.opL r) (hidle : s.st ≠ .idle)
    (hx : s.st = .waiting → ∀ out, s.xfer ≠ .sent out) (he : exec i s = .next t) : InputsFollow s t ∧ Nears s t := by
  cases hst : s.st with
  | idle => exact absurd hst hidle
  | planning => exact plan_nears hop hst he
  | issuing =>
    cases ho : s.owner with
    | true => exact issue_nears hop hst ho he
    | false => exact acquire_nears hfair.grants hop hst ho he
  | waiting =>
    rcases h.flight hst with hsent | herr | ⟨inb, hok, -⟩
    · exact absurd hsent (hx hst _)
    · exact answer_nears h hop hst herr he
    · exact answer_nears h hop hst hok he
  | complete => exact report_nears hfair.takes hop (.inl hst) he
  | failed => exact report_nears hfair.takes hop (.inr hst) he

/-- The Transport answers the frame, or one of its delays is over (10_state.md R44). -/
theorem frame_nears {out : List Byte} {f : Instr} (hf : s.fates.after ≠ .busy) (hst : s.st = .waiting)
    (hx : s.xfer = .sent out) (hd : decodeFrame out = .ok f) (he : exec f s = .next t) :
    InputsFollow s t ∧ Nears s t := by
  obtain ⟨len, inb, drawn, after, cut, cutDrawn, rfl, -⟩ := frame_transfer (decodeFrame_not_isOperation hd) he
  have hframe : TransportFrame s (transfer len inb drawn after cut cutDrawn s) := transfer_frame
  refine ⟨hframe.inputsFollow, ?_⟩
  have hanswered : ∀ a, (transfer len inb drawn after cut cutDrawn s).xfer = .answered a →
      Nears s (transfer len inb drawn after cut cutDrawn s) := by
    intro a ha
    have hst' : (transfer len inb drawn after cut cutDrawn s).st = .waiting := by rw [hframe]; exact hst
    refine .of_rank_lt (by simp [hst']) (by rw [hframe]) ?_ hframe.inputsFollow
    rw [State.rank_of_sent hst hx, State.rank_of_answered hst' ha, hframe]
    exact Nat.lt_succ_self _
  rcases transfer_cases len inb drawn after cut cutDrawn s with ⟨hbusy, ht⟩ | ⟨-, ht⟩ | ⟨n, -, ht⟩ | ⟨a, did, -, ht⟩
  · have hlt := Feed.length_pop_lt (f := s.fates) (by rw [hbusy]; exact hf.symm)
    rw [ht]
    exact .of_waits_lt (by simp [hst]) rfl rfl (Nat.add_lt_add_left hlt _)
  · exact hanswered _ (by rw [ht]; rfl)
  · exact hanswered _ (by rw [ht]; rfl)
  · exact hanswered _ (by rw [ht]; rfl)

end Progress

/-- What R190 asks of the chip: nothing (10_state.md R56), or to be the reference chip in agreement with the block. -/
def State.ChipPremise (s : State) : Prop := s.FreeAnswers ∨ s.ReferenceChip ∧ s.ChipAgrees

theorem State.ChipPremise.agrees_or_none {s : State} (h : s.ChipPremise) :
    s.ChipAgrees ∨ s.fates.head.byChip = false :=
  h.elim (fun hfree => .inr hfree.head) fun href => .inl href.2

/-- Under a fair environment each step outside IDLE brings the result nearer, and the premises stay. -/
theorem step_nears {s : State} (h : s.Inv) (hfair : s.Fair) (hc : s.ChipPremise) (hidle : s.st ≠ .idle) :
    ∃ t, step s = .next t ∧ t.Inv ∧ t.Fair ∧ t.ChipPremise ∧ Nears s t := by
  obtain ⟨t, ht⟩ := step_answers h hidle hc.agrees_or_none
  obtain ⟨hinv, hagree⟩ := stepKeepsTheInvariant s t h ht
  have htick : InputsFollow s s.tick := ⟨.inr rfl, .inl rfl, .inl rfl, .inl rfl⟩
  have hfair' : s.tick.Fair := hfair.of_follow htick
  have hnears : InputsFollow s.tick t ∧ Nears s.tick t := by
    rcases step_cases ht with ⟨hr, -⟩ | ⟨-, hst, -⟩ | ⟨-, hst, -⟩ | ⟨-, hst, out, f, hx, hd, he⟩ |
      ⟨-, -, hx, i, hop, he⟩
    · cases hfair.rst_head.symm.trans hr
    · exact absurd hst hidle
    · exact absurd hst hidle
    · exact frame_nears (s := s.tick) hfair.fates hst hx hd he
    · exact operation_nears (s := s.tick) h.tick hfair' hop hidle hx he
  obtain ⟨hfollow, hnear⟩ := hnears
  refine ⟨t, ht, hinv, hfair'.of_follow hfollow, ?_, hnear⟩
  rcases hc with hfree | ⟨href, hc⟩
  · exact .inl (State.FreeAnswers.of_follow (s := s.tick) hfree hfollow)
  · exact .inr (hagree href hc)

/-- Settles O54: the measure falls with every step, so that a step which delivers the result comes. -/
theorem acceptedOperationReachesItsReport : Obligations.AcceptedOperationReachesItsReport := by
  suffices hreach : ∀ (n : Nat) (s : State), s.measure = n → s.Inv → s.Fair → s.ChipPremise → s.st ≠ .idle →
      ∃ t w, Reaches s t ∧ t.st = .idle ∧ t.delivered = s.delivered ++ [w] by
    intro s h hfair hc hidle
    obtain ⟨t, w, ⟨k, hk⟩, hend⟩ := hreach _ s rfl h hfair hc hidle
    exact ⟨k, t, w, hk, hend⟩
  intro n
  induction n using Nat.strong_induction_on with
  | _ n ih =>
    rintro s rfl h hfair hc hidle
    obtain ⟨u, hu, hinv, hfair', hc', ⟨hdone, w, hw⟩ | ⟨hon, hsame, hlt⟩⟩ := step_nears h hfair hc hidle
    · exact ⟨u, w, .single hu, hdone, hw⟩
    · obtain ⟨t, w, hrun, hend, hw⟩ := ih _ hlt u rfl hinv hfair' hc' hon
      exact ⟨t, w, .head hu hrun, hend, hsame ▸ hw⟩

end Sys2Proof.Machine

namespace Sys2Proof.Machine

/-! #### Whole Operations: a prompt environment, and nobody else on the chip (70_reset_and_hazards.md R268) -/

/-- The premises of the statements about whole Operations. -/
structure State.Alone (s : State) : Prop where
  prompt : s.Prompt
  sole : s.SoleUser

theorem State.Alone.of_eq {s t : State} (h : s.Alone) (hrst : t.rst = s.rst) (hgrants : t.grants = s.grants)
    (htakes : t.takes = s.takes) (hfates : t.fates = s.fates) (hothers : t.others = s.others) : t.Alone :=
  ⟨h.prompt.of_eq (.inl hrst) (.inl hgrants) (.inl htakes) (.inl hfates), h.sole.of_eq (.inl hothers)⟩

/-- An input that has one value for ever is not changed by looking at it. -/
theorem Feed.pop_of_constant {α : Type} {f : Feed α} {a : α} (h : f = { coming := [], after := a }) : f.pop = f :=
  h ▸ rfl

section Alone

variable {s : State} (h : s.Alone)
include h

theorem State.Alone.grants_pop : s.grants.pop = s.grants := Feed.pop_of_constant h.prompt.grants

theorem State.Alone.fates_pop : s.fates.pop = s.fates := Feed.pop_of_constant h.prompt.fates

theorem State.Alone.grants_head : s.grants.head = true := by rw [h.prompt.grants]; rfl

theorem State.Alone.fates_head : s.fates.head = .complete := by rw [h.prompt.fates]; rfl

/-- An edge brings nothing with it. -/
theorem State.Alone.tick : s.tick = s := by
  have hrst : s.rst.pop = s.rst := Feed.pop_of_constant h.prompt.rst
  have hothers : (if s.owner then s.others else s.others.pop) = s.others := by
    rw [Feed.pop_of_constant h.sole, ite_self]
  rw [State.tick, hrst, hothers, h.sole.edgeChip]

theorem State.Alone.popTake : s.popTake = s := by
  rw [State.popTake, Feed.pop_of_constant h.prompt.takes]

/-- A step is the enabled transition of the Operation in the latches. -/
theorem State.Alone.step_operation {i : Instr} (hl : s.cfg.legal = true) (hst : s.st ≠ .idle)
    (hx : s.st = .waiting → ∀ out, s.xfer ≠ .sent out) (hd : decodeFields s.opL s.latched = .ok i) :
    step s = exec i s := by
  rw [step_of_operation hl h.prompt.rst_head hst hx hd, h.tick]

/-- A step is the Transport's, with the frame in flight. -/
theorem State.Alone.step_frame {out : List Byte} {f : Instr} (hl : s.cfg.legal = true) (hst : s.st = .waiting)
    (hx : s.xfer = .sent out) (hd : decodeFrame out = .ok f) : step s = exec f s := by
  rw [step_of_fetch_run hl h.prompt.rst_head (fetch_of_sent (s := s.tick) hst hx hd), h.tick]

end Alone

theorem Reaches.inv {s t : State} (h : s.Inv) : Reaches s t → t.Inv := by
  rintro ⟨k, hk⟩
  induction k generalizing s with
  | zero => cases hk; exact h
  | succ k ih =>
    rw [runSteps_eq] at hk
    split at hk
    next u hu => exact ih (stepKeepsTheInvariant s u h hu).1 hk
    all_goals cases hk

/-! #### From T_ISSUE to T_OK -/

/-- The block in WAITING with an answer to its frame, the chip `k` behind the Transport. -/
def State.withAnswer (n : Nat) (k : Chip) (inb : List Byte) (s : State) : State :=
  { s with st := .waiting, draws := n, chip := k, xfer := .answered (.ok inb) }

/-- The frame of the phase is issued, answered, and its answer taken (R174, R176, 10_state.md R44). -/
theorem reaches_of_answer {s t : State} {i f : Instr} {n : Nat} {k : Chip} {inb : List Byte} (h : s.Inv) (ha : s.Alone)
    (hd : decodeFields s.opL s.latched = .ok i) (hst : s.st = .issuing) (ho : s.owner = true)
    (hf : decodeFrame s.frameOut = .ok f) (he : exec f (s.send s.frameOut) = .next (s.withAnswer n k inb).popFate)
    (hok : exec i (s.withAnswer n k inb) = .next t) : Reaches s t := by
  have hop := decodeFields_isOperation hd
  have hissue : step s = .next (s.send s.frameOut) := by
    obtain ⟨u, hu⟩ := issue_answers h hop hst ho
    rw [ha.step_operation h.legal (by simp [hst]) (by simp [hst]) hd, hu, operation_issue hop hst ho hu]
  have hsent : (s.send s.frameOut).Alone := ha.of_eq rfl rfl rfl rfl rfl
  have htransfer := hsent.step_frame h.legal rfl rfl hf
  rw [he, State.popFate, show (s.withAnswer n k inb).fates.pop = s.fates from ha.fates_pop] at htransfer
  have hanswered : (s.withAnswer n k inb).Alone := ha.of_eq rfl rfl rfl rfl rfl
  have htake := hanswered.step_operation h.legal (by simp [State.withAnswer]) (by simp [State.withAnswer]) hd
  exact .head hissue (.head htransfer (.single (htake.trans hok)))

/-! #### The ensure step (R178, R179, R191) -/

/-- The status byte that the ensure step leaves behind (R178, R179). -/
def ensuredSr (c : Config) (b : Byte) : Byte := if modeOf c b = c.modeSeq then b else withMode c b c.modeSeq

theorem modeOf_ensuredSr {c : Config} (h : c.legal = true) (b : Byte) : modeOf c (ensuredSr c b) = c.modeSeq := by
  obtain ⟨-, -, hshift, -⟩ := Config.legal_bounds h
  unfold ensuredSr
  split
  next hseq => exact hseq
  next => exact modeOf_withMode hshift b c.modeSeq

/-- A chip that is in SEQUENTIAL mode is left as it is. -/
theorem ensuredSr_ensuredSr {c : Config} (h : c.legal = true) (b : Byte) :
    ensuredSr c (ensuredSr c b) = ensuredSr c b := if_pos (modeOf_ensuredSr h b)

/-- The block in ISSUING with the frame of phase `p` due. -/
def State.frameDue (p : Phase) (n : Nat) (b : Byte) (k : Chip) (s : State) : State :=
  { s with st := .issuing, phase := p, srTmp := b, xfer := .idle, draws := n, chip := k }

section Window

variable {s : State} {i : Instr} (h : s.Inv) (ha : s.Alone) (hi : IsDataOp i s.latched)
  (hd : decodeFields s.opL s.latched = .ok i) (hst : s.st = .issuing)
include h ha hi hd hst

/-- The ensure step's RDSR frame tells the mode (R178). -/
theorem reaches_of_rdsr (ho : s.owner = true) (hp : s.phase = .rdsr) :
    ∃ n, Reaches s (s.frameDue (if modeOf s.cfg s.chip.sr = s.cfg.modeSeq then .data else .wrsr) n
      (withMode s.cfg s.chip.sr s.cfg.modeSeq) s.chip) := by
  have hframe : s.frameOut = rdsrFrame s.cfg := by rw [State.frameOut, hp]
  obtain ⟨⟨x, n, hrdsr⟩, -⟩ :=
    statusFramesReadAndWriteTheRegister s.cfg.dummy 0#8 (s.send s.frameOut) ha.fates_head
  obtain ⟨hseq, hother⟩ := ensureStepReadsTheMode i _ (s.withAnswer n s.chip [x, s.chip.sr]) x s.chip.sr hi rfl hp rfl
  refine ⟨n, reaches_of_answer h ha hd hst ho (hframe ▸ decodeFrame_rdsrFrame s.cfg) hrdsr ?_⟩
  split
  next hmode => exact hseq hmode
  next hmode => exact hother hmode

/-- The ensure step's WRSR frame sets the mode (R179). -/
theorem reaches_of_wrsr (ho : s.owner = true) (hp : s.phase = .wrsr) :
    ∃ n, Reaches s (s.frameDue .data n s.srTmp { s.chip with sr := s.srTmp }) := by
  have hframe : s.frameOut = wrsrFrame s.srTmp := by rw [State.frameOut, hp]
  obtain ⟨-, x, y, n, hwrsr⟩ :=
    statusFramesReadAndWriteTheRegister 0#8 s.srTmp (s.send s.frameOut) ha.fates_head
  have hok := ensureStepWritesTheMode i _ (s.withAnswer n { s.chip with sr := s.srTmp } [x, y]) x y hi rfl hp rfl
  exact ⟨n, reaches_of_answer h ha hd hst ho (hframe ▸ decodeFrame_wrsrFrame s.srTmp) hwrsr hok⟩

/-- From the start of a window to its data frame: T_ACQUIRE and the ensure step (R173, R178, R179). -/
theorem reaches_dataDue (ho : s.owner = false) (hp : s.phase = .rdsr) :
    ∃ n b, Reaches s (s.acquire.frameDue .data n b { s.chip with sr := ensuredSr s.cfg s.chip.sr }) := by
  have hop := decodeFields_isOperation hd
  have hacquire : Reaches s s.acquire := .single <| by
    rw [ha.step_operation h.legal (by simp [hst]) (by simp [hst]) hd,
      (acquireOnGrantElseWait i _ _ s hop hst ho).2.1 ha.grants_head, ha.grants_pop]
    rfl
  obtain ⟨n, hrdsr⟩ := reaches_of_rdsr (hacquire.inv h) (ha.of_eq rfl rfl rfl rfl rfl) hi hd hst rfl hp
  have hread := hacquire.trans hrdsr
  unfold ensuredSr
  split
  next hmode =>
    rw [if_pos (show modeOf s.acquire.cfg s.acquire.chip.sr = s.acquire.cfg.modeSeq from hmode)] at hread
    exact ⟨_, _, hread⟩
  next hmode =>
    rw [if_neg (show ¬ modeOf s.acquire.cfg s.acquire.chip.sr = s.acquire.cfg.modeSeq from hmode)] at hread
    obtain ⟨n', hwrsr⟩ := reaches_of_wrsr (hread.inv h) (ha.of_eq rfl rfl rfl rfl rfl) hi hd rfl rfl rfl
    exact ⟨_, _, hread.trans hwrsr⟩

end Window

end Sys2Proof.Machine

namespace Sys2Proof.Machine

/-! #### A chunk (R175, R180, R183, R184) -/

/-- `m'` is `m` but for the bytes `lo` to `hi - 1` of a range at address `b`, which are those of the range at address
`a` of `src`. -/
structure Copied (src : Memory) (a b lo hi : Nat) (m m' : Memory) : Prop where
  inside : ∀ j, lo ≤ j → j < hi → m'.read (b + j) = src.read (a + j)
  outside : ∀ k, k < b + lo ∨ b + hi ≤ k → m'.read k = m.read k

/-- Two adjacent parts of a range make one. -/
theorem Copied.trans {src m m' m'' : Memory} {a b lo mid hi : Nat} (h : Copied src a b lo mid m m')
    (h' : Copied src a b mid hi m' m'') (hlo : lo ≤ mid) (hhi : mid ≤ hi) : Copied src a b lo hi m m'' where
  inside j hj hj' := by
    by_cases hmid : j < mid
    · rw [h'.outside _ (by omega), h.inside j hj hmid]
    · exact h'.inside j (by omega) hj'
  outside k hk := by rw [h'.outside k (by omega), h.outside k (by omega)]

/-- From `s` to `t` the bytes number `lo` to `hi - 1` of the request have been moved, and no other byte of the array or
the buffer has changed: by a READ from the chip to the buffer (R183), by a WRITE from the buffer to the chip (R184). -/
def Moved (i : Instr) (lo hi : Nat) (s t : State) : Prop :=
  (∀ r, i = .read r → t.chip.mem = s.chip.mem ∧ t.buf.size = s.buf.size ∧
    Copied s.chip.mem s.addrL.toNat 0 lo hi s.buf.bytes t.buf.bytes) ∧
  (∀ r, i = .write r → t.buf = s.buf ∧ Copied s.buf.bytes 0 s.addrL.toNat lo hi s.chip.mem t.chip.mem)

theorem Moved.trans {i : Instr} {lo mid hi : Nat} {s u t : State} (h : Moved i lo mid s u) (h' : Moved i mid hi u t)
    (haddr : u.addrL = s.addrL) (hlo : lo ≤ mid) (hhi : mid ≤ hi) : Moved i lo hi s t := by
  refine ⟨fun r hr => ?_, fun r hr => ?_⟩
  · obtain ⟨hmem, hsize, hcopy⟩ := h.1 r hr
    obtain ⟨hmem', hsize', hcopy'⟩ := h'.1 r hr
    rw [haddr, hmem] at hcopy'
    exact ⟨hmem'.trans hmem, hsize'.trans hsize, hcopy.trans hcopy' hlo hhi⟩
  · obtain ⟨hbuf, hcopy⟩ := h.2 r hr
    obtain ⟨hbuf', hcopy'⟩ := h'.2 r hr
    rw [haddr, hbuf] at hcopy'
    exact ⟨hbuf'.trans hbuf, hcopy.trans hcopy' hlo hhi⟩

/-- `t` is `s` but for what the frames of a window write before the registers advance (R173 to R179). -/
def WindowFrame (s t : State) : Prop :=
  t = { s with st := t.st, owner := t.owner, phase := t.phase, srTmp := t.srTmp, xfer := .idle, draws := t.draws,
               chip := t.chip, buf := t.buf }

/-- The chip's address of byte `j` of the current chunk is that of the request's range (R180, 20_memory.md R88). -/
theorem State.Progress.chunk_address {s : State} (h : s.Progress) {j : Nat} (hj : j < s.chunkLen) :
    (s.curAddr.toNat % 32768 + j) % 32768 = s.addrL.toNat + (s.done.toNat + j) := by
  have hchip := h.chunk_le_chipSize
  have hcur := h.curAddr
  unfold Config.chipSize at hchip
  omega

/-- A READ chunk whose answer is a range of `src` copies that range to the buffer (R180). -/
theorem storeChunk_copied {s : State} {inb : List Byte} {src : Memory} {a : Nat} (hwf : s.buf.bytes.wf = true)
    (hlen : inb.length = 3 + s.chunkLen)
    (hsrc : ∀ j, j < s.chunkLen → inb[3 + j]? = some (src.read (a + (s.done.toNat + j)))) :
    Copied src a 0 s.done.toNat (s.done.toNat + s.chunkLen) s.buf.bytes (s.storeChunk inb).buf.bytes where
  inside j hj hj' := by
    obtain ⟨k, rfl⟩ := Nat.exists_eq_add_of_le hj
    have hk : k < s.chunkLen := by omega
    rw [Nat.zero_add]
    exact Option.some.inj ((storeChunk_read_of_inside hwf hlen hk).trans (hsrc k hk))
  outside k hk := storeChunk_read_of_outside inb hwf (by omega)

/-- A WRITE chunk that the chip has stored is a copy of the buffer's range (20_memory.md R89). -/
theorem PayloadStored.copied {s : State} {m : Memory} (hp : s.Progress)
    (h : PayloadStored s.curAddr s.chunkBytes s.chip.mem m) :
    Copied s.buf.bytes 0 s.addrL.toNat s.done.toNat (s.done.toNat + s.chunkLen) s.chip.mem m := by
  have hlen : s.chunkBytes.length = s.chunkLen := Memory.readBytes_length ..
  refine ⟨fun j hj hj' => ?_, fun k hk => h.kept k fun j hj => ?_⟩
  · obtain ⟨k, rfl⟩ := Nat.exists_eq_add_of_le hj
    have hk : k < s.chunkLen := by omega
    have hstored := h.stored k (hlen.symm ▸ hk)
    rw [hp.chunk_address hk, List.getElem?_eq_getElem (hlen.symm ▸ hk)] at hstored
    rw [Option.some.inj hstored, Nat.zero_add]
    exact Memory.readBytes_getElem ..
  · rw [hp.chunk_address (hlen ▸ hj)]
    omega

section Chunk

variable {s : State} {i : Instr} (h : s.Inv) (ha : s.Alone) (hst : s.st = .issuing) (ho : s.owner = true)
  (hp : s.phase = .data)
include h ha hst ho hp

/-- A data frame is issued, answered, and the chunk ended (R175, R180). -/
theorem reaches_chunkDone_of_answer {f : Instr} {n : Nat} {k : Chip} {inb : List Byte} (hi : IsDataOp i s.latched)
    (hd : decodeFields s.opL s.latched = .ok i) (hf : decodeFrame s.frameOut = .ok f)
    (he : exec f (s.send s.frameOut) = .next (s.withAnswer n k inb).popFate) (hlen : inb.length = 3 + s.chunkLen) :
    Reaches s (chunkDone ((s.withAnswer n k inb).endTransfer.setBufBytes (chunkStored i inb s))) := by
  have hdata : s.isData := (decodeFields_isOperation hd).isDataOp_iff.1 hi
  have hroom := (h.progress (.inl hst) hdata).chunk_le_size (h.room (by simp [hst]) hdata)
  have hok := exec_of_chunk_answer (s := s.withAnswer n k inb) hi rfl hp rfl hlen hroom
  have hstored : chunkStored i inb (s.withAnswer n k inb) = chunkStored i inb s := by
    rcases hi with rfl | rfl <;> rfl
  rw [hstored] at hok
  exact reaches_of_answer h ha hd hst ho hf he hok

/-- The data frame of a READ (R183, 20_memory.md R88). -/
theorem reaches_readChunk (hd : decodeFields s.opL s.latched = .ok (.read s.latched))
    (hmode : modeOf s.cfg s.chip.sr = s.cfg.modeSeq) :
    ∃ v, Reaches s (chunkDone v) ∧ WindowFrame s v ∧ v.chip.sr = s.chip.sr ∧
      Moved (.read s.latched) s.done.toNat (s.done.toNat + s.chunkLen) s v := by
  have hop : s.opL = 0b000#3 := by simpa [IsOperation] using decodeFields_isOperation hd
  have hprogress := h.progress (.inl hst) (.inl hop)
  have hpos := State.chunkLen_pos (Config.legal_bounds h.legal).1 hprogress.some_left
  have hwf : s.buf.bytes.wf = true := (Bool.and_eq_true_iff.1 h.bufWf).1
  have hframe : s.frameOut = readFrame s.cfg s.curAddr s.chunkLen := by rw [State.frameOut, hp, hop]; rfl
  obtain ⟨x, y, z, n, ptr, he⟩ := readFrameAnswersTheArray s.curAddr (List.replicate s.chunkLen s.cfg.dummy)
    (s.send s.frameOut) (by simpa using hpos) hmode ha.fates_head
  rw [List.length_replicate] at he
  generalize hinb : [x, y, z] ++ List.map _ _ = inb at he
  have hlen : inb.length = 3 + s.chunkLen := by simp [← hinb]; omega
  have hbytes : ∀ j, j < s.chunkLen → inb[3 + j]? = some (s.chip.mem.read (s.addrL.toNat + (s.done.toNat + j))) := by
    intro j hj
    rw [← hinb, ← hprogress.chunk_address hj, List.getElem?_append_right (by simp), List.getElem?_map,
      List.getElem?_range (by simpa using hj)]
    simp
  exact ⟨_, reaches_chunkDone_of_answer h ha hst ho hp (.inl rfl) hd
    (hframe ▸ decodeFrame_readFrame s.cfg s.curAddr hpos) he hlen, rfl, rfl,
    fun _ _ => ⟨rfl, rfl, storeChunk_copied hwf hlen hbytes⟩, nofun⟩

/-- The data frame of a WRITE (R184, 20_memory.md R89). -/
theorem reaches_writeChunk (hd : decodeFields s.opL s.latched = .ok (.write s.latched))
    (hmode : modeOf s.cfg s.chip.sr = s.cfg.modeSeq) :
    ∃ v, Reaches s (chunkDone v) ∧ WindowFrame s v ∧ v.chip.sr = s.chip.sr ∧
      Moved (.write s.latched) s.done.toNat (s.done.toNat + s.chunkLen) s v := by
  have hop : s.opL = 0b001#3 := by simpa [IsOperation] using decodeFields_isOperation hd
  have hprogress := h.progress (.inl hst) (.inr hop)
  have hlen : s.chunkBytes.length = s.chunkLen := Memory.readBytes_length ..
  have hpos := State.chunkLen_pos (Config.legal_bounds h.legal).1 hprogress.some_left
  have hchip : s.curAddr.toNat + s.chunkLen ≤ 32768 := hprogress.chunk_le_chipSize
  have hframe : s.frameOut = writeFrame s.curAddr s.chunkBytes := by rw [State.frameOut, hp, hop]; rfl
  obtain ⟨inb, n, ptr, m, he, hinb, hwf, hstored, hkept⟩ := writeFrameStoresThePayload s.curAddr s.chunkBytes
    (s.send s.frameOut) (by omega) (by omega) hmode ha.fates_head (Chip.wf_iff.1 h.chipWf).1
  exact ⟨_, reaches_chunkDone_of_answer h ha hst ho hp (.inr rfl) hd
    (hframe ▸ decodeFrame_writeFrame s.curAddr (List.ne_nil_of_length_pos (by omega))) he (hlen ▸ hinb), rfl, rfl,
    nofun, fun _ _ => ⟨rfl, PayloadStored.copied hprogress ⟨hwf, hstored, hkept⟩⟩⟩

end Chunk

end Sys2Proof.Machine

namespace Sys2Proof.Machine

/-! #### A window, and all windows of an Operation (R173 to R181) -/

/-- From the start of a window to the end of its chunk (R173 to R180). -/
theorem reaches_chunkDone {s : State} {i : Instr} (h : s.Inv) (ha : s.Alone) (hi : IsDataOp i s.latched)
    (hd : decodeFields s.opL s.latched = .ok i) (hst : s.st = .issuing) (ho : s.owner = false)
    (hp : s.phase = .rdsr) :
    ∃ v, Reaches s (chunkDone v) ∧ WindowFrame s v ∧ v.chip.sr = ensuredSr s.cfg s.chip.sr ∧
      Moved i s.done.toNat (s.done.toNat + s.chunkLen) s v := by
  obtain ⟨n, b, hdue⟩ := reaches_dataDue h ha hi hd hst ho hp
  have hinv := hdue.inv h
  have halone : (s.acquire.frameDue .data n b { s.chip with sr := ensuredSr s.cfg s.chip.sr }).Alone :=
    ha.of_eq rfl rfl rfl rfl rfl
  have hmode := modeOf_ensuredSr h.legal s.chip.sr
  rcases hi with rfl | rfl
  · obtain ⟨v, hrun, hv⟩ := reaches_readChunk hinv halone rfl rfl rfl hd hmode
    exact ⟨v, hdue.trans hrun, hv⟩
  · obtain ⟨v, hrun, hv⟩ := reaches_writeChunk hinv halone rfl rfl rfl hd hmode
    exact ⟨v, hdue.trans hrun, hv⟩

/-- `t` is `s` but for what the transitions of an Operation on the bus and the Transport's steps write: the latches,
the inputs that stay the same in a prompt environment, and the results are those of `s`. -/
def SameOperation (s t : State) : Prop :=
  t = { s with st := t.st, owner := t.owner, curAddr := t.curAddr, remaining := t.remaining, done := t.done,
               phase := t.phase, srTmp := t.srTmp, xfer := t.xfer, chip := t.chip, buf := t.buf,
               ownEdges := t.ownEdges, draws := t.draws }

theorem SameOperation.trans {s u t : State} (h : SameOperation s u) (h' : SameOperation u t) : SameOperation s t := by
  unfold SameOperation at *
  rw [h', h]

theorem SameOperation.alone {s t : State} (h : SameOperation s t) (ha : s.Alone) : t.Alone := by
  rw [h]
  exact ha.of_eq rfl rfl rfl rfl rfl

section SameOperation

variable {s t : State} (h : SameOperation s t)
include h

theorem SameOperation.cfg_eq : t.cfg = s.cfg := by rw [h]

theorem SameOperation.opL_eq : t.opL = s.opL := by rw [h]

theorem SameOperation.addrL_eq : t.addrL = s.addrL := by rw [h]

theorem SameOperation.lenL_eq : t.lenL = s.lenL := by rw [h]

theorem SameOperation.latched_eq : t.latched = s.latched := by rw [h]; rfl

end SameOperation

theorem WindowFrame.sameOperation {s v : State} (h : WindowFrame s v) : SameOperation s (chunkDone v) := by
  unfold WindowFrame at h
  rcases chunkDone_cases v with ⟨-, ht⟩ | ⟨-, ht⟩ <;> rw [ht, h] <;> rfl

/-- The registers that a chunk advances are as they were at the start of its window. -/
theorem WindowFrame.registers {s v : State} (h : WindowFrame s v) :
    v.chunkLen = s.chunkLen ∧ v.remaining = s.remaining ∧ v.done = s.done ∧ v.ownEdges = s.ownEdges := by
  unfold WindowFrame at h
  rw [h]
  exact ⟨rfl, rfl, rfl, rfl⟩

@[simp] theorem chunkDone_chip (s : State) : (chunkDone s).chip = s.chip := by
  rcases chunkDone_cases s with ⟨-, h⟩ | ⟨-, h⟩ <;> rw [h] <;> rfl

theorem State.firstPhase_of_isData {s : State} (h : s.isData) : s.firstPhase = .rdsr := by
  rcases h with h | h <;> simp [State.firstPhase, h]

/-- A window moves one chunk and is followed by COMPLETE or by the start of the next window (R180, R181). -/
theorem reaches_windowEnd {s : State} {i : Instr} (h : s.Inv) (ha : s.Alone) (hi : IsDataOp i s.latched)
    (hd : decodeFields s.opL s.latched = .ok i) (hst : s.st = .issuing) (ho : s.owner = false) :
    ∃ u, Reaches s u ∧ SameOperation s u ∧ u.chip.sr = ensuredSr s.cfg s.chip.sr ∧
      Moved i s.done.toNat (s.done.toNat + s.chunkLen) s u ∧
      ((s.remaining.toNat = s.chunkLen ∧ u.st = .complete ∧ u.ownEdges = s.ownEdges ++ [.fall]) ∨
       (s.remaining.toNat ≠ s.chunkLen ∧ u.st = .issuing ∧ u.owner = false ∧
         u.remaining.toNat = s.remaining.toNat - s.chunkLen ∧ u.done.toNat = s.done.toNat + s.chunkLen ∧
         u.ownEdges = s.ownEdges ++ [.fall] ++ [.rise])) := by
  have hdata : s.isData := (decodeFields_isOperation hd).isDataOp_iff.1 hi
  obtain ⟨-, hrem, hdone⟩ := advance_toNat (h.progress (.inl hst) hdata)
  have hp : s.phase = .rdsr := (h.windowStart hst ho).trans (State.firstPhase_of_isData hdata)
  obtain ⟨v, hrun, hv, hsr, hmoved⟩ := reaches_chunkDone h ha hi hd hst ho hp
  obtain ⟨hlenv, hremv, hdonev, hedgesv⟩ := hv.registers
  refine ⟨chunkDone v, hrun, hv.sameOperation, by rw [chunkDone_chip, hsr], by simpa [Moved] using hmoved, ?_⟩
  by_cases hlast : s.remaining.toNat = s.chunkLen
  · rw [chunkDone_of_last (by rw [hremv, hlenv, hlast]), ← hedgesv]
    exact .inl ⟨hlast, rfl, rfl⟩
  · rw [chunkDone_of_more (by rwa [hremv, hlenv]), hlenv, ← hedgesv, ← hrem, ← hdone, State.advance_remaining,
      State.advance_done, ← hremv, ← hdonev]
    exact .inr ⟨hremv ▸ hlast, rfl, rfl, rfl, rfl, rfl⟩

/-- How many windows `n` bytes take: one for each chunk (41_chunk_planner.md R156). -/
def windowCount (m n : Nat) : Nat := (n + m - 1) / m

theorem windowCount_of_last {m n : Nat} (hn : 1 ≤ n) (hm : n ≤ m) : windowCount m n = 1 :=
  Nat.div_eq_of_lt_le (by omega) (by omega)

theorem windowCount_of_more {m n : Nat} (hm : 1 ≤ m) (h : m ≤ n) : windowCount m n = windowCount m (n - m) + 1 := by
  unfold windowCount
  rw [← Nat.add_div_right _ hm]
  congr 1
  omega

/-- The edges of `own_req` over `k` windows (R181). -/
def windowEdges (k : Nat) : List OwnEdge := (List.replicate k [OwnEdge.rise, .fall]).flatten

theorem windowEdges_succ (k : Nat) : windowEdges (k + 1) = [.rise, .fall] ++ windowEdges k := rfl

/-- From the start of a window to COMPLETE: every byte that remains is moved, chunk by chunk (R180, R181). -/
theorem reaches_complete {i : Instr} : ∀ (n : Nat) (s : State) (e : List OwnEdge), s.remaining.toNat = n → s.Inv →
    s.Alone → IsDataOp i s.latched → decodeFields s.opL s.latched = .ok i → s.st = .issuing → s.owner = false →
    s.ownEdges = e ++ [.rise] →
    ∃ t, Reaches s t ∧ t.st = .complete ∧ SameOperation s t ∧ t.chip.sr = ensuredSr s.cfg s.chip.sr ∧
      Moved i s.done.toNat s.lenL.toNat s t ∧ t.ownEdges = e ++ windowEdges (windowCount s.cfg.maxChunk n) := by
  intro n
  induction n using Nat.strong_induction_on with
  | _ n ih =>
    rintro s e rfl h ha hi hd hst ho hedges
    have hdata : s.isData := (decodeFields_isOperation hd).isDataOp_iff.1 hi
    have hprogress := h.progress (.inl hst) hdata
    have hm := (Config.legal_bounds h.legal).1
    have hpos := State.chunkLen_pos hm hprogress.some_left
    have hle := s.chunkLen_le
    have hleft := hprogress.remaining
    obtain ⟨u, hrun, hsame, hsr, hmoved, ⟨hlast, hend, hedges'⟩ | ⟨hmore, hst', ho', hrem', hdone', hedges'⟩⟩ :=
      reaches_windowEnd h ha hi hd hst ho
    · rw [show s.done.toNat + s.chunkLen = s.lenL.toNat by omega] at hmoved
      refine ⟨u, hrun, hend, hsame, hsr, hmoved, ?_⟩
      rw [windowCount_of_last (by omega) (hlast ▸ s.chunkLen_le_maxChunk), hedges', hedges, List.append_assoc]
      rfl
    · have hchunk : s.chunkLen = s.cfg.maxChunk := by unfold State.chunkLen at hmore ⊢; omega
      have hmax : s.cfg.maxChunk ≤ s.remaining.toNat := hchunk ▸ hle
      rw [hedges, List.append_assoc e] at hedges'
      obtain ⟨t, hrun', hend, hsame', hsr', hmoved', htedges⟩ := ih _ (by omega) u _ hrem' (hrun.inv h)
        (hsame.alone ha) (hsame.latched_eq ▸ hi) (by rwa [hsame.opL_eq, hsame.latched_eq]) hst' ho' hedges'
      rw [hdone', hsame.lenL_eq] at hmoved'
      rw [hsame.cfg_eq, hsr, ensuredSr_ensuredSr h.legal] at hsr'
      refine ⟨t, hrun.trans hrun', hend, hsame.trans hsame', hsr',
        hmoved.trans hmoved' hsame.addrL_eq (by omega) (by omega), ?_⟩
      rw [htedges, hsame.cfg_eq, windowCount_of_more hm hmax, windowEdges_succ, hchunk, List.append_assoc]
      rfl

end Sys2Proof.Machine

namespace Sys2Proof.Machine

/-! #### From request to result (R171, R172, R182) -/

/-- What a READ and a WRITE of `r`, offered as `q` in `s`, have in common when they have succeeded and their result has
been taken (R181, R182). -/
structure Succeeded (q : Request) (r : ReqFields) (s t : State) : Prop where
  inv : t.Inv
  alone : t.Alone
  st : t.st = .idle
  cfg : t.cfg = s.cfg
  requests : t.requests = s.requests.pop
  delivered : t.delivered = s.delivered ++ [0b00#2 ++ 0#16 ++ BitVec.ofNat 16 r.len.toNat ++ 0x00#8]
  ownEdges : t.ownEdges = s.ownEdges ++ windowEdges (windowCount s.cfg.maxChunk r.len.toNat)
  sr : t.chip.sr = ensuredSr s.cfg s.chip.sr

theorem tPlanData_of_chunks {s : State} (h : planCheck s.addrL.toNat s.lenL.toNat = .chunks) :
    tPlanData s = (s.setDone 0#16).loadProgress.request.toPhase .rdsr := by
  rw [tPlanData, h]

section DataOperation

variable {s : State} {q : Request} {i : Instr} {r : ReqFields}

/-- T_ACCEPT and T_PLAN of a READ or WRITE whose range lies in the chip (R171, R172): the first window starts. -/
theorem reaches_firstWindow (h : s.Inv) (ha : s.Alone) (hst : s.st = .idle) (hq : s.requests.head = some q)
    (hd : decodeRequest s.cfg q.word = .ok i) (hi : IsDataOp i r) (hplan : planCheck r.addr.toNat r.len.toNat = .chunks)
    (hroom : r.len.toNat ≤ (q.attach.getD s.buf).size) :
    ∃ op, decodeFields op r = .ok i ∧
      Reaches s (((((s.offer q).accept op r).setDone 0#16).loadProgress.request).toPhase .rdsr) := by
  obtain ⟨op, hfields, haccept⟩ := step_of_offered_dataOp h.legal ha.prompt.rst_head hst hq hd hi hroom
  rw [ha.tick] at haccept
  have ha' : ((s.offer q).accept op r).Alone := ha.of_eq rfl rfl rfl rfl rfl
  have hstep := step_of_planning_dataOp (s := (s.offer q).accept op r) h.legal ha.prompt.rst_head hi hfields rfl
  rw [ha'.tick, tPlanData_of_chunks hplan] at hstep
  exact ⟨op, hfields, .head haccept (.single hstep)⟩

/-- T_REPORT of a READ or WRITE in COMPLETE (R182). -/
theorem reaches_report (h : s.Inv) (ha : s.Alone) (hi : IsDataOp i s.latched)
    (hd : decodeFields s.opL s.latched = .ok i) (hst : s.st = .complete) :
    Reaches s (s.deliver (0b00#2 ++ 0#16 ++ BitVec.ofNat 16 s.lenL.toNat ++ 0x00#8)) := by
  have hdata : s.isData := (decodeFields_isOperation hd).isDataOp_iff.1 hi
  have hdone : s.done = BitVec.ofNat 16 s.lenL.toNat := by
    rw [← h.completeData hst hdata, BitVec.ofNat_toNat, BitVec.setWidth_eq]
  have hstep := step_of_ended_dataOp h.legal ha.prompt.rst_head hi hd (.inl hst) ha.prompt.takes_head
  rw [ha.tick, ha.popTake, resultWord_of_complete hst, hdone] at hstep
  exact .single hstep

/-- A READ or WRITE inside the chip, from request to result (R183, R184). -/
theorem reaches_success (h : s.Inv) (ha : s.Alone) (hst : s.st = .idle) (hq : s.requests.head = some q)
    (hd : decodeRequest s.cfg q.word = .ok i) (hi : IsDataOp i r) (hpos : 1 ≤ r.len.toNat)
    (hend : r.addr.toNat + r.len.toNat ≤ 32768) (hroom : r.len.toNat ≤ (q.attach.getD s.buf).size) :
    ∃ t, Reaches s t ∧ Succeeded q r s t ∧
      Moved i 0 r.len.toNat { s with buf := q.attach.getD s.buf, addrL := r.addr } t := by
  obtain ⟨op, hfields, hfirst⟩ := reaches_firstWindow h ha hst hq hd hi (planCheck_chunks.2 ⟨hpos, hend⟩) hroom
  have hrem : (r.len.setWidth 16).toNat = r.len.toNat := by
    rw [BitVec.toNat_setWidth, Nat.mod_eq_of_lt (by omega)]
  obtain ⟨u, hrun, hst', hsame, hsr, hmoved, hedges⟩ := reaches_complete (i := i) _ _ s.ownEdges rfl (hfirst.inv h)
    (ha.of_eq rfl rfl rfl rfl rfl) hi hfields rfl (h.released (by simp [State.inBus, hst])).owner rfl
  have hrun' := hfirst.trans hrun
  have hi' : IsDataOp i u.latched := hsame.latched_eq ▸ hi
  have hd' : decodeFields u.opL u.latched = .ok i := by rw [hsame.opL_eq, hsame.latched_eq]; exact hfields
  have halone : u.Alone := hsame.alone (ha.of_eq rfl rfl rfl rfl rfl)
  have htotal := hrun'.trans (reaches_report (hrun'.inv h) halone hi' hd' hst')
  obtain ⟨hrequests, hdelivered⟩ : u.requests = s.requests.pop ∧ u.delivered = s.delivered := by
    rw [hsame]; exact ⟨rfl, rfl⟩
  rw [hsame.lenL_eq] at htotal
  refine ⟨_, htotal, ⟨htotal.inv h, halone.of_eq rfl rfl rfl rfl rfl, rfl, hsame.cfg_eq, hrequests,
    congrArg (· ++ _) hdelivered, ?_, hsr⟩, hmoved⟩
  rw [← hrem]
  exact hedges

end DataOperation

/-- Settles O55: a READ copies the range of the array to the buffer. -/
theorem readReturnsTheChipsBytes : Obligations.ReadReturnsTheChipsBytes := by
  intro s q r h hp hsole hst hq hd hpos hend hroom
  obtain ⟨t, ⟨k, hk⟩, hs, hread, -⟩ := reaches_success h ⟨hp, hsole⟩ hst hq hd (.inl rfl) hpos hend hroom
  obtain ⟨hmem, hsize, hinside, houtside⟩ := hread r rfl
  refine ⟨k, t, hk, hs.inv, hs.alone.prompt, hs.alone.sole, hs.st, hs.cfg, hs.requests, hs.delivered, hs.ownEdges, hmem,
    hs.sr, hsize, fun j hj => ?_, fun j hj => houtside j (by omega)⟩
  rw [← hinside j (Nat.zero_le j) hj, Nat.zero_add]

/-- Settles O56: a WRITE copies the range of the buffer to the array. -/
theorem writeStoresTheBuffersBytes : Obligations.WriteStoresTheBuffersBytes := by
  intro s q r h hp hsole hst hq hd hpos hend hroom
  obtain ⟨t, ⟨k, hk⟩, hs, -, hwrite⟩ := reaches_success h ⟨hp, hsole⟩ hst hq hd (.inr rfl) hpos hend hroom
  obtain ⟨hbuf, hinside, houtside⟩ := hwrite r rfl
  refine ⟨k, t, hk, hs.inv, hs.alone.prompt, hs.alone.sole, hs.st, hs.cfg, hs.requests, hs.delivered, hs.ownEdges, hbuf,
    hs.sr, fun j hj => ?_, fun b hb => houtside b (by simpa using hb)⟩
  rw [hinside j (Nat.zero_le j) hj, Nat.zero_add]

/-- Settles O57: what the READ finds in the array is what the WRITE has put there. -/
theorem writeThenReadReturnsTheBytes : Obligations.WriteThenReadReturnsTheBytes := by
  intro s q q' rest r r' h hp hsole hst hq hd hd' haddr hlen hpos hend hroom hroom'
  obtain ⟨k, u, hrun, hinv, hprompt, hsole', hidle, hcfg, hrequests, hdelivered, -, hbuf, -, hstored, -⟩ :=
    writeStoresTheBuffersBytes s q r h hp hsole hst (by rw [Feed.head, hq]; rfl) hd hpos hend hroom
  have hq' : u.requests.head = some q' := by rw [hrequests, Feed.head, Feed.pop, hq]; rfl
  obtain ⟨k', t, hrun', -, -, -, hidle', -, hrequests', hdelivered', -, -, -, hsize, hread, hkept⟩ :=
    readReturnsTheChipsBytes u q' r' hinv hprompt hsole' hidle hq' (by rwa [hcfg]) (by rwa [hlen])
      (by rwa [haddr, hlen]) (by rwa [hlen, hbuf])
  rw [hbuf] at hsize hkept
  rw [hlen] at hread hkept hdelivered'
  rw [haddr] at hread
  refine ⟨k + k', t, (runSteps_trans hrun).trans hrun', hidle', ?_, ?_, hsize,
    fun j hj => (hread j hj).trans (hstored j hj), hkept⟩
  · rw [hrequests', hrequests, Feed.pop, Feed.pop, hq]
    rfl
  · rw [hdelivered', hdelivered, List.append_assoc]
    rfl

end Sys2Proof.Machine

namespace Sys2Proof.Machine

/-! #### The transitions of the status operations (43_status_ops.md R211, R216) -/

/-- Settles O15: each status operation has one T_PLAN, which looks at nothing. -/
theorem planOfStatusOperations : Obligations.PlanOfStatusOperations :=
  fun _ _ hst => ⟨operation_of_planning hst, operation_of_planning hst, operation_of_planning hst,
    operation_of_planning hst⟩

/-- T_ISSUE of the four status operations is one frame selection (R216). -/
theorem IsOperation.exec_owned_of_status {i : Instr} {op : BitVec 3} {r : ReqFields} {s : State}
    (h : IsOperation i op r) (hstatus : ¬ IsDataOp i r) (hst : s.st = .issuing) (ho : s.owner = true) :
    exec i s = issueStatus s := by
  rcases h with ⟨rfl, rfl⟩ | ⟨rfl, rfl⟩ | ⟨rfl, rfl⟩ | ⟨rfl, rfl⟩ | ⟨rfl, rfl⟩ | ⟨rfl, rfl⟩
  · exact absurd (.inl rfl) hstatus
  · exact absurd (.inr rfl) hstatus
  all_goals exact operation_of_owned hst ho

/-- Settles O18: with the bus owned the frame selection sends the frame of the phase. -/
theorem issueOfStatusOperations : Obligations.IssueOfStatusOperations := by
  intro i op r s h hstatus hst ho
  have hissue := h.exec_owned_of_status hstatus hst ho
  exact ⟨fun hp => hissue.trans (issueData_of_rdsr hp), fun hp => hissue.trans (issueData_of_wrsr hp)⟩

/-- Settles O22: an answer of two bytes has the length of the frame, and R216 has one row for each operation and
phase. -/
theorem statusAnswersAreTaken : Obligations.StatusAnswersAreTaken := by
  intro r s x b hst hx
  refine ⟨fun hp => ?_, fun hp => ?_⟩ <;>
    have hlen : [x, b].length = s.frameLen := (frameLen_of_ne_data (by simp [hp])).symm
  · exact ⟨(operation_of_ok hst hx hlen).trans (okGet_of_rdsr (s := s.endTransfer) hp),
      (operation_of_ok hst hx hlen).trans (okGet_of_rdsr (s := s.endTransfer) hp),
      (operation_of_ok hst hx hlen).trans (okSetMode_of_rdsr (s := s.endTransfer) hp)⟩
  · exact ⟨(operation_of_ok hst hx hlen).trans (okSetStatus_of_wrsr (s := s.endTransfer) hp),
      (operation_of_ok hst hx hlen).trans (okSetMode_of_wrsr (s := s.endTransfer) hp)⟩

end Sys2Proof.Machine

namespace Sys2Proof.Machine

/-! #### A status operation from request to result (43_status_ops.md R212 to R215, R217) -/

/-- An instruction is one operation, with one set of fields. -/
theorem IsOperation.unique {i : Instr} {op op' : BitVec 3} {r r' : ReqFields} (h : IsOperation i op r)
    (h' : IsOperation i op' r') : r = r' ∧ op' = op := by
  rcases h with ⟨rfl, rfl⟩ | ⟨rfl, rfl⟩ | ⟨rfl, rfl⟩ | ⟨rfl, rfl⟩ | ⟨rfl, rfl⟩ | ⟨rfl, rfl⟩ <;>
    simpa [IsOperation] using h'

/-- The fields of an offered operation are those its word decodes to. -/
theorem decodeFields_of_decodeRequest {c : Config} {w : ReqWord} {i : Instr} {op : BitVec 3} {r : ReqFields}
    (hd : decodeRequest c w = .ok i) (hop : IsOperation i op r) : decodeFields op r = .ok i := by
  obtain ⟨-, hfields⟩ := decodeRequest_ok hd
  obtain ⟨hr, hcode⟩ := hop.unique (decodeFields_isOperation hfields)
  rwa [← hr, hcode] at hfields

/-- A status operation in the latches, in a prompt environment and with the block as the chip's sole user. -/
structure State.RunsStatus (i : Instr) (s : State) : Prop where
  legal : s.cfg.legal = true
  alone : s.Alone
  decodes : decodeFields s.opL s.latched = .ok i
  status : ¬ IsDataOp i s.latched

section RunsStatus

variable {s : State} {i : Instr} (h : s.RunsStatus i)
include h

theorem State.RunsStatus.isOperation : IsOperation i s.opL s.latched := decodeFields_isOperation h.decodes

theorem State.RunsStatus.of_eq {t : State} (hcfg : t.cfg = s.cfg) (hopL : t.opL = s.opL)
    (hlatched : t.latched = s.latched) (halone : t.Alone) : t.RunsStatus i :=
  ⟨hcfg ▸ h.legal, halone, by rw [hopL, hlatched, h.decodes], hlatched ▸ h.status⟩

theorem State.RunsStatus.step_eq (hst : s.st ≠ .idle) (hx : s.st = .waiting → ∀ out, s.xfer ≠ .sent out) :
    step s = exec i s := h.alone.step_operation h.legal hst hx h.decodes

/-- T_ACQUIRE (42_sequencer_data_ops.md R173). -/
theorem State.RunsStatus.step_acquire (hst : s.st = .issuing) (ho : s.owner = false) : step s = .next s.acquire := by
  rw [h.step_eq (by simp [hst]) (by simp [hst]),
    (acquireOnGrantElseWait i _ _ s h.isOperation hst ho).2.1 h.alone.grants_head, h.alone.grants_pop]
  rfl

/-- T_REPORT of a success (R182, R217). -/
theorem State.RunsStatus.step_complete (hst : s.st = .complete) :
    step s = .next (s.deliver (packResult (ErrKind.code .ok) 0#16 s.done (successData i s))) := by
  rw [h.step_eq (by simp [hst]) (by simp [hst]), h.isOperation.exec_ended (.inl hst),
    tReport_of_take h.alone.prompt.takes_head, h.alone.popTake, resultWord_of_complete hst]

/-- A frame is issued, answered, and its answer taken, in three steps (R174, R176, 10_state.md R44). -/
theorem State.RunsStatus.runSteps_of_answer {t : State} {out : List Byte} {f : Instr} {n : Nat} {k : Chip}
    {inb : List Byte} (hst : s.st = .issuing) (hissue : exec i s = .next (s.send out)) (hf : decodeFrame out = .ok f)
    (he : exec f (s.send out) = .next (s.withAnswer n k inb).popFate) (hok : exec i (s.withAnswer n k inb) = .next t) :
    runSteps 3 s = .next t := by
  have hsend : step s = .next (s.send out) := by rw [h.step_eq (by simp [hst]) (by simp [hst]), hissue]
  have hsent : (s.send out).Alone := h.alone.of_eq rfl rfl rfl rfl rfl
  have htransfer := hsent.step_frame h.legal rfl rfl hf
  rw [he, State.popFate, show (s.withAnswer n k inb).fates.pop = s.fates from h.alone.fates_pop] at htransfer
  have hanswered : (s.withAnswer n k inb).RunsStatus i := h.of_eq rfl rfl rfl (h.alone.of_eq rfl rfl rfl rfl rfl)
  have htake : step (s.withAnswer n k inb) = .next t := by
    rw [hanswered.step_eq (by simp [State.withAnswer]) (by simp [State.withAnswer]), hok]
  exact (runSteps_succ hsend).trans ((runSteps_succ htransfer).trans (runSteps_succ htake))

variable (hst : s.st = .issuing) (ho : s.owner = true)
include hst ho

/-- The RDSR frame of a status operation brings the status byte (R216, 20_memory.md R90). -/
theorem State.RunsStatus.runSteps_of_rdsr (hp : s.phase = .rdsr) :
    ∃ x n, ∀ t, exec i (s.withAnswer n s.chip [x, s.chip.sr]) = .next t → runSteps 3 s = .next t := by
  obtain ⟨⟨x, n, he⟩, -⟩ :=
    statusFramesReadAndWriteTheRegister s.cfg.dummy 0#8 (s.send (rdsrFrame s.cfg)) h.alone.fates_head
  have hissue := (issueOfStatusOperations i _ _ s h.isOperation h.status hst ho).1 hp
  exact ⟨x, n, fun t => h.runSteps_of_answer hst hissue (decodeFrame_rdsrFrame s.cfg) he⟩

/-- The WRSR frame of a status operation makes `sr_tmp` the status byte (R216, 20_memory.md R91). -/
theorem State.RunsStatus.runSteps_of_wrsr (hp : s.phase = .wrsr) :
    ∃ x y n, ∀ t, exec i (s.withAnswer n { s.chip with sr := s.srTmp } [x, y]) = .next t → runSteps 3 s = .next t := by
  obtain ⟨-, x, y, n, he⟩ :=
    statusFramesReadAndWriteTheRegister 0#8 s.srTmp (s.send (wrsrFrame s.srTmp)) h.alone.fates_head
  have hissue := (issueOfStatusOperations i _ _ s h.isOperation h.status hst ho).2 hp
  exact ⟨x, y, n, fun t => h.runSteps_of_answer hst hissue (decodeFrame_wrsrFrame s.srTmp) he⟩

end RunsStatus

/-- After `k` steps the result (OK, 0, 1, `data`) has been taken, the chip is `c`, and `own_req` has made the edges
`e`. -/
def Delivers (k : Nat) (c : Chip) (e : List OwnEdge) (data : Byte) (s : State) : Prop :=
  ∃ t, runSteps k s = .next t ∧ t.st = .idle ∧ t.chip = c ∧ t.ownEdges = s.ownEdges ++ e ∧
    t.delivered = s.delivered ++ [0b00#2 ++ 0#16 ++ 1#16 ++ data]

theorem Delivers.after {j k : Nat} {c : Chip} {e e' : List OwnEdge} {data : Byte} {s u : State}
    (h : Delivers k c e' data u) (hrun : runSteps j s = .next u) (hedges : u.ownEdges = s.ownEdges ++ e)
    (hdelivered : u.delivered = s.delivered) : Delivers (j + k) c (e ++ e') data s := by
  obtain ⟨t, hrun', hst, hchip, hedges', hdelivered'⟩ := h
  exact ⟨t, (runSteps_trans hrun).trans hrun', hst, hchip, by rw [hedges', hedges, List.append_assoc],
    by rw [hdelivered', hdelivered]⟩

section Window

variable {s : State} {i : Instr} {r : ReqFields}

/-- T_REPORT of a status operation whose last frame has succeeded (R216, R217, 42_sequencer_data_ops.md R182). -/
theorem delivers_of_complete {t : State} {k : Nat} {c : Chip} {e : List OwnEdge} {data : Byte} (h : s.RunsStatus i)
    (hrun : runSteps k s = .next t) (hsame : SameOperation s t) (hst : t.st = .complete) (hdone : t.done = 1#16)
    (hchip : t.chip = c) (hedges : t.ownEdges = s.ownEdges ++ e) (hdata : successData i t = data) :
    Delivers (k + 1) c e data s := by
  have ht : t.RunsStatus i := h.of_eq hsame.cfg_eq hsame.opL_eq hsame.latched_eq (hsame.alone h.alone)
  have hreport := ht.step_complete hst
  rw [hdone, hdata] at hreport
  have hdelivered : t.delivered = s.delivered := by rw [hsame]
  exact ⟨_, (runSteps_trans hrun).trans (runSteps_succ hreport), rfl, hchip, hedges, congrArg (· ++ _) hdelivered⟩

/-- GETSTATUS and GETMODE with the bus owned: the byte read is what they report from (R212, R214). -/
theorem delivers_of_rdsr (h : s.RunsStatus i) (hi : i = .getStatus r ∨ i = .getMode r) (hst : s.st = .issuing)
    (ho : s.owner = true) (hp : s.phase = .rdsr) :
    Delivers 4 s.chip [.fall] (successData i (s.setSrTmp s.chip.sr)) s := by
  obtain ⟨x, n, hrun⟩ := h.runSteps_of_rdsr hst ho hp
  obtain ⟨hstatus, hmode, -⟩ :=
    (statusAnswersAreTaken r (s.withAnswer n s.chip [x, s.chip.sr]) x s.chip.sr rfl rfl).1 hp
  rcases hi with rfl | rfl
  · exact delivers_of_complete h (hrun _ hstatus) rfl rfl rfl rfl rfl rfl
  · exact delivers_of_complete h (hrun _ hmode) rfl rfl rfl rfl rfl rfl

/-- SETSTATUS and SETMODE with the bus owned and the byte to be written in `sr_tmp` (R213, R215). -/
theorem delivers_of_wrsr (h : s.RunsStatus i) (hi : i = .setStatus r ∨ i = .setMode r) (hst : s.st = .issuing)
    (ho : s.owner = true) (hp : s.phase = .wrsr) :
    Delivers 4 { s.chip with sr := s.srTmp } [.fall] s.srTmp s := by
  obtain ⟨x, y, n, hrun⟩ := h.runSteps_of_wrsr hst ho hp
  obtain ⟨hstatus, hmode⟩ :=
    (statusAnswersAreTaken r (s.withAnswer n { s.chip with sr := s.srTmp } [x, y]) x y rfl rfl).2 hp
  rcases hi with rfl | rfl
  · exact delivers_of_complete h (hrun _ hstatus) rfl rfl rfl rfl rfl rfl
  · exact delivers_of_complete h (hrun _ hmode) rfl rfl rfl rfl rfl rfl

/-- SETMODE with the bus owned: the byte read is written with its MODE field replaced (R215). -/
theorem delivers_of_setMode (h : s.RunsStatus (.setMode r)) (hst : s.st = .issuing) (ho : s.owner = true)
    (hp : s.phase = .rdsr) :
    Delivers 7 { s.chip with sr := withMode s.cfg s.chip.sr (s.dataL.setWidth 2) } [.fall]
      (withMode s.cfg s.chip.sr (s.dataL.setWidth 2)) s := by
  obtain ⟨x, n, hrun⟩ := h.runSteps_of_rdsr hst ho hp
  obtain ⟨-, -, hmode⟩ := (statusAnswersAreTaken r (s.withAnswer n s.chip [x, s.chip.sr]) x s.chip.sr rfl rfl).1 hp
  have hread : runSteps 3 s = .next (s.frameDue .wrsr n (withMode s.cfg s.chip.sr (s.dataL.setWidth 2)) s.chip) :=
    hrun _ hmode
  have hdue := h.of_eq (t := s.frameDue .wrsr n (withMode s.cfg s.chip.sr (s.dataL.setWidth 2)) s.chip) rfl rfl rfl
    (h.alone.of_eq rfl rfl rfl rfl rfl)
  exact (delivers_of_wrsr hdue (.inr rfl) rfl ho rfl).after hread (List.append_nil _).symm rfl

end Window

/-- A status operation after T_PLAN: its window starts in phase `p` with `b` in `sr_tmp` (R211). -/
def State.windowDue (p : Phase) (b : Byte) (s : State) : State := ((s.setDone 0#16).setSrTmp b).request.toPhase p

/-- `t` is `s` with the status operation `i` of `r` in the latches and the bus acquired for it; the frame of phase `p` is
due, with `b` in `sr_tmp`. -/
structure WindowOpen (i : Instr) (r : ReqFields) (p : Phase) (b : Byte) (s t : State) : Prop where
  runs : t.RunsStatus i
  st : t.st = .issuing
  owner : t.owner = true
  phase : t.phase = p
  srTmp : t.srTmp = b
  cfg : t.cfg = s.cfg
  dataL : t.dataL = r.data
  chip : t.chip = s.chip
  ownEdges : t.ownEdges = s.ownEdges ++ [.rise]
  delivered : t.delivered = s.delivered

/-- T_ACCEPT, T_PLAN and T_ACQUIRE of an offered status operation (R211, 42_sequencer_data_ops.md R171, R173). -/
theorem runSteps_offered_status {s : State} {q : Request} {i : Instr} {op : BitVec 3} {r : ReqFields} {p : Phase}
    {b : Byte} (h : s.Inv) (ha : s.Alone) (hst : s.st = .idle) (hq : s.requests.head = some q)
    (hd : decodeRequest s.cfg q.word = .ok i) (hop : IsOperation i op r) (hstatus : ¬ IsDataOp i r)
    (hplan : exec i ((s.offer q).accept op r) = .next (((s.offer q).accept op r).windowDue p b)) :
    ∃ t, runSteps 3 s = .next t ∧ WindowOpen i r p b s t := by
  have hfields := decodeFields_of_decodeRequest hd hop
  have haccept : step s = .next ((s.offer q).accept op r) := by
    rw [step_of_fetch_run h.legal ha.prompt.rst_head (fetch_of_offer (s := s.tick) hst hq hd), ha.tick]
    exact acceptLatchesTheRequest i op r (s.offer q) hop hst (absurd · hstatus)
      fun hi => decodeFields_mode_ne_reserved hfields (by simpa [IsOperation, hi] using hop)
  have hlatched : ((s.offer q).accept op r).RunsStatus i :=
    ⟨h.legal, ha.of_eq rfl rfl rfl rfl rfl, hfields, hstatus⟩
  have hplanned := (hlatched.step_eq nofun nofun).trans hplan
  have hdue : (((s.offer q).accept op r).windowDue p b).RunsStatus i :=
    hlatched.of_eq rfl rfl rfl (hlatched.alone.of_eq rfl rfl rfl rfl rfl)
  have hacquire := hdue.step_acquire rfl (h.released (by simp [State.inBus, hst])).owner
  exact ⟨_, (runSteps_succ haccept).trans ((runSteps_succ hplanned).trans (runSteps_succ hacquire)),
    hdue.of_eq rfl rfl rfl (hdue.alone.of_eq rfl rfl rfl rfl rfl), rfl, rfl, rfl, rfl, rfl, rfl, rfl, rfl, rfl⟩

/-- Settles O59: three steps open the window, then comes one frame or, for SETMODE, two, and the report. -/
theorem statusOperationsEndToEnd : Obligations.StatusOperationsEndToEnd := by
  intro s q i r h hp hsole hst hq hd
  have hopen {op p b} hplan (hop : IsOperation i op r) hstatus :=
    runSteps_offered_status (p := p) (b := b) h ⟨hp, hsole⟩ hst hq hd hop hstatus hplan
  have hplanned op := planOfStatusOperations r ((s.offer q).accept op r) rfl
  refine ⟨?_, ?_, ?_, ?_⟩ <;> rintro rfl
  · obtain ⟨hgetStatus, -⟩ := hplanned 0b010#3
    obtain ⟨t, hrun, ht⟩ := hopen hgetStatus (by simp [IsOperation]) nofun
    have hend := delivers_of_rdsr ht.runs (.inl rfl) ht.st ht.owner ht.phase
    rw [ht.chip] at hend
    exact hend.after hrun ht.ownEdges ht.delivered
  · obtain ⟨-, -, -, hsetStatus⟩ := hplanned 0b011#3
    obtain ⟨t, hrun, ht⟩ := hopen hsetStatus (by simp [IsOperation]) nofun
    have hend := delivers_of_wrsr ht.runs (.inl rfl) ht.st ht.owner ht.phase
    rw [ht.chip, ht.srTmp] at hend
    exact hend.after hrun ht.ownEdges ht.delivered
  · obtain ⟨-, hgetMode, -⟩ := hplanned 0b100#3
    obtain ⟨t, hrun, ht⟩ := hopen hgetMode (by simp [IsOperation]) nofun
    have hend := delivers_of_rdsr ht.runs (.inr rfl) ht.st ht.owner ht.phase
    rw [ht.chip, successData, State.setSrTmp_cfg, ht.cfg] at hend
    exact hend.after hrun ht.ownEdges ht.delivered
  · obtain ⟨-, -, hsetMode, -⟩ := hplanned 0b101#3
    obtain ⟨t, hrun, ht⟩ := hopen hsetMode (by simp [IsOperation]) nofun
    have hend := delivers_of_setMode ht.runs ht.st ht.owner ht.phase
    rw [ht.chip, ht.cfg, ht.dataL] at hend
    exact hend.after hrun ht.ownEdges ht.delivered

end Sys2Proof.Machine

namespace Sys2Proof.Machine

/-! #### FAILED is left only by the report (60_exceptions.md R237, R239) -/

theorem tReport_of_not_taken {data : State → Byte} {s : State} (h : s.takes.head = false) :
    tReport data s = s.popTake := by
  simp [tReport, h]

/-- An edge in FAILED at which the caller does not take the result (70_reset_and_hazards.md R272). -/
theorem step_of_failed_held {s : State} (h : s.Inv) (hst : s.st = .failed) (hr : s.rst.head = false)
    (htake : s.takes.head = false) : step s = .next s.tick.popTake := by
  obtain ⟨i, hd⟩ := h.current (by simp [hst])
  rw [step_of_operation h.legal hr (by simp [hst]) (by simp [hst]) hd,
    (decodeFields_isOperation hd).exec_ended (s := s.tick) (.inr hst), tReport_of_not_taken (s := s.tick) htake]

/-- With the bus not owned, what other masters do at the edge is looked at (70_reset_and_hazards.md R268). -/
theorem State.tick_of_not_owner {s : State} (ho : s.owner = false) :
    s.tick = { s with rst := s.rst.pop, others := s.others.pop, chip := s.edgeChip } := by
  simp [State.tick, ho]

/-- Settles O49: the bus is released in FAILED, and its one transition holds the result or delivers it. -/
theorem failureIsLeftOnlyByTheReport : Obligations.FailureIsLeftOnlyByTheReport := by
  intro s t h hst hr hstep
  have hreleased : s.Released := h.released (by simp [State.inBus, hst])
  have htick := State.tick_of_not_owner hreleased.owner
  obtain ⟨hchip, -⟩ := step_chip_of_no_frame hstep (.inl (by simp [hst]))
  refine ⟨hreleased.owner, hreleased.xfer, fun hnone => hchip.trans (State.edgeChip_of_none hnone), fun htake => ?_,
    fun htake => ?_⟩
  · rw [step_of_failed_held h hst hr htake, htick] at hstep
    exact (Host.Outcome.next.inj hstep).symm
  · rw [step_of_failed h hst hr htake, htick] at hstep
    exact (Host.Outcome.next.inj hstep).symm

end Sys2Proof.Machine

/-! ### Reset and waiting (70_reset_and_hazards.md) -/

namespace Sys2Proof.Machine

/-! #### What the block refuses, holds and waits for (R266, R271, R272) -/

/-- Settles O36: one comparison refuses READ and WRITE or lets T_ACCEPT happen, before any plan is made. -/
theorem shortBufferIsRefused : Obligations.ShortBufferIsRefused := by
  intro i r s hi hst
  refine ⟨fun hrefused => ?_, exec_of_short_buffer hi hst⟩
  by_contra hroom
  obtain ⟨op, issue, onOk, -, hexec⟩ := hi.exec_eq
  rw [hexec, operation_of_idle hst (admitData_none.2 (not_lt.1 hroom))] at hrefused
  cases hrefused

/-- Settles O25: T_REPORT is the only transition in COMPLETE and FAILED, and it waits for the caller. -/
theorem resultIsHeldUntilTaken : Obligations.ResultIsHeldUntilTaken := by
  intro i op r s h hst htake
  rw [h.exec_ended hst, tReport_of_not_taken htake]
  rfl

theorem tAnswer_of_sent {onOk : List Byte → State → Result} {s : State} {out : List Byte} (hx : s.xfer = .sent out) :
    tAnswer onOk s = .next s := by
  rw [tAnswer, hx]

/-- Settles O26: in WAITING every operation looks at the answer, and there is none. -/
theorem blockWaitsForTheAnswer : Obligations.BlockWaitsForTheAnswer := by
  intro i op r s out h hst hx
  obtain ⟨admission, planned, issue, onOk, data, hexec⟩ := h.exec_eq
  rw [hexec, operation_of_waiting hst, tAnswer_of_sent hx]

/-! #### A reset edge with no frame in flight (R260, R263) -/

theorem resetEdge_of_no_frame {s : State} (hx : s.st ≠ .waiting ∨ ∀ out, s.xfer ≠ .sent out) :
    resetEdge s = .settle (resetBlock s) := by
  unfold resetEdge
  split
  next out hst hsent => exact absurd hsent (hx.resolve_left (not_not_intro hst) out)
  next => rfl

/-- `own_req` falls at a reset edge exactly if it was high (R262, 10_state.md R38). -/
theorem resetBlock_ownEdges (s : State) :
    (resetBlock s).ownEdges = if s.st = .issuing ∨ s.owner = true then s.ownEdges ++ [.fall] else s.ownEdges :=
  if_congr s.ownReq_iff rfl rfl

/-- The latches that a reset edge leaves are within the configured widths (10_state.md R55). -/
theorem resetBlock_latches_lt {s : State} (hl : s.cfg.legal = true) :
    (resetBlock s).addrL.toNat < 2 ^ s.cfg.addrW ∧ (resetBlock s).lenL.toNat < 2 ^ s.cfg.lenW := by
  have hfit : (resetBlock s).latched.fit s.cfg = true := scramble_latched_fit (s := s.quiesce) hl
  obtain ⟨hlen, haddr⟩ := Bool.and_eq_true_iff.1 hfit
  exact ⟨of_decide_eq_true haddr, of_decide_eq_true hlen⟩

/-- Settles O39: the edge consumes its inputs, then the block is reset and everything else stays. -/
theorem resetEdgeResetsTheBlock : Obligations.ResetEdgeResetsTheBlock := by
  intro s hl hr hx
  have hstep : step s = .next (resetBlock s.tick) := step_of_resetEdge hl hr (resetEdge_of_no_frame (s := s.tick) hx)
  have hchip : s.owner = true ∨ s.others.head = none → (resetBlock s.tick).chip = s.chip := fun hquiet =>
    hquiet.elim State.edgeChip_of_owner State.edgeChip_of_none
  exact ⟨_, hstep, rfl, rfl, rfl, rfl, rfl, rfl, rfl, hchip, rfl, rfl, rfl, rfl, rfl, resetBlock_ownEdges s.tick, rfl,
    rfl, rfl, resetBlock_latches_lt (s := s.tick) hl⟩

/-! #### A reset edge with a frame in flight (R262, 20_memory.md R92) -/

/-- What the frame `i` may leave of the reference chip `k` when it is carried out, fails or is cut: of a WRITE a
leading part of the payload is stored, of a WRSR the old byte or the new one (R88 to R92). -/
def FrameLeaves (i : Instr) (k k' : Chip) : Prop :=
  match i with
  | .frameRdsr _ => k' = k
  | .frameRead _ _ => k'.mem = k.mem ∧ k'.sr = k.sr
  | .frameWrsr v => k'.mem = k.mem ∧ (k'.sr = k.sr ∨ k'.sr = v)
  | .frameWrite a p => k'.sr = k.sr ∧ ∃ n, k'.mem = k.mem.writeBytes (chipLoc a) 0 (p.take n)
  | _ => k' = k

/-- A frame of which the chip receives nothing leaves it as it was. -/
theorem FrameLeaves.refl (i : Instr) (k : Chip) : FrameLeaves i k k := by
  cases i with
  | frameRead a p => exact ⟨rfl, rfl⟩
  | frameWrite a p => exact ⟨rfl, 0, rfl⟩
  | frameWrsr v => exact ⟨rfl, .inl rfl⟩
  | _ => exact rfl

theorem FrameLeaves.of_chipCutWrsr (v : Byte) (got : Nat) (k : Chip) :
    FrameLeaves (.frameWrsr v) k (chipCutWrsr v got k) := by
  rcases chipCutWrsr_cases v got k with h | h <;> rw [h]
  · exact .refl _ k
  · exact ⟨rfl, .inr rfl⟩

/-- A frame that the environment does not answer in its own way leaves the chip that R88 to R92 allow. -/
theorem exec_frameLeaves {out : List Byte} {i : Instr} {s t : State} (hd : decodeFrame out = .ok i)
    (he : exec i s = .next t) (hr : ∀ a did, s.fates.head = .reply a did → s.chip.change did = s.chip) :
    FrameLeaves i s.chip t.chip := by
  have hsame : FrameLeaves i s.chip s.chip := .refl i s.chip
  have hreply : ∀ a did, s.fates.head = .reply a did → FrameLeaves i s.chip (s.chip.change did) :=
    fun a did hf => by rwa [hr a did hf]
  rcases decodeFrame_ok hd with ⟨a, p, -, -, rfl | rfl⟩ | ⟨-, ⟨d, rfl⟩ | ⟨v, rfl⟩⟩
  · obtain ⟨-, -, rfl⟩ := execFrameRead_next he
    exact transfer_chip (FrameLeaves _ s.chip) hsame ⟨rfl, rfl⟩ (fun _ => hsame) hreply
  · obtain ⟨-, -, rfl⟩ := execFrameWrite_next he
    exact transfer_chip (FrameLeaves _ s.chip) hsame ⟨rfl, p.length, by rw [List.take_length]; rfl⟩
      (fun got => ⟨rfl, got - 3, rfl⟩) hreply
  · cases he
    exact transfer_chip (FrameLeaves _ s.chip) hsame hsame (fun _ => hsame) hreply
  · cases he
    exact transfer_chip (FrameLeaves _ s.chip) hsame ⟨rfl, .inr rfl⟩
      (fun got => .of_chipCutWrsr v _ s.chip) hreply

/-- What a WRITE frame may leave, byte by byte: a payload that the chip has room for meets no address twice. -/
theorem FrameLeaves.write_stored {a : Half} {p : List Byte} {k k' : Chip} (h : FrameLeaves (.frameWrite a p) k k')
    (hlen : p.length ≤ Config.chipSize) (hwf : k.mem.wf = true) :
    ∃ n, n ≤ p.length ∧ (∀ j, j < n → some (k'.mem.read ((a.toNat % 32768 + j) % 32768)) = p[j]?) ∧
      ∀ b, (∀ j, j < n → b ≠ (a.toNat % 32768 + j) % 32768) → k'.mem.read b = k.mem.read b := by
  obtain ⟨-, n, hmem⟩ := h
  have htake : (p.take n).length ≤ p.length := List.length_take_le' ..
  obtain ⟨-, hstored, hkept⟩ := payloadStored_writeBytes a (htake.trans hlen) hwf
  rw [← hmem] at hstored hkept
  refine ⟨(p.take n).length, htake, fun j hj => ?_, hkept⟩
  rw [hstored j hj, List.getElem?_take_of_lt (hj.trans_le (List.length_take_le ..))]

/-- The only answer a cut frame meets that was not the environment's own is the one put in place of a busy Transport,
and it changes nothing in the chip (R262, assumption log 7). -/
theorem cutBusy_change {s : State} (hf : s.fates.head.isReply = false) (a : Answer) (did : ChipChange)
    (hr : s.cutBusy.fates.head = .reply a did) : s.cutBusy.chip.change did = s.cutBusy.chip := by
  unfold State.cutBusy at hr ⊢
  split at hr
  next => cases hr; rfl
  next => rw [hr] at hf; cases hf

/-- An answer of the environment's own is not a busy Transport. -/
theorem cutBusy_of_reply {s : State} {a : Answer} {did : ChipChange} (hf : s.fates.head = .reply a did) :
    s.cutBusy = s := by
  rw [State.cutBusy, hf]

/-- The environment's answer to a frame brings its own change in the chip (10_state.md R56). -/
theorem exec_chip_of_reply {out : List Byte} {i : Instr} {s t : State} {a : Answer} {did : ChipChange}
    (hd : decodeFrame out = .ok i) (he : exec i s = .next t) (hf : s.fates.head = .reply a did) :
    t.chip = s.chip.change did := by
  obtain ⟨len, inb, drawn, after, cut, cutDrawn, rfl, -⟩ := frame_transfer (decodeFrame_not_isOperation hd) he
  rw [transfer_of_reply hf]
  rfl

/-- A reset edge on which the chip takes the frame in flight: the frame is cut, then the block is reset (R262). -/
theorem step_of_cut {s : State} {out : List Byte} {i : Instr} (hl : s.cfg.legal = true) (hr : s.rst.head = true)
    (hst : s.st = .waiting) (hx : s.xfer = .sent out) (hd : decodeFrame out = .ok i) (hc : s.tick.ChipTakes i) :
    ∃ u, exec i s.tick.cutBusy = .next u ∧ step s = .next (resetBlock u) := by
  obtain ⟨u, hu⟩ := exec_frame_of_chipTakes hd hc.cutBusy
  refine ⟨u, hu, step_of_resetEdge hl hr ?_⟩
  simp [resetEdge, hst, hx, hd, cutFrame_eq hd, hu]

/-- Settles O40: the chip takes the frame that is cut, and what it leaves of the chip stays when the block is reset. -/
theorem resetCutsTheFrameInFlight : Obligations.ResetCutsTheFrameInFlight := by
  intro s out i hl hr hst ho hx hd hmode
  have hedge : s.tick.chip = s.chip := State.edgeChip_of_owner ho
  have htakes : s.tick.ChipTakes i := fun a p hi hby =>
    chipSequential_iff.2 (hedge ▸ (hmode ⟨a, p, hi⟩).resolve_right (ne_of_eq_of_ne hby (by decide)))
  obtain ⟨u, hu, hstep⟩ := step_of_cut hl hr hst hx hd htakes
  have hframe : TransportFrame s.tick u := (exec_frame hd hu).1.of_cutBusy
  have hedges : (resetBlock u).ownEdges = s.ownEdges ++ [.fall] := by
    rw [resetBlock_ownEdges, if_pos (.inr (by rw [hframe]; exact ho)), hframe]
    rfl
  have hdelivered : u.delivered = s.delivered := by rw [hframe]; rfl
  obtain ⟨-, -, -, hcutChip, -⟩ := cutBusy_fields s.tick
  refine ⟨_, hstep, rfl, rfl, rfl, hframe.cfg_eq, hedges, hdelivered, hframe.buf_eq,
    fun a did hf => ?_, fun hf => ?_⟩
  · rw [cutBusy_of_reply (s := s.tick) hf] at hu
    exact (exec_chip_of_reply hd hu hf).trans (congrArg (Chip.change did) hedge)
  · have hleaves : FrameLeaves i s.chip u.chip :=
      (hcutChip.trans hedge) ▸ exec_frameLeaves hd hu (cutBusy_change (s := s.tick) hf)
    refine ⟨?_, ?_, ?_, ?_⟩
    · rintro d rfl
      exact hleaves
    · rintro a p rfl
      exact hleaves
    · rintro v rfl
      exact hleaves
    · rintro a p rfl hlen hwf
      exact ⟨hleaves.1, hleaves.write_stored hlen hwf⟩

end Sys2Proof.Machine

/-! ### The words of the test vectors (95_test_vectors.md, through the encodings of 30_encoding.md) -/

namespace Sys2Proof.Machine

/-- A table row that is the code of a well-formed instruction decodes to that instruction (R102, R111 to R114). -/
theorem decodeTableWord_of_encode {nbits w : Nat} {i : Instr} (hcode : tableCode nbits w = encode Config.default i)
    (hw : i.wellFormed Config.default = true) : decodeTableWord nbits w = some i := by
  rw [decodeTableWord, hcode, encodeThenDecodeIsIdentity Config.default i (by decide) hw]

/-- A table row that packs a reserved operation code decodes to nothing (R118). -/
theorem decodeTableWord_of_reservedOperation {nbits w : Nat} {op : BitVec 3} {r : ReqFields}
    (hcode : tableCode nbits w = .request (packRequest Config.default op r)) (hfit : r.fit Config.default = true)
    (hop : op = 0b110#3 ∨ op = 0b111#3) : decodeTableWord nbits w = none := by
  rw [decodeTableWord, hcode, decode, decodeRequest_packRequest (by decide) op hfit,
    decodeFields_reservedOperation r hop]

/-- Settles O4: each word is what the encoder gives for its instruction, which is well formed, or packs a code that
names no operation. -/
theorem tableWordsDecodeAsWritten : Obligations.TableWordsDecodeAsWritten := by
  have hreserved : decodeTableWord 48 0x60000000000 = none :=
    decodeTableWord_of_reservedOperation (op := 0b110#3) (r := { data := 0#8, len := 0#32, addr := 0#32 })
      rfl (by decide) (.inl rfl)
  refine ⟨?_, ?_, ?_, ?_, ?_, ?_, hreserved, ?_, ?_, ?_, ?_⟩ <;>
    exact decodeTableWord_of_encode rfl (by decide)

end Sys2Proof.Machine
